-- ==== Sys2Proof/Word.lean ====
section
/-! DEFINITION. The word types of TAIF-CORE (00_scope.md R8, R9) and the spelling of its strings. -/

namespace Sys2Proof

/-- `u8` (R9). -/
abbrev Byte := BitVec 8

/-- `u32` (R9): durations, timestamps and `FRAME_LEN` (R8). -/
abbrev U32 := BitVec 32

/-- The 64 bits of a binary64 (R13; layout 93 G7): sign 63, exponent 62:52, fraction 51:0. -/
abbrev F64 := BitVec 64

/-- A string of printable ASCII (R34, R35), one byte a character, as the name table of R90 stores it. -/
abbrev Name := List Byte

/-- The bytes of an ASCII literal. -/
def ascii (s : String) : Name := s.toList.map fun c => BitVec.ofNat 8 c.toNat

end Sys2Proof
end

