-- ==== Sys2Proof/Syntax.lean ====
section
/-! DEFINITION. The operations of spec/opcode_table.json, the words that select them, and the names by which the decoder
rejects a word (30_encoding.md). -/

namespace Sys2Proof

/-- One constructor per row of the opcode table. A `Bool` operand `level` is the edge level (`true` = 1 = rising, R81), `z` is
the selector bit `Z` (R91), `k` is the selector field `K` (R92). -/
inductive Instr where
  /-- EDGE.RISE: an edge event with level 1 (R83, R120). -/
  | edgeRise (dur ts : U32)
  /-- EDGE.FALL: an edge event with level 0 (R83, R120). -/
  | edgeFall (dur ts : U32)
  /-- RESET (R82, R240). -/
  | reset
  /-- PC.SHORT: CLASSIFY gives Short (R110). -/
  | pcShort
  /-- PC.LONG: CLASSIFY gives Long (R110). -/
  | pcLong
  /-- PC.INVALID: CLASSIFY gives Invalid (R110). -/
  | pcInvalid
  /-- SYNC.INC (R123). -/
  | syncInc
  /-- SYNC.MARK (R125, R126). -/
  | syncMark
  /-- SYNC.CLR.RL: a rising Long edge (R123). -/
  | syncClrRl (z : Bool)
  /-- SYNC.CLR.RI: a rising Invalid edge (R123, R124). -/
  | syncClrRi (z : Bool)
  /-- SYNC.CLR.FI: a falling Invalid edge (R123, R124). -/
  | syncClrFi (z : Bool)
  /-- SYNC.HOLD.FS: a falling Short edge (R123). -/
  | syncHoldFs (z : Bool)
  /-- SYNC.HOLD.FL: a falling Long edge (R123). -/
  | syncHoldFl (z : Bool)
  /-- BIT.START (R135). -/
  | bitStart
  /-- BIT.START.FAIL (R136). -/
  | bitStartFail
  /-- BIT.DATA.K1 (R137). -/
  | bitDataK1 (level : Bool)
  /-- BIT.DATA.K2_3 (R137). -/
  | bitDataK2_3 (k : BitVec 4) (level : Bool)
  /-- BIT.DATA.K4_7 (R137). -/
  | bitDataK4_7 (k : BitVec 4) (level : Bool)
  /-- BIT.DATA.K8 (R137). -/
  | bitDataK8 (level : Bool)
  /-- BIT.STOP (R138). -/
  | bitStop
  /-- BIT.STOP.FAIL (R139). -/
  | bitStopFail
  /-- BM.IDENT (R175). -/
  | bmIdent
  /-- BM.OUTBITS (R176). -/
  | bmOutbits
  /-- BM.TEMP (R177). -/
  | bmTemp
  /-- BM.TEMP.LO (R178). -/
  | bmTempLo
  /-- BM.TEMP.HI (R179). -/
  | bmTempHi
  deriving DecidableEq, Repr

/-- A selector word decoded INSIDE a step: a PulseCategory code (R20), `SYNC-SEL` (R91), `BIT-SEL` (R92), the control byte of a
mapping entry (R88). -/
inductive Sel where
  | category (w : BitVec 2)
  | sync (w : BitVec 4)
  | bit (w : BitVec 5)
  | mapping (w : Byte)
  deriving DecidableEq, Repr

/-- The words a decoder reads: an `EV` word (R80), a `CTL` word (R82), a selector. A word's format is the channel it arrives
on (R85). -/
inductive Word where
  | ev (w : BitVec 65)
  | ctl (w : BitVec 1)
  | sel (x : Sel)
  deriving DecidableEq, Repr

/-- The six formats of the opcode table, with no value. -/
inductive Format where
  | ev
  | ctl
  | category
  | sync
  | bit
  | mapping
  deriving DecidableEq, Repr

/-- Why the decoder rejects a word. -/
inductive Reject where
  /-- `CTL` 0: no transaction (R84, 93 item 7). -/
  | noTransaction
  /-- PulseCategory code 11 (R20, 93 item 5). -/
  | categoryUnused
  /-- `SYNC-SEL` with `C = 11` (R91, 93 item 3). -/
  | syncSelUnused
  /-- `BIT-SEL` with `K` in 10..15 (R92, 93 item 4). -/
  | bitSelUnused
  /-- A reserved control byte (R89, 93 item 9). -/
  | controlByteReserved
  /-- A `level` other than 0 and 1, carried in a wider type (R84, 93 item 6). -/
  | levelOutOfRange
  /-- A number too large for a field of fixed width (R80, R85). -/
  | tooWide
  /-- Too few bytes for the format (R85). -/
  | tooShort
  deriving DecidableEq, Repr

end Sys2Proof
end

