-- ==== Sys2Proof/WellFormed.lean ====
section
/-! DEFINITION. Well-formed instructions: the `K` ranges of the two BIT.DATA rows whose pattern has free `k` bits (30_encoding.md R92).
The well-formedness of a registry (R184) is in Machine/RegistryCheck.lean. -/

namespace Sys2Proof

/-- The row's own range of `K` (R92); every other operand is typed by its exact width. -/
def Instr.wf : Instr → Bool
  | .edgeRise _ _ | .edgeFall _ _ | .reset => true
  | .pcShort | .pcLong | .pcInvalid => true
  | .syncInc | .syncMark | .syncClrRl _ | .syncClrRi _ | .syncClrFi _ | .syncHoldFs _ | .syncHoldFl _ => true
  | .bitStart | .bitStartFail | .bitDataK1 _ | .bitDataK8 _ | .bitStop | .bitStopFail => true
  | .bitDataK2_3 k _ => 2 ≤ k && k ≤ 3
  | .bitDataK4_7 k _ => 4 ≤ k && k ≤ 7
  | .bmIdent | .bmOutbits | .bmTemp | .bmTempLo | .bmTempHi => true

end Sys2Proof
end

