-- ==== Sys2Proof/Decode.lean ====
section
/-! DEFINITION. The decoder and the encoder of 30_encoding.md, both written from the match and mask of spec/opcode_table.json, and
the host's probe of the table. -/

namespace Sys2Proof

/-- An `EV` word (R80, R83): bit 64 alone selects the transaction. -/
def decodeEv (w : BitVec 65) : Instr :=
  if w.getLsbD 64 then .edgeRise (w.extractLsb' 32 32) (w.extractLsb' 0 32)
  else .edgeFall (w.extractLsb' 32 32) (w.extractLsb' 0 32)

/-- A `CTL` word (R82, R84). -/
def decodeCtl (w : BitVec 1) : Except Reject Instr :=
  if w = 1 then .ok .reset else .error .noTransaction

/-- A PulseCategory code (R20). -/
def decodeCategory (w : BitVec 2) : Except Reject Instr :=
  if w = 0b01 then .ok .pcShort
  else if w = 0b10 then .ok .pcLong
  else if w = 0b00 then .ok .pcInvalid
  else .error .categoryUnused

/-- `SYNC-SEL` (R91), pattern `LCCZ`. -/
def decodeSync (w : BitVec 4) : Except Reject Instr :=
  if w = 0b1010 then .ok .syncInc
  else if w = 0b1011 then .ok .syncMark
  else if w &&& 0b1110 = 0b1100 then .ok (.syncClrRl (w.getLsbD 0))
  else if w &&& 0b1110 = 0b1000 then .ok (.syncClrRi (w.getLsbD 0))
  else if w &&& 0b1110 = 0b0000 then .ok (.syncClrFi (w.getLsbD 0))
  else if w &&& 0b1110 = 0b0010 then .ok (.syncHoldFs (w.getLsbD 0))
  else if w &&& 0b1110 = 0b0100 then .ok (.syncHoldFl (w.getLsbD 0))
  else .error .syncSelUnused

/-- `BIT-SEL` (R92), pattern `KKKKL`. -/
def decodeBit (w : BitVec 5) : Except Reject Instr :=
  if w = 0b00001 then .ok .bitStart
  else if w = 0b00000 then .ok .bitStartFail
  else if w &&& 0b11110 = 0b00010 then .ok (.bitDataK1 (w.getLsbD 0))
  else if w &&& 0b11100 = 0b00100 then .ok (.bitDataK2_3 (w.extractLsb' 1 4) (w.getLsbD 0))
  else if w &&& 0b11000 = 0b01000 then .ok (.bitDataK4_7 (w.extractLsb' 1 4) (w.getLsbD 0))
  else if w &&& 0b11110 = 0b10000 then .ok (.bitDataK8 (w.getLsbD 0))
  else if w = 0b10010 then .ok .bitStop
  else if w = 0b10011 then .ok .bitStopFail
  else .error .bitSelUnused

/-- A control byte (R89): exactly five values are defined. -/
def decodeMapping (w : Byte) : Except Reject Instr :=
  if w = 0x00 then .ok .bmIdent
  else if w = 0x01 then .ok .bmOutbits
  else if w = 0x02 then .ok .bmTemp
  else if w = 0x06 then .ok .bmTempLo
  else if w = 0x0A then .ok .bmTempHi
  else .error .controlByteReserved

/-- A selector word. -/
def decodeSel : Sel → Except Reject Instr
  | .category w => decodeCategory w
  | .sync w => decodeSync w
  | .bit w => decodeBit w
  | .mapping w => decodeMapping w

/-- The decoder, total on every word of every format. -/
def decode : Word → Except Reject Instr
  | .ev w => .ok (decodeEv w)
  | .ctl w => decodeCtl w
  | .sel x => decodeSel x

/-! ## From numbers and bytes -/

/-- The number of bits of a format (R80, R82, R20, R91, R92, R88). -/
def formatBits : Format → Nat
  | .ev => 65
  | .ctl => 1
  | .category => 2
  | .sync => 4
  | .bit => 5
  | .mapping => 8

/-- The word of a format with the bits of `n`. Bits above an `EV` word's width stand where a wider type carries `level`: they
make it a value other than 0 and 1, refused (R84). -/
def wordOfNat (f : Format) (n : Nat) : Except Reject Word :=
  if n < 2 ^ formatBits f then
    match f with
    | .ev => .ok (.ev (BitVec.ofNat 65 n))
    | .ctl => .ok (.ctl (BitVec.ofNat 1 n))
    | .category => .ok (.sel (.category (BitVec.ofNat 2 n)))
    | .sync => .ok (.sel (.sync (BitVec.ofNat 4 n)))
    | .bit => .ok (.sel (.bit (BitVec.ofNat 5 n)))
    | .mapping => .ok (.sel (.mapping (BitVec.ofNat 8 n)))
  else match f with
    | .ev => .error .levelOutOfRange
    | .ctl | .category | .sync | .bit | .mapping => .error .tooWide

/-- The bytes of a format, the last one filled up with zero bits (DESIGN CHOICE, notes/assumptions/23.md). -/
def formatBytes : Format → Nat
  | .ev => 9
  | .ctl | .category | .sync | .bit | .mapping => 1

/-- The number whose bytes are these, least significant first: the ROM image's order (R60, R86). -/
def natOfBytes : List Byte → Nat
  | [] => 0
  | b :: bs => b.toNat + 256 * natOfBytes bs

/-- Decode one word of the given format from bytes; the rest of the bytes is returned. The spec gives a word's bits and not how they stand in
bytes: least significant byte first, whole bytes, the last filled up with zero bits, is the model's choice (DESIGN CHOICE,
notes/assumptions/23.md). -/
def decodeBytes (f : Format) (bs : List Byte) : Except Reject (Instr × List Byte) :=
  if bs.length < formatBytes f then .error .tooShort
  else match wordOfNat f (natOfBytes (bs.take (formatBytes f))) with
    | .error r => .error r
    | .ok w => match decode w with
      | .error r => .error r
      | .ok i => .ok (i, bs.drop (formatBytes f))

/-- An edge whose fields arrive as numbers: `level` other than 0 and 1 is refused, never treated as a polarity (R84). -/
def edgeOfFields (level dur ts : Nat) : Except Reject Instr :=
  if 1 < level then .error .levelOutOfRange
  else if 2 ^ 32 ≤ dur ∨ 2 ^ 32 ≤ ts then .error .tooWide
  else if level = 1 then .ok (.edgeRise (BitVec.ofNat 32 dur) (BitVec.ofNat 32 ts))
  else .ok (.edgeFall (BitVec.ofNat 32 dur) (BitVec.ofNat 32 ts))

/-! ## The encoder -/

/-- The `EV` word of an edge (R80): `{level, dur, ts}`. -/
def encodeEv (level : Bool) (dur ts : U32) : BitVec 65 :=
  BitVec.ofBool level ++ dur ++ ts

/-- The `SYNC-SEL` word of `L`, `C` and `Z` (R91). -/
def encodeSync (l : Bool) (c : BitVec 2) (z : Bool) : BitVec 4 :=
  BitVec.ofBool l ++ c ++ BitVec.ofBool z

/-- The `BIT-SEL` word of `K` and `L` (R92). -/
def encodeBit (k : BitVec 4) (l : Bool) : BitVec 5 :=
  k ++ BitVec.ofBool l

/-- The word of an instruction, from the table's patterns (R80 to R92). -/
def encode : Instr → Word
  | .edgeRise dur ts => .ev (encodeEv true dur ts)
  | .edgeFall dur ts => .ev (encodeEv false dur ts)
  | .reset => .ctl 1
  | .pcShort => .sel (.category 0b01)
  | .pcLong => .sel (.category 0b10)
  | .pcInvalid => .sel (.category 0b00)
  | .syncInc => .sel (.sync (encodeSync true 0b01 false))
  | .syncMark => .sel (.sync (encodeSync true 0b01 true))
  | .syncClrRl z => .sel (.sync (encodeSync true 0b10 z))
  | .syncClrRi z => .sel (.sync (encodeSync true 0b00 z))
  | .syncClrFi z => .sel (.sync (encodeSync false 0b00 z))
  | .syncHoldFs z => .sel (.sync (encodeSync false 0b01 z))
  | .syncHoldFl z => .sel (.sync (encodeSync false 0b10 z))
  | .bitStart => .sel (.bit (encodeBit 0 true))
  | .bitStartFail => .sel (.bit (encodeBit 0 false))
  | .bitDataK1 level => .sel (.bit (encodeBit 1 level))
  | .bitDataK2_3 k level => .sel (.bit (encodeBit k level))
  | .bitDataK4_7 k level => .sel (.bit (encodeBit k level))
  | .bitDataK8 level => .sel (.bit (encodeBit 8 level))
  | .bitStop => .sel (.bit (encodeBit 9 false))
  | .bitStopFail => .sel (.bit (encodeBit 9 true))
  | .bmIdent => .sel (.mapping 0x00)
  | .bmOutbits => .sel (.mapping 0x01)
  | .bmTemp => .sel (.mapping 0x02)
  | .bmTempLo => .sel (.mapping 0x06)
  | .bmTempHi => .sel (.mapping 0x0A)

/-! ## The host's probe of the opcode table -/

/-- The formats a word of `nbits` bits may have. An exact width names one format. The table's five short formats all fill one
byte, whose number alone does not say the channel (R85), so 8 bits try them in the table's order (notes/assumptions/7.md). -/
def tableFormats (nbits : Nat) : List Format :=
  if nbits = 1 then [.ctl]
  else if nbits = 2 then [.category]
  else if nbits = 4 then [.sync]
  else if nbits = 5 then [.bit]
  else if nbits = 8 then [.ctl, .category, .sync, .bit, .mapping]
  else if nbits = 65 ∨ nbits = 72 then [.ev]
  else []

/-- The first of these formats in which `w` is a word that decodes. -/
def firstWord : List Format → Nat → Option Word
  | [], _ => none
  | f :: fs, w =>
    match wordOfNat f w with
    | .error _ => firstWord fs w
    | .ok x =>
      match decode x with
      | .ok _ => some x
      | .error _ => firstWord fs w

/-- The word the probe `(nbits, w)` stands for. -/
def tableWord (nbits w : Nat) : Option Word :=
  firstWord (tableFormats nbits) w

/-- The instruction the decoder reads from a table row's word (notes/assumptions/7.md). -/
def decodeTableWord (nbits w : Nat) : Option Instr :=
  match tableWord nbits w with
  | none => none
  | some x =>
    match decode x with
    | .ok i => some i
    | .error _ => none

end Sys2Proof
end

