-- ==== Sys2Proof/Machine/Constants.lean ====
section
/-! DEFINITION. The fixed constants of the hardware (00_scope.md R8): no input and no configuration changes them (R112). The widths R8 lists
are the types `U32` (durations and timestamps) and `Bool` (the level); a tick is one microsecond (D4), so a difference of timestamps is a
duration as it stands (R114). -/

namespace Sys2Proof.Machine

/-- `SHORT_LO`, exclusive (R8, R112). -/
def shortLo : Nat := 9000

/-- `SHORT_HI`, exclusive (R8, R112). -/
def shortHi : Nat := 11000

/-- `LONG_LO`, exclusive (R8, R112). -/
def longLo : Nat := 18000

/-- `LONG_HI`, exclusive (R8, R112). -/
def longHi : Nat := 22000

/-- `SYNC_RUN`: how many Short rising edges form a sync marker (R8). -/
def syncRun : Nat := 16

/-- `RUN` one short of a marker (R91, R125). -/
def fullRun : U32 := BitVec.ofNat 32 (syncRun - 1)

/-- `BITS_PER_BYTE`: data bits of a byte (R8). -/
def bitsPerByte : Nat := 8

/-- `BIT_INDEX` when the next boundary is the stop bit: the start bit and all data bits are in (R24). -/
def stopIndex : BitVec 8 := BitVec.ofNat 8 (bitsPerByte + 1)

/-- `WORD_HIGH_WEIGHT`: the multiplier of a High byte (R8). -/
def wordHighWeight : Nat := 256

end Sys2Proof.Machine
end

