-- ==== Sys2Proof/Config.lean ====
section
/-! DEFINITION. Configuration state (10_state.md R33 to R36), value types (R20), and the values the spec leaves open. -/

namespace Sys2Proof

/-- The category of a duration (R20). -/
inductive PulseCategory where
  | invalid
  | short
  | long
  deriving DecidableEq, Repr

/-- `kind` of a ByteMapping (R35). -/
inductive MappingKind where
  | deviceIdentity
  | outputBits
  | temperature
  deriving DecidableEq, Repr

/-- `wordPosition` of a ByteMapping (R35). -/
inductive WordPosition where
  | none
  | low
  | high
  deriving DecidableEq, Repr

/-- How one byte position is read (R35). -/
structure ByteMapping where
  fieldName : Name
  kind : MappingKind
  wordPosition : WordPosition
  bitToOutputIndex : Vector Byte 8
  scale : F64
  deriving DecidableEq, Repr

/-- One device type (R34). -/
structure DeviceDefinition where
  code : Byte
  deviceTypeName : Name
  expectedByteCount : Byte
  byteMappings : List ByteMapping
  deriving DecidableEq, Repr

/-- `REGISTRY`: entries of a key and its definition (R56; WF1 of R184 makes it a map). -/
abbrev Registry := List (Byte × DeviceDefinition)

/-- `CONTROLLER_ID`'s type: compared for equality and nothing else (R7, D23). -/
structure ControllerId where
  tag : Nat
  deriving DecidableEq, Repr, Inhabited

/-- The parameters of one instance (R7, R33): fixed for its life, written by no operation. -/
structure Config where
  registry : Registry
  controllerId : ControllerId
  bufCap : Nat
  deriving DecidableEq, Repr

/-- FREE VALUE: the identifier of the default instance (R7: OPEN; notes/assumptions/6.md). -/
opaque Config.openControllerId : ControllerId

/-- FREE VALUE: the bits of the NaN that an invalid binary64 operation on these two operands makes; its quiet
form is forced where it is used (notes/assumptions/12.md). -/
opaque Config.freeNan : F64 → F64 → F64

end Sys2Proof
end

