-- ==== Sys2Proof/Machine/Float.lean ====
section
/-! DEFINITION. binary64: `fl`, `+f` and `*f` of 00_scope.md R13 (93 G1, G4, G7, G8), rounding to nearest, ties to even. A finite magnitude is
held exactly, as a fraction of natural numbers counting units of 2^-1074, and rounded once. -/

namespace Sys2Proof.Machine

/-- The sign bit (G7). -/
def fSign (x : F64) : Bool := x.getLsbD 63

/-- The exponent field (G7). -/
def fExp (x : F64) : Nat := (x.extractLsb' 52 11).toNat

/-- The fraction field (G7). -/
def fFrac (x : F64) : Nat := (x.extractLsb' 0 52).toNat

/-- Neither infinite nor a NaN (WF9). -/
def fIsFinite (x : F64) : Bool := fExp x != 2047

/-- Infinite. -/
def fIsInf (x : F64) : Bool := fExp x == 2047 && fFrac x == 0

/-- A NaN. -/
def fIsNan (x : F64) : Bool := fExp x == 2047 && fFrac x != 0

/-- The magnitude of a finite `x` in units of 2^-1074. -/
def fUnits (x : F64) : Nat :=
  if fExp x = 0 then fFrac x else (2 ^ 52 + fFrac x) * 2 ^ (fExp x - 1)

/-- The sign bit in place. -/
def fSignBit (neg : Bool) : F64 := if neg then 0x8000000000000000 else 0

/-- Infinity of the given sign (G8). -/
def fInf (neg : Bool) : F64 := fSignBit neg ||| 0x7FF0000000000000

/-- A quiet NaN with free sign and payload, for an invalid operation on `x` and `y` (notes/assumptions/12.md). -/
def fNan (x y : F64) : F64 := Config.freeNan x y ||| 0x7FF8000000000000

/-- `n / d` to the nearest natural number, ties to even. -/
def divNearestEven (n d : Nat) : Nat :=
  if d < 2 * (n % d) ∨ (2 * (n % d) = d ∧ n / d % 2 = 1) then n / d + 1 else n / d

/-- How many bits below the leading one of `n / d` units a binary64 does not hold. -/
def fShift (n d : Nat) : Nat := Nat.log2 (n / d) - 52

/-- The magnitude bits of `fl` of `n / d` units: exponent and fraction fields as one number, a carry out of the fraction
stepping the exponent. -/
def fMagnitude (n d : Nat) : Nat :=
  fShift n d * 2 ^ 52 + divNearestEven n (d * 2 ^ fShift n d)

/-- `fl` of `n / d` units with the given sign (R13): infinite from the overflow threshold on (G8). -/
def fl (neg : Bool) (n d : Nat) : F64 :=
  if fMagnitude n d < 2047 * 2 ^ 52 then fSignBit neg ||| BitVec.ofNat 64 (fMagnitude n d) else fInf neg

/-- The binary64 of a byte, exact: `zext_64(b)` as a number (R174). -/
def fOfByte (b : Byte) : F64 := fl false (b.toNat * 2 ^ 1074) 1

/-- `x *f y` (R13). -/
def fMul (x y : F64) : F64 :=
  if fIsNan x || fIsNan y then fNan x y
  else if fIsInf x || fIsInf y then
    if fUnits x = 0 ∨ fUnits y = 0 then fNan x y else fInf (fSign x != fSign y)
  else fl (fSign x != fSign y) (fUnits x * fUnits y) (2 ^ 1074)

/-- The signed magnitude of a finite `x`, in units of 2^-1074. -/
def fInt (x : F64) : Int := if fSign x then -(fUnits x : Int) else (fUnits x : Int)

/-- The exact sum rounded once; a zero sum is negative only when both terms are (IEEE 754, G1). -/
def fAddFinite (x y : F64) : F64 :=
  let sum := fInt x + fInt y
  let neg := if sum = 0 then fSign x && fSign y else decide (sum < 0)
  fl neg sum.natAbs 1

/-- `x +f y` (R13). -/
def fAdd (x y : F64) : F64 :=
  if fIsNan x || fIsNan y then fNan x y
  else if fIsInf x then
    if fIsInf y && (fSign x != fSign y) then fNan x y else x
  else if fIsInf y then y
  else fAddFinite x y

/-- `fl` of the decimal `n / 10^k`, for a scale literal (R98). -/
def fOfDecimal (neg : Bool) (n k : Nat) : F64 := fl neg (n * 2 ^ 1074) (10 ^ k)

end Sys2Proof.Machine
end

