-- ==== Sys2Proof/Machine/Registry.lean ====
section
/-! DEFINITION. The registry instance of this hardware (42_record_unpacker.md R196, R197) and the default configuration (00_scope.md R7). -/

namespace Sys2Proof.Machine

/-- The binary64 of 1.0, the neutral scale (R36). -/
def f64One : F64 := 0x3FF0000000000000

/-- The binary64 of 0.1 (V-ENC-5). -/
def f64Tenth : F64 := 0x3FB999999999999A

/-- Eight unused outputs, the neutral map (R36). -/
def noOutputs : Vector Byte 8 := #v[0, 0, 0, 0, 0, 0, 0, 0]

/-- `IDENT "<name>"` (R98). -/
def identSlot (name : Name) : ByteMapping :=
  { fieldName := name, kind := .deviceIdentity, wordPosition := .none, bitToOutputIndex := noOutputs, scale := f64One }

/-- `OUTBITS "<name>" (...)` (R98). -/
def outbitsSlot (name : Name) (outs : Vector Byte 8) : ByteMapping :=
  { fieldName := name, kind := .outputBits, wordPosition := .none, bitToOutputIndex := outs, scale := f64One }

/-- `TEMP`, `TEMP.LO`, `TEMP.HI "<name>" <scale>` (R98). -/
def tempSlot (w : WordPosition) (name : Name) (scale : F64) : ByteMapping :=
  { fieldName := name, kind := .temperature, wordPosition := w, bitToOutputIndex := noOutputs, scale := scale }

/-- A Low and a High slot of one field, Low first, at scale 0.1 (R196). -/
def tenthPair (name : Name) : List ByteMapping :=
  [tempSlot .low name f64Tenth, tempSlot .high name f64Tenth]

/-- `DEVICE 32 "UVR64" 14` (R196). -/
def uvr64 : DeviceDefinition :=
  { code := 32
    deviceTypeName := ascii "UVR64"
    expectedByteCount := 14
    byteMappings :=
      [identSlot (ascii "devicetype")] ++ tenthPair (ascii "temp1") ++ tenthPair (ascii "temp2")
        ++ tenthPair (ascii "temp3") ++ tenthPair (ascii "temp4") ++ tenthPair (ascii "temp5")
        ++ tenthPair (ascii "temp6") ++ [outbitsSlot (ascii "output") #v[0, 0, 0, 0, 1, 2, 3, 4]] }

/-- The registry with the UVR64 entry alone: key 96 (HZR65) is absent (R197; notes/assumptions/6.md). -/
def defaultRegistry : Registry := [(32, uvr64)]

/-- `BUF_CAP` of this hardware (R7, D14). -/
def defaultBufCap : Nat := 32

/-- The default instance (95_test_vectors.md; notes/assumptions/6.md). -/
def defaultConfig : Config :=
  { registry := defaultRegistry, controllerId := Config.openControllerId, bufCap := defaultBufCap }

end Sys2Proof.Machine
end

