-- ==== Sys2Proof/Machine/RegistryCheck.lean ====
section
/-! DEFINITION. The checks of a configuration: WF1 to WF9 of 42_record_unpacker.md R184 and the bound of 00_scope.md R7 (70_reset_and_hazards.md
R243). Also `dec` and the keys a slot produces (R175 to R179), which WF7 compares. -/

namespace Sys2Proof.Machine

/-- `dec(n)` of a u8: its shortest decimal spelling (R13, G2). -/
def decByte (b : Byte) : Name :=
  let n := b.toNat
  let digit (k : Nat) : Byte := BitVec.ofNat 8 (48 + k)
  if n < 10 then [digit n]
  else if n < 100 then [digit (n / 10), digit (n % 10)]
  else [digit (n / 100), digit (n / 10 % 10), digit (n % 10)]

/-- The key of output channel `o` (R176, R93): `fieldName ++ dec(o)`. -/
def outputKey (name : Name) (o : Byte) : Name := name ++ decByte o

/-- The non-zero entries of `bitToOutputIndex`, in bit order. -/
def usedOutputs (m : ByteMapping) : List Byte := m.bitToOutputIndex.toList.filter fun o => o != 0

/-- The keys a slot produces (R175 to R179). -/
def slotKeys (m : ByteMapping) : List Name :=
  match m.kind with
  | .deviceIdentity => [m.fieldName]
  | .outputBits => (usedOutputs m).map (outputKey m.fieldName)
  | .temperature => [m.fieldName]

/-- Printable ASCII of length 1..255 (WF4). -/
def nameOk (s : Name) : Bool :=
  1 ≤ s.length && s.length ≤ 255 && s.all fun c => 0x20 ≤ c && c ≤ 0x7E

/-- WF1: keys are distinct. -/
def keysDistinct (r : Registry) : Bool := decide (r.map Prod.fst).Nodup

/-- WF1: each key is the `code` of its own definition. -/
def keysMatch (r : Registry) : Bool := r.all fun e => e.1 == e.2.code

/-- WF2. -/
def countOk (d : DeviceDefinition) : Bool :=
  1 ≤ d.expectedByteCount.toNat && d.byteMappings.length == d.expectedByteCount.toNat

/-- WF4. -/
def namesOk (d : DeviceDefinition) : Bool :=
  nameOk d.deviceTypeName && d.byteMappings.all fun m => nameOk m.fieldName

/-- WF5: `wordPosition ≠ None` only for Temperature. -/
def positionOk (m : ByteMapping) : Bool :=
  m.kind == .temperature || m.wordPosition == .none

/-- WF6: a field that the kind does not use is neutral. -/
def neutralOk (m : ByteMapping) : Bool :=
  (m.kind == .outputBits || m.bitToOutputIndex == noOutputs) && (m.kind == .temperature || m.scale == f64One)

/-- Two slots are the two halves of one temperature, in either order (WF7). -/
def isPair (m m' : ByteMapping) : Bool :=
  m.kind == .temperature && m'.kind == .temperature && m.fieldName == m'.fieldName
    && ((m.wordPosition == .low && m'.wordPosition == .high) || (m.wordPosition == .high && m'.wordPosition == .low))

/-- No key of `m` is a key of a later slot. -/
def keysApart (m : ByteMapping) (later : List ByteMapping) : Bool :=
  (slotKeys m).all fun k => later.all fun m' => !(slotKeys m').contains k

/-- WF7: a Low or High slot stands beside its other half, and apart from such a pair no two slots share a key. -/
def slotsApart : List ByteMapping → Bool
  | [] => true
  | [m] => m.wordPosition == .none
  | m :: m' :: rest =>
    if m.wordPosition == .none then keysApart m (m' :: rest) && slotsApart (m' :: rest)
    else isPair m m' && keysApart m rest && slotsApart rest

/-- WF8: the used outputs of one slot are distinct. -/
def outputsDistinct (m : ByteMapping) : Bool := m.kind != .outputBits || decide (usedOutputs m).Nodup

/-- The checks of one definition: WF2, WF4 to WF9. -/
def definitionOk (d : DeviceDefinition) : Bool :=
  countOk d && namesOk d && d.byteMappings.all positionOk && d.byteMappings.all neutralOk && slotsApart d.byteMappings
    && d.byteMappings.all outputsDistinct && d.byteMappings.all fun m => fIsFinite m.scale

/-- WF3 and R7: `BUF_CAP` is above every byte count; over no definition at all the greatest count is 0
(notes/assumptions/15.md). -/
def capOk (c : Config) : Bool :=
  0 < c.bufCap && c.registry.all fun e => e.2.expectedByteCount.toNat < c.bufCap

/-- A configuration that passes R243. -/
def configOk (c : Config) : Bool :=
  keysDistinct c.registry && keysMatch c.registry && (c.registry.all fun e => definitionOk e.2) && capOk c

end Sys2Proof.Machine
end

