-- ==== Sys2Proof/Machine/State.lean ====
section
/-! DEFINITION. The state of one TAIF-CORE instance (10_state.md), its output events (60_exceptions.md), and the names by which a step
stops. Plain data. -/

namespace Sys2Proof.Machine

/-- The byte buffer as cells of an index and its byte (20_memory.md R51), indexes rising from 0 with none left out. An
index that no cell has holds NO value (notes/assumptions/22.md). -/
abbrev Memory := List Host.Cell

/-- A value of a record (R37). -/
inductive Value where
  | str (s : Name)
  | num (x : F64)
  | bool (b : Bool)
  deriving DecidableEq, Repr

/-- A DecodedRecord: pairs of a key and its value, in the order of first insertion (R37, R180). -/
abbrev Record := List (Name × Value)

/-- Which framing bit a `SYNC_LOSS` names (R140, R211). -/
inductive FramingBit where
  | start
  | stop
  deriving DecidableEq, Repr

/-- An output event (R210, R211). -/
inductive Event where
  /-- `Deliver(controllerId, record)` on `REC` (R216). -/
  | deliver (id : ControllerId) (record : Record)
  /-- `INVALID_PULSE(level, dur, ts)` (R212). -/
  | invalidPulse (level : Bool) (dur ts : U32)
  /-- `SYNC_LOSS(which, ts)` (R213). -/
  | syncLoss (which : FramingBit) (ts : U32)
  /-- `UNKNOWN_DEVICE(code or none)` (R214). -/
  | unknownDevice (code : Option Byte)
  /-- `LENGTH_MISMATCH(code, expected, actual)` (R215). -/
  | lengthMismatch (code expected : Byte) (actual : U32)
  deriving DecidableEq, Repr

/-- The phases of an instance (70_reset_and_hazards.md R243 to R245). -/
inductive Phase where
  /-- Before the configuration load. -/
  | unconfigured
  /-- The configuration failed its checks: the instance does not start (R243). -/
  | refused
  /-- Configured, before the first RESET (R244). -/
  | configured
  /-- Operation (R244 phase 3). -/
  | running
  /-- After teardown (R245). -/
  | tornDown
  deriving DecidableEq, Repr

/-- What a partner hands to the core (R254). -/
inductive Input where
  /-- An `EV` word from the edge source (R80). -/
  | ev (w : BitVec 65)
  /-- A `CTL` word from the reset agent (R82). -/
  | ctl (w : BitVec 1)
  /-- The configuration in abstract form (R243). -/
  | configure (c : Config)
  /-- The configuration with its registry as a ROM image (R86, R243). -/
  | loadImage (image : List Byte) (id : ControllerId) (bufCap : Nat)
  /-- Teardown by the lifecycle agent (R245). -/
  | teardown
  deriving DecidableEq, Repr

/-- The operands of the unpacker's operation on one byte slot (R170, R175 to R179): the definition, the slot's mapping, its
byte, and the record so far. -/
structure Slot where
  defn : DeviceDefinition
  mapping : ByteMapping
  byte : Byte
  record : Record
  deriving DecidableEq, Repr

/-- The values of the step in progress (R80, R110, R120, R170): the edge's fields, the classifier's operand and result, the
unpacker's slot. Not registers: between steps they are `Work.idle` (notes/assumptions/4.md). -/
structure Work where
  level : Bool
  dur : U32
  ts : U32
  classIn : U32
  classOut : PulseCategory
  slot : Option Slot
  deriving DecidableEq, Repr

/-- No step in progress. -/
def Work.idle : Work :=
  { level := false, dur := 0, ts := 0, classIn := 0, classOut := .invalid, slot := none }

/-- Why the model stops where the spec says that no run arrives. All are SAFE: the hardware never gets there, or the spec
itself asks a model to fault (93_implementation_defined.md section 1). -/
inductive Fault where
  /-- `RUN ≥ 16`, breaking R30 (a). Raised by `accept` for every edge and assembler operation. Safe. -/
  | runOutOfRange
  /-- `SYNCED = 0` with `BIT_INDEX ≠ 0`, breaking R30 (b). Raised by `accept`. Safe. -/
  | bitIndexWhileUnsynced
  /-- `BIT_INDEX ≥ 10`, breaking R30 (c). Raised by `accept`. Safe. -/
  | bitIndexOutOfRange
  /-- `BIT_INDEX ≥ 1` with `FRAME_LEN = 0`, breaking R30 (d). Raised by `accept`. Safe. -/
  | partialByteMissing
  /-- The partial byte has a bit set at or above the next data bit, breaking R30 (e). Raised by `accept`. Safe. -/
  | partialByteBits
  /-- `|BUF| ≠ min(FRAME_LEN, BUF_CAP)`, or cells that are no sequence, breaking R30 (f) or R51. Raised by `accept`. Safe. -/
  | bufLengthBroken
  /-- PulseCategory code 11 (93 item 5). Raised by the dispatch of a selector word. Safe. -/
  | categoryUnused
  /-- `SYNC-SEL` with `C = 11` (93 item 3). Raised by the dispatch of a selector word. Safe. -/
  | syncSelUnused
  /-- `BIT-SEL` with `K` in 10..15 (93 item 4). Raised by the dispatch of a selector word. Safe. -/
  | bitSelUnused
  /-- A reserved control byte where a slot's operation is selected (93 item 9). Raised by the unpacker. Safe. -/
  | controlByteReserved
  /-- A selector's operation in a state that does not form that selector (R91, R92, R110, R170). Raised by the meanings of the
  selector rows. Safe. -/
  | selectorNotFormed
  /-- A read of `BUF` at or above `|BUF|`, where R51 defines none. Raised by `MemRead`'s callers. Safe. -/
  | bufReadOutside
  /-- A definition with fewer mappings than bytes, breaking WF2 (R184). Raised by DECODE. Safe. -/
  | slotMissing
  /-- A `put` that finds its key present (93 item 29). Raised by the unpacker. Safe. -/
  | recordKeyPresent
  /-- An `acc` that finds a value that is no Num (93 item 29). Raised by the unpacker. Safe. -/
  | recordNotNum
  deriving DecidableEq, Repr

/-- Why the model takes no step. -/
inductive Refusal where
  /-- No meaning yet. Raised by a refused arm of exec alone. Safe. -/
  | notModelled (mnemonic : String)
  /-- An edge before the first RESET (R244, R254, R255). Raised by `accept`. Safe. -/
  | beforeReset
  /-- A transaction before the configuration load (R244). Raised by `accept`, RESET and teardown. Safe. -/
  | notConfigured
  /-- A transaction to an instance whose configuration was refused (R243, 93 items 8, 10, 11). Raised by `accept`, RESET and
  teardown. Safe. -/
  | configurationRefused
  /-- A transaction after teardown (R245, R255). Raised by `accept`, RESET and teardown. Safe. -/
  | afterTeardown
  /-- A second configuration load (R255, 93 item 24). Raised by the configuration load. Safe. -/
  | configurationChange
  deriving DecidableEq, Repr

/-- The state. The first seven fields are the registers of R21. -/
structure State where
  /-- `RUN` (R22). -/
  run : U32
  /-- `SYNCED` (R23). -/
  synced : Bool
  /-- `BIT_INDEX` (R24). -/
  bitIndex : BitVec 8
  /-- `BUF` (R25). -/
  buf : Memory
  /-- `FRAME_LEN` (R26). -/
  frameLen : U32
  /-- `LAST_EDGE_TS` (R28). -/
  lastEdgeTs : U32
  /-- `LAST_BIT_TS` (R29). -/
  lastBitTs : U32
  /-- Configuration state (R33). -/
  cfg : Config
  /-- The phase of the instance (R243 to R245). -/
  phase : Phase
  /-- Transactions handed over and not yet taken, oldest first (R65; notes/assumptions/2.md). -/
  inbox : List Input
  /-- The output events of the step just taken, in order (R14, R210; notes/assumptions/3.md). -/
  events : List Event
  /-- The values of the step in progress (notes/assumptions/4.md). -/
  work : Work
  /-- A selector word to be run alone (notes/assumptions/1.md). -/
  sub : Option Sel
  deriving DecidableEq, Repr

/-- The state right after reset (R40, R240, R246), under the default configuration, with no transaction waiting. -/
def State.reset : State :=
  { run := 0
    synced := false
    bitIndex := 0
    buf := []
    frameLen := 0
    lastEdgeTs := 0
    lastBitTs := 0
    cfg := defaultConfig
    phase := .running
    inbox := []
    events := []
    work := Work.idle
    sub := none }

end Sys2Proof.Machine
end

