-- ==== Sys2Proof/Machine/Ops.lean ====
section
/-! DEFINITION. The named operations over the two storage objects (20_memory.md), the record (R180), the event primitive (R12), which
is this hardware's only way to report an error (R220), reset (R240), and what every step checks first (R30, R244). -/

namespace Sys2Proof.Machine

/-- The outcome of a step of this model. -/
abbrev Outcome := Host.Outcome State Fault Refusal

/-- Go on from a next state; a fault or a refusal ends the step. -/
def andThen (o : Outcome) (k : State → Outcome) : Outcome :=
  match o with
  | .next s => k s
  | .fault f => .fault f
  | .refused r => .refused r

/-- The next state, or the fault. -/
def toOutcome : Except Fault State → Outcome
  | .ok s => .next s
  | .error f => .fault f

/-! ## The byte buffer -/

/-- The canonical form: the indexes are 0, 1, 2, … with none left out (R51). -/
def Memory.wf (m : Memory) : Bool := m.map Prod.fst == List.range m.length

/-- Byte `i`, if the buffer holds it. -/
def Memory.read (m : Memory) (i : Nat) : Option Byte := List.lookup i m

/-- Replace byte `i` if the buffer holds it; otherwise nothing. -/
def Memory.write (m : Memory) (i : Nat) (v : Byte) : Memory :=
  m.map fun c => if c.1 = i then (c.1, v) else c

/-- `MemRead(i, 1)` (R51). -/
def State.memRead (s : State) (i : Nat) : Option Byte := s.buf.read i

/-- `MemWrite(i, 1, v)` (R53). -/
def State.memWrite (s : State) (i : Nat) (v : Byte) : State := { s with buf := s.buf.write i v }

/-- `FRAME_LEN + 1`, or `2^32-1` again (R26, R52). -/
def frameLenSucc (n : U32) : U32 := if n = 0xFFFFFFFF then n else n + 1

/-- `BufAppend(v)` (R52). -/
def State.bufAppend (s : State) (v : Byte) : State :=
  { s with
    buf := if s.frameLen.toNat < s.cfg.bufCap then s.buf ++ [(s.frameLen.toNat, v)] else s.buf
    frameLen := frameLenSucc s.frameLen }

/-- `BufDropLast()` (R54). -/
def State.bufDropLast (s : State) : State :=
  if s.frameLen = 0 then s
  else
    { s with
      buf := if s.frameLen.toNat ≤ s.cfg.bufCap then s.buf.dropLast else s.buf
      frameLen := s.frameLen - 1 }

/-- `BufClear()` (R55). -/
def State.bufClear (s : State) : State := { s with buf := [], frameLen := 0 }

/-- `RegLookup(code)` (R56). -/
def regLookup (r : Registry) (code : Byte) : Option DeviceDefinition := List.lookup code r

/-! ## The record -/

/-- The value of key `k`, if the record has it. -/
def Record.get (r : Record) (k : Name) : Option Value := List.lookup k r

/-- The record with the value of a present key replaced in place (R180). -/
def Record.replace (r : Record) (k : Name) (v : Value) : Record :=
  r.map fun e => if e.1 = k then (k, v) else e

/-- `put(k, v)` (R180). -/
def Record.put (r : Record) (k : Name) (v : Value) : Record :=
  match Record.get r k with
  | some _ => Record.replace r k v
  | none => r ++ [(k, v)]

/-- A `put` as the unpacker makes it: on a present key, which no well-formed registry gives (R185), it faults (93 item 29;
notes/assumptions/13.md). -/
def Record.putFresh (r : Record) (k : Name) (v : Value) : Except Fault Record :=
  match Record.get r k with
  | some _ => .error .recordKeyPresent
  | none => .ok (Record.put r k v)

/-- `acc(k, x)` (R180); on a value that is no Num it faults (93 item 29). -/
def Record.acc (r : Record) (k : Name) (x : F64) : Except Fault Record :=
  match Record.get r k with
  | none => .ok (r ++ [(k, .num x)])
  | some (.num y) => .ok (Record.replace r k (.num (fAdd y x)))
  | some (.str _) => .error .recordNotNum
  | some (.bool _) => .error .recordNotNum

/-! ## Events -/

/-- `raise E` and `emit Deliver` (R12, R210): append to the step's events. It saves nothing, changes no mode and transfers
control nowhere (R220). -/
def State.raise (s : State) (e : Event) : State := { s with events := s.events ++ [e] }

/-! ## Reset -/

/-- The register writes of RESET (R240). Configuration is not written. -/
def State.resetRegisters (s : State) : State :=
  { s with
    run := 0
    synced := false
    bitIndex := 0
    buf := []
    frameLen := 0
    lastEdgeTs := 0
    lastBitTs := 0
    events := [] }

/-! ## What a step checks first -/

/-- The bits of the partial byte at and above the next data bit (R30 (e)): `[7:k-1]` with `k = BIT_INDEX`. -/
def partialRest (s : State) : Byte :=
  match s.memRead (s.frameLen.toNat - 1) with
  | some b => b >>> (s.bitIndex.toNat - 1)
  | none => 0

/-- The first invariant of R30 that the registers break (93 item 2). -/
def State.broken (s : State) : Option Fault :=
  if syncRun ≤ s.run.toNat then some .runOutOfRange
  else if s.synced = false ∧ s.bitIndex ≠ 0 then some .bitIndexWhileUnsynced
  else if bitsPerByte + 1 < s.bitIndex.toNat then some .bitIndexOutOfRange
  else if s.buf.wf = false ∨ s.buf.length ≠ min s.frameLen.toNat s.cfg.bufCap then some .bufLengthBroken
  else if s.bitIndex ≠ 0 ∧ s.frameLen = 0 then some .partialByteMissing
  else if s.bitIndex ≠ 0 ∧ s.frameLen.toNat ≤ s.cfg.bufCap ∧ partialRest s ≠ 0 then some .partialByteBits
  else none

/-- Go on only in a running instance (R244, R245) whose configuration passed its checks (R243) and whose registers keep R30. -/
def accept (s : State) (k : State → Outcome) : Outcome :=
  match s.phase with
  | .unconfigured => .refused .notConfigured
  | .refused => .refused .configurationRefused
  | .configured => .refused .beforeReset
  | .tornDown => .refused .afterTeardown
  | .running =>
    if configOk s.cfg then
      match s.broken with
      | some f => .fault f
      | none => k s
    else .refused .configurationRefused

end Sys2Proof.Machine
end

