-- ==== Sys2Proof/Machine/Classifier.lean ====
section
/-! DEFINITION. The Pulse Classifier (40_pulse_classifier.md) and the meanings of the PulseCategory rows. -/

namespace Sys2Proof.Machine

/-- CLASSIFY (R110). -/
def classify (d : U32) : PulseCategory :=
  if shortLo < d.toNat ∧ d.toNat < shortHi then .short
  else if longLo < d.toNat ∧ d.toNat < longHi then .long
  else .invalid

/-- The code of a category (R20). -/
def categoryCode : PulseCategory → BitVec 2
  | .short => 0b01
  | .long => 0b10
  | .invalid => 0b00

/-- The classifier gives `c` for the operand before it; a code that CLASSIFY does not give for that operand has no meaning.
It reads no register (R113) and completes in a state that breaks R30 too (DESIGN CHOICE, notes/assumptions/9.md). -/
def giveCategory (c : PulseCategory) (s : State) : Outcome :=
  if classify s.work.classIn = c then .next { s with work := { s.work with classOut := c } }
  else .fault .selectorNotFormed

/-- PC.SHORT (R110). -/
def execPcShort (s : State) : Outcome := giveCategory .short s

/-- PC.LONG (R110). -/
def execPcLong (s : State) : Outcome := giveCategory .long s

/-- PC.INVALID (R110). -/
def execPcInvalid (s : State) : Outcome := giveCategory .invalid s

end Sys2Proof.Machine
end

