-- ==== Sys2Proof/Machine/Flags.lean ====
section
/-! DEFINITION. What is computed from the flag `SYNCED`, `BIT_INDEX` and `RUN`: the FSM state (10_state.md R27) and the two selectors
(30_encoding.md R91, R92). -/

namespace Sys2Proof.Machine

/-- The FSM states (R27). -/
inductive FsmState where
  | unsynced
  | awaitingStart
  | inByte (k : Nat)
  | awaitingStop
  deriving DecidableEq, Repr

/-- The FSM state of the registers; none for a pair outside the table of R27. -/
def fsmState (s : State) : Option FsmState :=
  if s.synced then
    if s.bitIndex = 0 then some .awaitingStart
    else if s.bitIndex.toNat ≤ bitsPerByte then some (.inByte s.bitIndex.toNat)
    else if s.bitIndex = stopIndex then some .awaitingStop
    else none
  else if s.bitIndex = 0 then some .unsynced
  else none

/-- `Z` of `SYNC-SEL`: `RUN = 15`, one short of `SYNC_RUN` (R91, R8). -/
def runIsFull (s : State) : Bool := s.run == fullRun

/-- `SYNC-SEL` as sub-step S2 forms it from the edge's level and category (R91). -/
def syncSel (s : State) : BitVec 4 := encodeSync s.work.level (categoryCode s.work.classOut) (runIsFull s)

/-- `BIT-SEL` as sub-step S3 forms it (R92). -/
def bitSel (s : State) : BitVec 5 := encodeBit (s.bitIndex.setWidth 4) s.work.level

/-- S3 forms `BIT-SEL` only while synced, on a Long bit interval (R92, R133). -/
def atBoundary (s : State) : Bool := s.synced && s.work.classOut == .long

end Sys2Proof.Machine
end

