-- ==== Sys2Proof/Machine/Operands.lean ====
section
/-! DEFINITION. The assembled operands of 30_encoding.md R93: the bit interval, a data bit's contribution, a slot's scaled values. The
output key stands in Machine/RegistryCheck.lean, which compares keys. -/

namespace Sys2Proof.Machine

/-- The bit interval: `(ts - LAST_BIT_TS) mod 2^32` (R132). -/
def bitInterval (s : State) (ts : U32) : U32 := ts - s.lastBitTs

/-- A data bit's contribution: `(1 - level) << (n - 2)` (R137), with `n = BIT_INDEX + 1` (C1). -/
def dataContribution (n : Nat) (level : Bool) : Byte := BitVec.ofNat 8 ((1 - level.toNat) <<< (n - 2))

/-- The scaled value of a byte (R174). -/
def scaledByte (b : Byte) (scale : F64) : F64 := fMul (fOfByte b) scale

/-- The binary64 of `wordHighWeight`: 256.0 (R8). -/
def f64Weight : F64 := 0x4070000000000000

/-- The term of a High slot: `s *f 256` (R179). -/
def highTerm (s : F64) : F64 := fMul s f64Weight

end Sys2Proof.Machine
end

