-- ==== Sys2Proof/Machine/Bits.lean ====
section
/-! DEFINITION. Bit decoding, sub-step S3 (41_frame_assembler.md R134 to R140), and the meanings of the BIT rows. -/

namespace Sys2Proof.Machine

/-- START_OK (R135). -/
def startOk (s : State) : State := { s.bufAppend 0 with bitIndex := 1 }

/-- SYNC_LOSS (R140). -/
def syncLoss (which : FramingBit) (ts : U32) (s : State) : State :=
  { s with synced := false, bitIndex := 0 }.raise (.syncLoss which ts)

/-- START_FAIL (R136). -/
def startFail (ts : U32) (s : State) : State := syncLoss .start ts s

/-- DATA_BIT(n, level) (R137). -/
def dataBit (n : BitVec 8) (level : Bool) (s : State) : Except Fault State :=
  if s.frameLen.toNat ≤ s.cfg.bufCap then
    match s.memRead (s.frameLen.toNat - 1) with
    | some b =>
      .ok { s.memWrite (s.frameLen.toNat - 1) (b + dataContribution n.toNat level) with bitIndex := n }
    | none => .error .bufReadOutside
  else .ok { s with bitIndex := n }

/-- STOP_OK (R138). -/
def stopOk (s : State) : State := { s with bitIndex := 0 }

/-- STOP_FAIL (R139). -/
def stopFail (ts : U32) (s : State) : State := syncLoss .stop ts s.bufDropLast

/-- Run a BIT operation at a bit boundary that forms its selector (R92, R133). -/
def onBitSel (k : BitVec 4) (level : Bool) (op : State → Except Fault State) (s : State) : Outcome :=
  accept s fun s =>
    if atBoundary s = true ∧ bitSel s = encodeBit k level then toOutcome (op s) else .fault .selectorNotFormed

/-- `n = BIT_INDEX + 1` of a data bit (R134). -/
def nextIndex (k : BitVec 4) : BitVec 8 := k.setWidth 8 + 1

/-- BIT.START (R135). -/
def execBitStart (s : State) : Outcome := onBitSel 0 true (fun s => .ok (startOk s)) s

/-- BIT.START.FAIL (R136). -/
def execBitStartFail (s : State) : Outcome := onBitSel 0 false (fun s => .ok (startFail s.work.ts s)) s

/-- BIT.DATA.K1 (R137). -/
def execBitDataK1 (level : Bool) (s : State) : Outcome := onBitSel 1 level (dataBit 2 level) s

/-- BIT.DATA.K2_3 (R137); a `k` outside the row's pattern is no selector of this row. -/
def execBitDataK2_3 (k : BitVec 4) (level : Bool) (s : State) : Outcome :=
  if 2 ≤ k ∧ k ≤ 3 then onBitSel k level (dataBit (nextIndex k) level) s else .fault .selectorNotFormed

/-- BIT.DATA.K4_7 (R137); a `k` outside the row's pattern is no selector of this row. -/
def execBitDataK4_7 (k : BitVec 4) (level : Bool) (s : State) : Outcome :=
  if 4 ≤ k ∧ k ≤ 7 then onBitSel k level (dataBit (nextIndex k) level) s else .fault .selectorNotFormed

/-- BIT.DATA.K8 (R137). -/
def execBitDataK8 (level : Bool) (s : State) : Outcome := onBitSel 8 level (dataBit 9 level) s

/-- BIT.STOP (R138). -/
def execBitStop (s : State) : Outcome := onBitSel 9 false (fun s => .ok (stopOk s)) s

/-- BIT.STOP.FAIL (R139). -/
def execBitStopFail (s : State) : Outcome := onBitSel 9 true (fun s => .ok (stopFail s.work.ts s)) s

end Sys2Proof.Machine
end

