-- ==== Sys2Proof/Machine/Unpacker.lean ====
section
/-! DEFINITION. The Record Unpacker (42_record_unpacker.md): the five mapping operations, DECODE, and the meanings of the BM rows. -/

namespace Sys2Proof.Machine

/-! ## The mapping operations on a record -/

/-- IDENT (R175). -/
def identOp (d : DeviceDefinition) (m : ByteMapping) (r : Record) : Except Fault Record :=
  Record.putFresh r m.fieldName (.str d.deviceTypeName)

/-- One bit of OUTBITS: an unused bit (0) gives no key (R176). -/
def outbitOp (m : ByteMapping) (b : Byte) (bit : Nat) (o : Byte) (r : Record) : Except Fault Record :=
  if o = 0 then .ok r else Record.putFresh r (outputKey m.fieldName o) (.bool (b.getLsbD bit))

/-- The bits of OUTBITS from `bit` on, ascending (R176, D18). -/
def outbitsFrom (m : ByteMapping) (b : Byte) : Nat → List Byte → Record → Except Fault Record
  | _, [], r => .ok r
  | bit, o :: os, r =>
    match outbitOp m b bit o r with
    | .ok r' => outbitsFrom m b (bit + 1) os r'
    | .error f => .error f

/-- OUTBITS (R176), on the unscaled byte. -/
def outbitsOp (m : ByteMapping) (b : Byte) (r : Record) : Except Fault Record :=
  outbitsFrom m b 0 m.bitToOutputIndex.toList r

/-- TEMP (R177). -/
def tempOp (m : ByteMapping) (b : Byte) (r : Record) : Except Fault Record :=
  Record.putFresh r m.fieldName (.num (scaledByte b m.scale))

/-- TEMP_LO (R178). -/
def tempLoOp (m : ByteMapping) (b : Byte) (r : Record) : Except Fault Record :=
  Record.acc r m.fieldName (scaledByte b m.scale)

/-- TEMP_HI (R179). -/
def tempHiOp (m : ByteMapping) (b : Byte) (r : Record) : Except Fault Record :=
  Record.acc r m.fieldName (highTerm (scaledByte b m.scale))

/-! ## DECODE -/

/-- The two `kind` bits of a control byte (R88). -/
def kindBits : MappingKind → BitVec 2
  | .deviceIdentity => 0b00
  | .outputBits => 0b01
  | .temperature => 0b10

/-- The two `wordPosition` bits of a control byte (R88). -/
def positionBits : WordPosition → BitVec 2
  | .none => 0b00
  | .low => 0b01
  | .high => 0b10

/-- The control byte of a mapping: `rrrrwwkk` (R88). -/
def controlByte (m : ByteMapping) : Byte := (0 : BitVec 4) ++ positionBits m.wordPosition ++ kindBits m.kind

/-- One slot: the operation its control byte selects (R170, R89). -/
def unpackSlot (d : DeviceDefinition) (m : ByteMapping) (b : Byte) (r : Record) : Except Fault Record :=
  match decodeMapping (controlByte m) with
  | .ok .bmIdent => identOp d m r
  | .ok .bmOutbits => outbitsOp m b r
  | .ok .bmTemp => tempOp m b r
  | .ok .bmTempLo => tempLoOp m b r
  | .ok .bmTempHi => tempHiOp m b r
  | .ok _ => .error .controlByteReserved
  | .error _ => .error .controlByteReserved

/-- The loop of DECODE: `left` slots from slot `i` on (R170). -/
def unpackSlots (d : DeviceDefinition) (buf : Memory) : (left i : Nat) → Record → Except Fault Record
  | 0, _, r => .ok r
  | left + 1, i, r =>
    match buf.read i, d.byteMappings[i]? with
    | some b, some m =>
      match unpackSlot d m b r with
      | .ok r' => unpackSlots d buf left (i + 1) r'
      | .error f => .error f
    | none, _ => .error .bufReadOutside
    | some _, none => .error .slotMissing

/-- The result of DECODE (R170). -/
inductive DecodeResult where
  | record (r : Record)
  | unknownDevice (code : Option Byte)
  | lengthMismatch (code expected : Byte) (actual : U32)
  deriving DecidableEq, Repr

/-- DECODE (R170 to R173): pure (R183). -/
def decodeFrame (reg : Registry) (buf : Memory) (frameLen : U32) : Except Fault DecodeResult :=
  if frameLen = 0 then .ok (.unknownDevice none)
  else match buf.read 0 with
    | none => .error .bufReadOutside
    | some code => match regLookup reg code with
      | none => .ok (.unknownDevice (some code))
      | some d =>
        if frameLen.toNat ≠ d.expectedByteCount.toNat then .ok (.lengthMismatch code d.expectedByteCount frameLen)
        else match unpackSlots d buf d.expectedByteCount.toNat 0 [] with
          | .ok r => .ok (.record r)
          | .error f => .error f

/-! ## The meanings of the BM rows -/

/-- Run a mapping operation on the slot before the unpacker, when the slot's control byte selects it (R89, R170). It reads no register
(R183) and completes in a state that breaks R30 too (DESIGN CHOICE, notes/assumptions/9.md). -/
def onSlot (code : Byte) (op : Slot → Except Fault Record) (s : State) : Outcome :=
  match s.work.slot with
  | none => .fault .selectorNotFormed
  | some c =>
    if controlByte c.mapping = code then
      match op c with
      | .ok r => .next { s with work := { s.work with slot := some { c with record := r } } }
      | .error f => .fault f
    else .fault .selectorNotFormed

/-- BM.IDENT (R175). -/
def execBmIdent (s : State) : Outcome := onSlot 0x00 (fun c => identOp c.defn c.mapping c.record) s

/-- BM.OUTBITS (R176). -/
def execBmOutbits (s : State) : Outcome := onSlot 0x01 (fun c => outbitsOp c.mapping c.byte c.record) s

/-- BM.TEMP (R177). -/
def execBmTemp (s : State) : Outcome := onSlot 0x02 (fun c => tempOp c.mapping c.byte c.record) s

/-- BM.TEMP.LO (R178). -/
def execBmTempLo (s : State) : Outcome := onSlot 0x06 (fun c => tempLoOp c.mapping c.byte c.record) s

/-- BM.TEMP.HI (R179). -/
def execBmTempHi (s : State) : Outcome := onSlot 0x0A (fun c => tempHiOp c.mapping c.byte c.record) s

end Sys2Proof.Machine
end

