-- ==== Sys2Proof/Machine/Sync.lean ====
section
/-! DEFINITION. Sync detection, sub-step S2 (41_frame_assembler.md R123 to R128), and the meanings of the SYNC rows. -/

namespace Sys2Proof.Machine

/-- The event FINALIZE makes of a decode result (R127, R214 to R216). -/
def finalEvent (id : ControllerId) : DecodeResult → Event
  | .record r => .deliver id r
  | .unknownDevice code => .unknownDevice code
  | .lengthMismatch code expected actual => .lengthMismatch code expected actual

/-- FINALIZE (R127). -/
def finalize (s : State) : Except Fault State :=
  match decodeFrame s.cfg.registry s.buf s.frameLen with
  | .ok r => .ok (s.raise (finalEvent s.cfg.controllerId r))
  | .error f => .error f

/-- The register writes of a sync marker after FINALIZE (R126). -/
def markRegisters (ts : U32) (s : State) : State :=
  { s.bufClear with run := 0, synced := true, bitIndex := 0, lastBitTs := ts }

/-- SYNC_MARKER (R126). -/
def syncMarker (ts : U32) (s : State) : Except Fault State :=
  match finalize s with
  | .ok s' => .ok (markRegisters ts s')
  | .error f => .error f

/-- INVALID_PULSE of the edge in progress (R124, R212). -/
def raiseInvalid (s : State) : State := s.raise (.invalidPulse s.work.level s.work.dur s.work.ts)

/-- Run a SYNC operation in a state that forms its selector (R91). -/
def onSyncSel (sel : BitVec 4) (op : State → Except Fault State) (s : State) : Outcome :=
  accept s fun s => if syncSel s = sel then toOutcome (op s) else .fault .selectorNotFormed

/-- SYNC.INC (R123). -/
def execSyncInc (s : State) : Outcome :=
  onSyncSel (encodeSync true 0b01 false) (fun s => .ok { s with run := s.run + 1 }) s

/-- SYNC.MARK (R125, R126). -/
def execSyncMark (s : State) : Outcome :=
  onSyncSel (encodeSync true 0b01 true) (fun s => syncMarker s.work.ts s) s

/-- SYNC.CLR.RL (R123). -/
def execSyncClrRl (z : Bool) (s : State) : Outcome :=
  onSyncSel (encodeSync true 0b10 z) (fun s => .ok { s with run := 0 }) s

/-- SYNC.CLR.RI (R123, R124). -/
def execSyncClrRi (z : Bool) (s : State) : Outcome :=
  onSyncSel (encodeSync true 0b00 z) (fun s => .ok (raiseInvalid { s with run := 0 })) s

/-- SYNC.CLR.FI (R123, R124). -/
def execSyncClrFi (z : Bool) (s : State) : Outcome :=
  onSyncSel (encodeSync false 0b00 z) (fun s => .ok (raiseInvalid { s with run := 0 })) s

/-- SYNC.HOLD.FS (R123). -/
def execSyncHoldFs (z : Bool) (s : State) : Outcome :=
  onSyncSel (encodeSync false 0b01 z) (fun s => .ok s) s

/-- SYNC.HOLD.FL (R123). -/
def execSyncHoldFl (z : Bool) (s : State) : Outcome :=
  onSyncSel (encodeSync false 0b10 z) (fun s => .ok s) s

end Sys2Proof.Machine
end

