-- ==== Sys2Proof/Machine/Edge.lean ====
section
/-! DEFINITION. The two transactions: EDGE (41_frame_assembler.md R120, R121) and RESET (70_reset_and_hazards.md R240). An edge step forms the selector
words of R91 and R92 one after another, decodes each, and runs the operation it selects. -/

namespace Sys2Proof.Machine

/-- The operation a selector word selects. The three transactions are no selectors (R83). -/
def runSelected (i : Instr) (s : State) : Outcome :=
  match i with
  | .edgeRise _ _ => .fault .selectorNotFormed
  | .edgeFall _ _ => .fault .selectorNotFormed
  | .reset => .fault .selectorNotFormed
  | .pcShort => execPcShort s
  | .pcLong => execPcLong s
  | .pcInvalid => execPcInvalid s
  | .syncInc => execSyncInc s
  | .syncMark => execSyncMark s
  | .syncClrRl z => execSyncClrRl z s
  | .syncClrRi z => execSyncClrRi z s
  | .syncClrFi z => execSyncClrFi z s
  | .syncHoldFs z => execSyncHoldFs z s
  | .syncHoldFl z => execSyncHoldFl z s
  | .bitStart => execBitStart s
  | .bitStartFail => execBitStartFail s
  | .bitDataK1 level => execBitDataK1 level s
  | .bitDataK2_3 k level => execBitDataK2_3 k level s
  | .bitDataK4_7 k level => execBitDataK4_7 k level s
  | .bitDataK8 level => execBitDataK8 level s
  | .bitStop => execBitStop s
  | .bitStopFail => execBitStopFail s
  | .bmIdent => execBmIdent s
  | .bmOutbits => execBmOutbits s
  | .bmTemp => execBmTemp s
  | .bmTempLo => execBmTempLo s
  | .bmTempHi => execBmTempHi s

/-- The fault of a word that no step forms (93 items 3, 4, 5, 9). -/
def rejectFault : Reject → Fault
  | .categoryUnused => .categoryUnused
  | .syncSelUnused => .syncSelUnused
  | .bitSelUnused => .bitSelUnused
  | .controlByteReserved => .controlByteReserved
  | .noTransaction | .levelOutOfRange | .tooWide | .tooShort => .selectorNotFormed

/-- Decode a selector word and run its operation. -/
def dispatchSel (x : Sel) (s : State) : Outcome :=
  match decodeSel x with
  | .ok i => runSelected i s
  | .error r => .fault (rejectFault r)

/-- CLASSIFY of `d`, its result left in `work.classOut` (R110, R122). -/
def classifyStep (d : U32) (s : State) : Outcome :=
  dispatchSel (.category (categoryCode (classify d))) { s with work := { s.work with classIn := d } }

/-- S2: sync detection (R121, R123). -/
def syncStep (s : State) : Outcome := dispatchSel (.sync (syncSel s)) s

/-- The boundary part of S3: `LAST_BIT_TS <- ts`, then the bit dispatch (R133, R134). -/
def boundaryStep (ts : U32) (s : State) : Outcome :=
  dispatchSel (.bit (bitSel s)) { s with lastBitTs := ts }

/-- S3: bit decoding, only while synced, only at a Long bit interval (R131 to R134, R143). -/
def bitStep (ts : U32) (s : State) : Outcome :=
  if s.synced then
    andThen (classifyStep (bitInterval s ts) s) fun s =>
      if s.work.classOut = .long then boundaryStep ts s else .next s
  else .next s

/-- The edge's fields before the step's operations, with no event yet (R80, R210). -/
def beginEdge (level : Bool) (dur ts : U32) (s : State) : State :=
  { s with events := [], work := { Work.idle with level := level, dur := dur, ts := ts } }

/-- S4 (R129), and the end of the step. -/
def endEdge (ts : U32) (s : State) : State := { s with lastEdgeTs := ts, work := Work.idle }

/-- EDGE(level, dur, ts) (R120): S1, S2, S3, S4 in this order (R121). -/
def edgeStep (level : Bool) (dur ts : U32) (s : State) : Outcome :=
  accept s fun s =>
    andThen (classifyStep dur (beginEdge level dur ts s)) fun s =>
      andThen (syncStep s) fun s =>
        andThen (bitStep ts s) fun s => .next (endEdge ts s)

/-- EDGE.RISE (R83, R120). -/
def execEdgeRise (dur ts : U32) (s : State) : Outcome := edgeStep true dur ts s

/-- EDGE.FALL (R83, R120). -/
def execEdgeFall (dur ts : U32) (s : State) : Outcome := edgeStep false dur ts s

/-- RESET (R240): the first one starts operation (R244). It gives the same result in every state of the registers
(notes/assumptions/9.md); an instance that was never configured, was refused or is torn down accepts none (R243 to R245). -/
def execReset (s : State) : Outcome :=
  match s.phase with
  | .unconfigured => .refused .notConfigured
  | .refused => .refused .configurationRefused
  | .tornDown => .refused .afterTeardown
  | .configured | .running =>
    if configOk s.cfg then .next { s.resetRegisters with phase := .running, work := Work.idle }
    else .refused .configurationRefused

end Sys2Proof.Machine
end

