-- ==== Sys2Proof/Machine/Dispatch.lean ====
section
/-! DEFINITION. exec: one arm per row of spec/opcode_table.json. -/

namespace Sys2Proof.Machine

def exec (i : Instr) (s : State) : Host.Outcome State Fault Refusal :=
  match i with
  | .edgeRise dur ts => Sys2Proof.Machine.execEdgeRise dur ts s
  | .edgeFall dur ts => Sys2Proof.Machine.execEdgeFall dur ts s
  | .reset => Sys2Proof.Machine.execReset s
  | .pcShort => Sys2Proof.Machine.execPcShort s
  | .pcLong => Sys2Proof.Machine.execPcLong s
  | .pcInvalid => Sys2Proof.Machine.execPcInvalid s
  | .syncInc => Sys2Proof.Machine.execSyncInc s
  | .syncMark => Sys2Proof.Machine.execSyncMark s
  | .syncClrRl z => Sys2Proof.Machine.execSyncClrRl z s
  | .syncClrRi z => Sys2Proof.Machine.execSyncClrRi z s
  | .syncClrFi z => Sys2Proof.Machine.execSyncClrFi z s
  | .syncHoldFs z => Sys2Proof.Machine.execSyncHoldFs z s
  | .syncHoldFl z => Sys2Proof.Machine.execSyncHoldFl z s
  | .bitStart => Sys2Proof.Machine.execBitStart s
  | .bitStartFail => Sys2Proof.Machine.execBitStartFail s
  | .bitDataK1 level => Sys2Proof.Machine.execBitDataK1 level s
  | .bitDataK2_3 k level => Sys2Proof.Machine.execBitDataK2_3 k level s
  | .bitDataK4_7 k level => Sys2Proof.Machine.execBitDataK4_7 k level s
  | .bitDataK8 level => Sys2Proof.Machine.execBitDataK8 level s
  | .bitStop => Sys2Proof.Machine.execBitStop s
  | .bitStopFail => Sys2Proof.Machine.execBitStopFail s
  | .bmIdent => Sys2Proof.Machine.execBmIdent s
  | .bmOutbits => Sys2Proof.Machine.execBmOutbits s
  | .bmTemp => Sys2Proof.Machine.execBmTemp s
  | .bmTempLo => Sys2Proof.Machine.execBmTempLo s
  | .bmTempHi => Sys2Proof.Machine.execBmTempHi s

end Sys2Proof.Machine
end

