-- ==== Sys2Proof/Machine/RomImage.lean ====
section
/-! DEFINITION. The registry ROM image (30_encoding.md R86 to R90): its parser, which rejects an image that breaks a "must", and the
encoder of an image. Whether the registry read is well-formed (R184) is checked after it (70_reset_and_hazards.md R243). -/

namespace Sys2Proof.Machine

/-- Why an image is rejected (R86 to R90). -/
inductive ImageReject where
  /-- The image ends too early. -/
  | truncated
  /-- Byte 0 is not 0x01 (R86). -/
  | version
  /-- A reserved byte is not 0 (R86, R87). -/
  | reserved
  /-- `N` or `M` above 256 (R86, R90). -/
  | tooMany
  /-- `C = 0` (R87). -/
  | emptyRecord
  /-- A reserved control byte (R89). -/
  | controlByte
  /-- Two records with one `code` (R87). -/
  | sameCode
  /-- A string of length 0, or a byte outside 0x20..0x7E (R90). -/
  | name
  /-- A name index not below `M` (R90). -/
  | nameId
  deriving DecidableEq, Repr

/-- A mapping entry as the image holds it (R88), its field name an index. -/
structure RomEntry where
  kind : MappingKind
  wordPosition : WordPosition
  fieldNameId : Byte
  bitToOutputIndex : Vector Byte 8
  scale : F64
  deriving DecidableEq, Repr

/-- A device record as the image holds it (R87). -/
structure RomRecord where
  code : Byte
  expectedByteCount : Byte
  typeNameId : Byte
  entries : List RomEntry
  deriving DecidableEq, Repr

/-- Cut `n` bytes off the front. -/
def cut (n : Nat) (bs : List Byte) : Except ImageReject (List Byte × List Byte) :=
  if bs.length < n then .error .truncated else .ok (bs.take n, bs.drop n)

/-- Byte `i` of a list long enough. -/
def byteAt (bs : List Byte) (i : Nat) : Byte := bs.getD i 0

/-- The kind and the word position a control byte stands for (R88, R89). -/
def controlFields (b : Byte) : Option (MappingKind × WordPosition) :=
  match decodeMapping b with
  | .ok .bmIdent => some (.deviceIdentity, .none)
  | .ok .bmOutbits => some (.outputBits, .none)
  | .ok .bmTemp => some (.temperature, .none)
  | .ok .bmTempLo => some (.temperature, .low)
  | .ok .bmTempHi => some (.temperature, .high)
  | .ok _ => none
  | .error _ => none

/-- One mapping entry, 18 bytes (R88). -/
def parseEntry (bs : List Byte) : Except ImageReject (RomEntry × List Byte) :=
  match cut 18 bs with
  | .error e => .error e
  | .ok (b, rest) =>
    match controlFields (byteAt b 0) with
    | none => .error .controlByte
    | some (kind, pos) =>
      .ok ({ kind := kind
             wordPosition := pos
             fieldNameId := byteAt b 1
             bitToOutputIndex := Vector.ofFn fun i => byteAt b (2 + i.val)
             scale := BitVec.ofNat 64 (natOfBytes ((b.drop 10).take 8)) }, rest)

/-- `count` mapping entries (R87). -/
def parseEntries : (count : Nat) → List Byte → Except ImageReject (List RomEntry × List Byte)
  | 0, bs => .ok ([], bs)
  | count + 1, bs =>
    match parseEntry bs with
    | .error e => .error e
    | .ok (m, rest) =>
      match parseEntries count rest with
      | .error e => .error e
      | .ok (ms, rest') => .ok (m :: ms, rest')

/-- One device record, `4 + 18×C` bytes (R87). -/
def parseRecord (bs : List Byte) : Except ImageReject (RomRecord × List Byte) :=
  match cut 4 bs with
  | .error e => .error e
  | .ok (b, rest) =>
    if byteAt b 1 = 0 then .error .emptyRecord
    else if byteAt b 3 ≠ 0 then .error .reserved
    else match parseEntries (byteAt b 1).toNat rest with
      | .error e => .error e
      | .ok (ms, rest') =>
        .ok ({ code := byteAt b 0, expectedByteCount := byteAt b 1, typeNameId := byteAt b 2, entries := ms }, rest')

/-- `count` device records (R86). -/
def parseRecords : (count : Nat) → List Byte → Except ImageReject (List RomRecord × List Byte)
  | 0, bs => .ok ([], bs)
  | count + 1, bs =>
    match parseRecord bs with
    | .error e => .error e
    | .ok (r, rest) =>
      match parseRecords count rest with
      | .error e => .error e
      | .ok (rs, rest') => .ok (r :: rs, rest')

/-- `count` strings of the name table (R90). -/
def parseNames : (count : Nat) → List Byte → Except ImageReject (List Name × List Byte)
  | 0, bs => .ok ([], bs)
  | _ + 1, [] => .error .truncated
  | count + 1, len :: bs =>
    match cut len.toNat bs with
    | .error e => .error e
    | .ok (s, rest) =>
      if nameOk s then
        match parseNames count rest with
        | .error e => .error e
        | .ok (ss, rest') => .ok (s :: ss, rest')
      else .error .name

/-- The abstract mapping of an entry, its name found in the table (R35, R90). -/
def resolveEntry (names : List Name) (m : RomEntry) : Except ImageReject ByteMapping :=
  match names[m.fieldNameId.toNat]? with
  | none => .error .nameId
  | some s =>
    .ok { fieldName := s, kind := m.kind, wordPosition := m.wordPosition
          bitToOutputIndex := m.bitToOutputIndex, scale := m.scale }

/-- The abstract mappings of a record's entries, in slot order. -/
def resolveEntries (names : List Name) : List RomEntry → Except ImageReject (List ByteMapping)
  | [] => .ok []
  | m :: ms =>
    match resolveEntry names m with
    | .error e => .error e
    | .ok b =>
      match resolveEntries names ms with
      | .error e => .error e
      | .ok bs => .ok (b :: bs)

/-- The definition of a device record (R34). -/
def resolveRecord (names : List Name) (r : RomRecord) : Except ImageReject DeviceDefinition :=
  match names[r.typeNameId.toNat]? with
  | none => .error .nameId
  | some s =>
    match resolveEntries names r.entries with
    | .error e => .error e
    | .ok ms =>
      .ok { code := r.code, deviceTypeName := s, expectedByteCount := r.expectedByteCount, byteMappings := ms }

/-- The registry of the device records, keyed by their codes. -/
def resolveRecords (names : List Name) : List RomRecord → Except ImageReject Registry
  | [] => .ok []
  | r :: rs =>
    match resolveRecord names r with
    | .error e => .error e
    | .ok d =>
      match resolveRecords names rs with
      | .error e => .error e
      | .ok reg => .ok ((d.code, d) :: reg)

/-- The name table (R90). -/
def parseNameTable (bs : List Byte) : Except ImageReject (List Name × List Byte) :=
  match cut 2 bs with
  | .error e => .error e
  | .ok (m, rest) => if 256 < natOfBytes m then .error .tooMany else parseNames (natOfBytes m) rest

/-- The whole image, read from offset 0 (R86): the registry and the name table. Bytes after the name table are not read
(notes/assumptions/16.md). -/
def parseImage (bs : List Byte) : Except ImageReject (Registry × List Name) :=
  match cut 4 bs with
  | .error e => .error e
  | .ok (h, rest) =>
    if byteAt h 0 ≠ 1 then .error .version
    else if byteAt h 1 ≠ 0 then .error .reserved
    else if 256 < natOfBytes (h.drop 2) then .error .tooMany
    else match parseRecords (natOfBytes (h.drop 2)) rest with
      | .error e => .error e
      | .ok (rs, rest') =>
        if (rs.map RomRecord.code).Nodup then
          match parseNameTable rest' with
          | .error e => .error e
          | .ok (names, _) =>
            match resolveRecords names rs with
            | .error e => .error e
            | .ok reg => .ok (reg, names)
        else .error .sameCode

/-- The control byte of an entry (R88). -/
def entryControl (m : RomEntry) : Byte := (0 : BitVec 4) ++ positionBits m.wordPosition ++ kindBits m.kind

/-- The 18 bytes of an entry (R88), the scale least significant byte first. -/
def encodeEntry (m : RomEntry) : List Byte :=
  [entryControl m, m.fieldNameId] ++ m.bitToOutputIndex.toList
    ++ [m.scale.extractLsb' 0 8, m.scale.extractLsb' 8 8, m.scale.extractLsb' 16 8, m.scale.extractLsb' 24 8,
        m.scale.extractLsb' 32 8, m.scale.extractLsb' 40 8, m.scale.extractLsb' 48 8, m.scale.extractLsb' 56 8]

/-- A number below 2^16 as two bytes, least significant first (R86, R90). -/
def twoBytes (n : Nat) : List Byte := [BitVec.ofNat 8 n, BitVec.ofNat 8 (n / 256)]

/-- The `4 + 18×C` bytes of a device record (R87). -/
def encodeRecord (r : RomRecord) : List Byte :=
  [r.code, r.expectedByteCount, r.typeNameId, 0] ++ r.entries.flatMap encodeEntry

/-- A string of the name table: its length and its bytes (R90). -/
def encodeName (s : Name) : List Byte := BitVec.ofNat 8 s.length :: s

/-- The image of device records and a name table (R86). -/
def encodeImage (records : List RomRecord) (names : List Name) : List Byte :=
  [1, 0] ++ twoBytes records.length ++ records.flatMap encodeRecord ++ twoBytes names.length ++ names.flatMap encodeName

end Sys2Proof.Machine
end

