-- ==== Sys2Proof/Machine/Lifecycle.lean ====
section
/-! DEFINITION. The lifecycle of an instance: configuration load and check, and teardown (70_reset_and_hazards.md R243 to R245). -/

namespace Sys2Proof.Machine

/-- An instance before its configuration load (R244); RESET will write its registers (notes/assumptions/10.md). The spec defines no configuration for
it; this model keeps the default one in `cfg`, which no rule reads before the load (DESIGN CHOICE, notes/assumptions/6.md). -/
def unconfiguredState : State := { State.reset with phase := .unconfigured }

/-- The load's result: the instance starts with a configuration that passes the checks, and otherwise not at all; it produces
no event (R243). The registers are those of a new instance (notes/assumptions/10.md). No state is defined for a refused instance (R243):
this model leaves in `cfg` what stood there before the load (DESIGN CHOICE, notes/assumptions/6.md). -/
def startWith (c : Option Config) (s : State) : Outcome :=
  match s.phase with
  | .unconfigured =>
    match c with
    | none => .next { s.resetRegisters with phase := .refused }
    | some c =>
      if configOk c then .next { s.resetRegisters with cfg := c, phase := .configured }
      else .next { s.resetRegisters with phase := .refused }
  | .refused => .refused .configurationRefused
  | .configured => .refused .configurationChange
  | .running => .refused .configurationChange
  | .tornDown => .refused .afterTeardown

/-- The configuration of a ROM image (R86). -/
def imageConfig (image : List Byte) (id : ControllerId) (bufCap : Nat) : Option Config :=
  match parseImage image with
  | .ok (reg, _) => some { registry := reg, controllerId := id, bufCap := bufCap }
  | .error _ => none

/-- Teardown: every register is discarded, no FINALIZE runs and no event is raised (R245). R244 does not say whether an instance may be
torn down before its first RESET; this model allows it (DESIGN CHOICE, notes/assumptions/10.md). It reads no register and completes in a state that
breaks R30 too (DESIGN CHOICE, notes/assumptions/9.md). -/
def teardown (s : State) : Outcome :=
  match s.phase with
  | .unconfigured => .refused .notConfigured
  | .refused => .refused .configurationRefused
  | .tornDown => .refused .afterTeardown
  | .configured | .running => .next { s.resetRegisters with phase := .tornDown, work := Work.idle }

end Sys2Proof.Machine
end

