-- ==== Sys2Proof/Machine/Fetch.lean ====
section
/-! DEFINITION. Taking the next transaction: this hardware fetches no program (20_memory.md R64, R68); its partners hand it transactions
one at a time (70_reset_and_hazards.md R254). Also where the host's probe of a table row stands. -/

namespace Sys2Proof.Machine

/-- What the next transaction comes to: an instruction to execute on a state, or an outcome with no instruction. -/
inductive Fetched where
  | run (i : Instr) (s : State)
  | done (o : Outcome)

/-- The oldest transaction taken off the inbox; the new step has raised nothing yet (R14, R210). -/
def taken (s : State) (rest : List Input) : State := { s with inbox := rest, events := [] }

/-- The instruction of a decoded word, or what a rejected word comes to. -/
def fetchedOr (d : Except Reject Instr) (s : State) (otherwise : Reject → Outcome) : Fetched :=
  match d with
  | .ok i => .run i s
  | .error r => .done (otherwise r)

/-- A transaction (R254). A `CTL` word of 0 is no transaction: it is taken and does nothing (R84). -/
def fetchInput (x : Input) (s : State) : Fetched :=
  match x with
  | .ev w => .run (decodeEv w) s
  | .ctl w => fetchedOr (decodeCtl w) s fun _ => .next s
  | .configure c => .done (startWith (some c) s)
  | .loadImage image id bufCap => .done (startWith (imageConfig image id bufCap) s)
  | .teardown => .done (teardown s)

/-- The next thing to do: the selector word placed alone, if there is one (notes/assumptions/1.md); else the oldest transaction;
else nothing, and the core rests with no event (R225, R229; notes/assumptions/2.md). An idle step, and one that takes a `CTL` word of 0, reads no
register and completes in a state that breaks R30 too (DESIGN CHOICE, notes/assumptions/9.md). -/
def fetch (s : State) : Fetched :=
  match s.sub with
  | some x => fetchedOr (decodeSel x) { s with sub := none, events := [] } fun r => .fault (rejectFault r)
  | none =>
    match s.inbox with
    | [] => .done (.next { s with events := [] })
    | x :: rest => fetchInput x (taken s rest)

/-! ## The host's probe of a table row (notes/assumptions/8.md) -/

/-- A duration of the category a code names. -/
def sampleDuration (w : BitVec 2) : U32 :=
  if w = 0b01 then 10000 else if w = 0b10 then 20000 else 0

/-- The category a code names. -/
def codeCategory (w : BitVec 2) : PulseCategory :=
  if w = 0b01 then .short else if w = 0b10 then .long else .invalid

/-- A slot whose mapping has this control byte and zeros in its other bytes. -/
def sampleSlot (w : Byte) : Slot :=
  { defn := { code := 0, deviceTypeName := ascii "d", expectedByteCount := 1, byteMappings := [] }
    mapping :=
      { fieldName := ascii "f"
        kind := if w.extractLsb' 0 2 = 0b00 then .deviceIdentity else if w.extractLsb' 0 2 = 0b01 then .outputBits else .temperature
        wordPosition := if w.extractLsb' 2 2 = 0b00 then .none else if w.extractLsb' 2 2 = 0b01 then .low else .high
        bitToOutputIndex := noOutputs
        scale := 0 }
    byte := 0
    record := [] }

/-- The state with what forms this selector word in place. -/
def formSelector (x : Sel) (s : State) : State :=
  match x with
  | .category w => { s with work := { s.work with classIn := sampleDuration w } }
  | .sync w =>
    { s with
      run := if w.getLsbD 0 then fullRun else if s.run = fullRun then 0 else s.run
      work := { s.work with level := w.getLsbD 3, classOut := codeCategory (w.extractLsb' 1 2) } }
  | .bit w =>
    { s with
      synced := true
      bitIndex := (w.extractLsb' 1 4).setWidth 8
      buf := if w.extractLsb' 1 4 = 0 then s.buf else [(0, 0)]
      frameLen := if w.extractLsb' 1 4 = 0 then s.frameLen else 1
      work := { s.work with level := w.getLsbD 0, classOut := .long } }
  | .mapping w => { s with work := { s.work with slot := some (sampleSlot w) } }

/-- The state in which this word is the next thing to do. -/
def placeWord (x : Word) (s : State) : State :=
  match x with
  | .ev w => { s with inbox := .ev w :: s.inbox, sub := none }
  | .ctl w => { s with inbox := .ctl w :: s.inbox, sub := none }
  | .sel x => formSelector x { s with sub := some x }

/-- The state in which the word of the probe `(nbits, w)` is the next thing to do; a word no format decodes changes nothing. -/
def placeTableWord (s : State) (nbits w : Nat) : State :=
  match tableWord nbits w with
  | some x => placeWord x s
  | none => s

end Sys2Proof.Machine
end

