-- ==== Sys2Proof/Machine/Step.lean ====
section
/-! DEFINITION. One step: the complete processing of one transaction (00_scope.md R14), and the host's way to place a table row's word. -/

namespace Sys2Proof.Machine

/-- One step (R14, R62). -/
def step (s : State) : Host.Outcome State Fault Refusal :=
  match fetch s with
  | .run i s' => exec i s'
  | .done o => o

/-- `s` with the word of a table row as the next thing to do (notes/assumptions/8.md). -/
def State.withFetchWord (s : State) (nbits w : Nat) : State := placeTableWord s nbits w

end Sys2Proof.Machine
end

