-- ==== Sys2Proof/Machine/Channels.lean ====
section
/-! DEFINITION. The bit-level output channels: `LOG` beats (30_encoding.md R95, 60_exceptions.md R211) and `REC` beats (R94). The abstract events
of State.events govern (D30); these are their realisation. -/

namespace Sys2Proof.Machine

/-- One `LOG` beat (R95). -/
structure LogBeat where
  code : BitVec 4
  severity : BitVec 1
  payload : List U32
  deriving DecidableEq, Repr

/-- A bit as a payload field. -/
def bitField (b : Bool) : U32 := if b then 1 else 0

/-- `which` of SYNC_LOSS: 0 = start, 1 = stop (R211). -/
def whichField : FramingBit → U32
  | .start => 0
  | .stop => 1

/-- `has_code` and `code` of UNKNOWN_DEVICE (R211). -/
def codeFields : Option Byte → List U32
  | none => [0, 0]
  | some code => [1, code.setWidth 32]

/-- The beat of an error event; `Deliver` is no error and has none (R211). -/
def logBeat : Event → Option LogBeat
  | .deliver _ _ => none
  | .invalidPulse level dur ts => some { code := 0x1, severity := 0, payload := [bitField level, dur, ts] }
  | .syncLoss which ts => some { code := 0x2, severity := 1, payload := [whichField which, ts] }
  | .unknownDevice code => some { code := 0x3, severity := 1, payload := codeFields code }
  | .lengthMismatch code expected actual =>
    some { code := 0x4, severity := 1, payload := [code.setWidth 32, expected.setWidth 32, actual] }

/-- One `REC` beat (R94). `controllerId` goes with the first beat. -/
structure RecBeat where
  controllerId : Option ControllerId
  keyNameId : Byte
  keySuffix : Byte
  tag : BitVec 2
  payload : BitVec 64
  last : Bool
  deriving DecidableEq, Repr

/-- The keys of a slot with their name and suffix, 0 for none (R94, R175 to R179). -/
def slotKeyParts (m : ByteMapping) : List (Name × Name × Byte) :=
  match m.kind with
  | .deviceIdentity => [(m.fieldName, m.fieldName, 0)]
  | .temperature => [(m.fieldName, m.fieldName, 0)]
  | .outputBits => (usedOutputs m).map fun o => (outputKey m.fieldName o, m.fieldName, o)

/-- The name and suffix of a record's key, from the definition that made the record (notes/assumptions/17.md). -/
def keyParts (d : DeviceDefinition) (key : Name) : Option (Name × Byte) :=
  List.lookup key (d.byteMappings.flatMap slotKeyParts)

/-- The index of a string in the name table (R90). -/
def nameIndex (names : List Name) (s : Name) : Option Byte :=
  match names.findIdx? fun t => t == s with
  | some i => if i < 256 then some (BitVec.ofNat 8 i) else none
  | none => none

/-- The tag and payload of a value (R94): unused bits are 0. -/
def valueBeat (names : List Name) : Value → Option (BitVec 2 × BitVec 64)
  | .str s => (nameIndex names s).map fun i => (0b00, i.setWidth 64)
  | .num x => some (0b01, x)
  | .bool b => some (0b10, if b then 1 else 0)

/-- The beats of the pairs of a record, in record order; `first` rides on the first. -/
def recBeatsFrom (names : List Name) (d : DeviceDefinition) (first : Option ControllerId) : Record → Option (List RecBeat)
  | [] => some []
  | (key, v) :: rest =>
    match keyParts d key, valueBeat names v, recBeatsFrom names d none rest with
    | some (name, suffix), some (tag, payload), some beats =>
      (nameIndex names name).map fun i =>
        { controllerId := first, keyNameId := i, keySuffix := suffix, tag := tag, payload := payload, last := rest.isEmpty } :: beats
    | _, _, _ => none

/-- The beats of `Deliver(id, record)` for a record of definition `d` (R94); none if a string is not in the name table. -/
def recBeats (names : List Name) (d : DeviceDefinition) (id : ControllerId) (r : Record) : Option (List RecBeat) :=
  recBeatsFrom names d (some id) r

end Sys2Proof.Machine
end

