-- ==== Sys2Proof/Machine/TraceSyntax.lean ====
section
/-! DEFINITION. The written forms: traces (30_encoding.md R96), the pseudo-instructions (R97), registry entries (R98). Texts are bytes of
ASCII. What the spec leaves open of the spelling is in notes/assumptions/18.md. -/

namespace Sys2Proof.Machine

/-- A token of a line. -/
inductive Token where
  | word (s : Name)
  | quoted (s : Name)
  | comma
  | parenOpen
  | parenClose
  deriving DecidableEq, Repr

/-- Why a text is rejected. -/
inductive SyntaxReject where
  /-- A quotation mark without its partner. -/
  | quote
  /-- A line of no known form. -/
  | line
  /-- A field out of its range. -/
  | range
  /-- A trace that does not begin with RESET (R96). -/
  | firstReset
  /-- A DEVICE with fewer lines than its count (R98). -/
  | count
  deriving DecidableEq, Repr

/-- A word in progress, before the tokens after it. -/
def flushWord (acc : Name) (ts : List Token) : List Token :=
  match acc with
  | [] => ts
  | c :: cs => .word (c :: cs).reverse :: ts

/-- The tokens of one line; `;` outside quotation marks begins a comment (R96). -/
def lexLine : (quoted : Bool) → (acc : Name) → List Byte → Option (List Token)
  | true, _, [] => none
  | false, acc, [] => some (flushWord acc [])
  | true, acc, c :: cs =>
    if c = 0x22 then (lexLine false [] cs).map fun ts => .quoted acc.reverse :: ts else lexLine true (c :: acc) cs
  | false, acc, c :: cs =>
    if c = 0x3B then some (flushWord acc [])
    else if c = 0x22 then (lexLine true [] cs).map (flushWord acc)
    else if c = 0x20 ∨ c = 0x09 ∨ c = 0x0D then (lexLine false [] cs).map (flushWord acc)
    else if c = 0x2C then (lexLine false [] cs).map fun ts => flushWord acc (.comma :: ts)
    else if c = 0x28 then (lexLine false [] cs).map fun ts => flushWord acc (.parenOpen :: ts)
    else if c = 0x29 then (lexLine false [] cs).map fun ts => flushWord acc (.parenClose :: ts)
    else lexLine false (c :: acc) cs

/-- The lines of a text, split at byte 0x0A. -/
def splitLines : List Byte → List (List Byte)
  | [] => [[]]
  | c :: cs =>
    match splitLines cs with
    | [] => [[c]]
    | l :: ls => if c = 0x0A then [] :: l :: ls else (c :: l) :: ls

/-- A decimal digit's value. -/
def digitValue (c : Byte) : Option Nat := if 0x30 ≤ c ∧ c ≤ 0x39 then some (c.toNat - 0x30) else none

/-- A hexadecimal digit's value, capital or small. -/
def hexValue (c : Byte) : Option Nat :=
  if 0x30 ≤ c ∧ c ≤ 0x39 then some (c.toNat - 0x30)
  else if 0x41 ≤ c ∧ c ≤ 0x46 then some (c.toNat - 0x37)
  else if 0x61 ≤ c ∧ c ≤ 0x66 then some (c.toNat - 0x57)
  else none

/-- Digits read on from the value so far. -/
def digitsFrom (base : Nat) (value : Byte → Option Nat) : (sofar : Nat) → List Byte → Option Nat
  | n, [] => some n
  | n, c :: cs =>
    match value c with
    | some d => digitsFrom base value (n * base + d) cs
    | none => none

/-- A number: decimal, or hexadecimal after `0x` (R96). -/
def parseNumber : List Byte → Option Nat
  | [] => none
  | [c] => digitsFrom 10 digitValue 0 [c]
  | c :: x :: cs =>
    if c = 0x30 ∧ x = 0x78 then (if cs = [] then none else digitsFrom 16 hexValue 0 cs)
    else digitsFrom 10 digitValue 0 (c :: x :: cs)

/-! ## Traces -/

/-- A line of a trace, pseudo-instructions among them (R96, R97). -/
inductive TraceLine where
  | edge (level dur ts : Nat)
  | reset
  | rise (dur ts : Nat)
  | fall (dur ts : Nat)
  | cells (t0 d0 : Nat) (cells : List Bool)
  deriving DecidableEq, Repr

/-- The cells of a quoted list: 0 or 1, apart by spaces (R97). -/
def parseCells : List Byte → Option (List Bool)
  | [] => some []
  | [c] => if c = 0x30 then some [false] else if c = 0x31 then some [true] else if c = 0x20 then some [] else none
  | c :: c' :: cs =>
    if c = 0x20 then parseCells (c' :: cs)
    else if c' = 0x20 then
      if c = 0x30 then (parseCells cs).map (false :: ·)
      else if c = 0x31 then (parseCells cs).map (true :: ·)
      else none
    else none

/-- One line; none for a blank or comment line. -/
def parseTraceLine (ts : List Token) : Except SyntaxReject (Option TraceLine) :=
  match ts with
  | [] => .ok none
  | [.word op] => if op = ascii "RESET" then .ok (some .reset) else .error .line
  | [.word op, .word a, .comma, .word b] =>
    match parseNumber a, parseNumber b with
    | some a, some b =>
      if op = ascii "RISE" then .ok (some (.rise a b))
      else if op = ascii "FALL" then .ok (some (.fall a b))
      else .error .line
    | _, _ => .error .line
  | [.word op, .word a, .comma, .word b, .comma, .word c] =>
    match parseNumber a, parseNumber b, parseNumber c with
    | some a, some b, some c => if op = ascii "EDGE" then .ok (some (.edge a b c)) else .error .line
    | _, _, _ => .error .line
  | [.word op, .word a, .comma, .word b, .comma, .quoted q] =>
    match parseNumber a, parseNumber b, parseCells q with
    | some a, some b, some cs =>
      if op = ascii "CELLS" ∧ cs ≠ [] then .ok (some (.cells a b cs)) else .error .line
    | _, _, _ => .error .line
  | _ => .error .line

/-- The edges of cells as levels and times, from the cell at time `t` on; `prev` is the cell before (R97). -/
def cellEdges : (prev : Option Bool) → (t : U32) → List Bool → List (Bool × U32)
  | _, _, [] => []
  | prev, t, c :: cs =>
    (if prev = some c then [(!c, t)] else []) ++ (c, t + 10000) :: cellEdges (some c) (t + 20000) cs

/-- An edge event of a level, as an instruction (R83). -/
def edgeInstr (level : Bool) (dur ts : U32) : Instr := if level then .edgeRise dur ts else .edgeFall dur ts

/-- Each later edge's duration is its time minus that of the edge before it, modulo 2^32 (R97). -/
def withDurations : (before : U32) → List (Bool × U32) → List Instr
  | _, [] => []
  | before, (level, t) :: es => edgeInstr level (t - before) t :: withDurations t es

/-- The expansion of `CELLS t0, d0, "..."` (R97). -/
def expandCells (t0 d0 : U32) (cs : List Bool) : List Instr :=
  match cellEdges none t0 cs with
  | [] => []
  | (level, t) :: es => edgeInstr level d0 t :: withDurations t es

/-- One edge, its fields in range (R84, R96). -/
def oneEdge (level dur ts : Nat) : Except SyntaxReject (List Instr) :=
  match edgeOfFields level dur ts with
  | .ok i => .ok [i]
  | .error _ => .error .range

/-- The transactions of a line (R96, R97). R96 bounds `<dur>` and `<ts>` and R97 takes the times of CELLS modulo 2^32: a `<t0>` of any
size is taken modulo 2^32, a `<d0>` is bounded as the `<dur>` it becomes (DEDUCED, notes/assumptions/18.md). -/
def expandLine : TraceLine → Except SyntaxReject (List Instr)
  | .edge level dur ts => oneEdge level dur ts
  | .reset => .ok [.reset]
  | .rise dur ts => oneEdge 1 dur ts
  | .fall dur ts => oneEdge 0 dur ts
  | .cells t0 d0 cs =>
    if d0 < 2 ^ 32 then .ok (expandCells (BitVec.ofNat 32 t0) (BitVec.ofNat 32 d0) cs) else .error .range

/-- The transactions of one line's text. -/
def assembleLine (line : List Byte) : Except SyntaxReject (List Instr) :=
  match lexLine false [] line with
  | none => .error .quote
  | some ts =>
    match parseTraceLine ts with
    | .error e => .error e
    | .ok none => .ok []
    | .ok (some l) => expandLine l

/-- The transactions of lines, in order. -/
def assembleLines : List (List Byte) → Except SyntaxReject (List Instr)
  | [] => .ok []
  | l :: ls =>
    match assembleLine l with
    | .error e => .error e
    | .ok is =>
      match assembleLines ls with
      | .error e => .error e
      | .ok js => .ok (is ++ js)

/-- A whole trace: its first transaction is RESET (R96). -/
def assembleTrace (text : List Byte) : Except SyntaxReject (List Instr) :=
  match assembleLines (splitLines text) with
  | .error e => .error e
  | .ok (.reset :: is) => .ok (.reset :: is)
  | .ok _ => .error .firstReset

/-- The input that carries a transaction; selector rows are none (R83, R85). -/
def inputOf (i : Instr) : Option Input :=
  match encode i with
  | .ev w => some (.ev w)
  | .ctl w => some (.ctl w)
  | .sel _ => none

/-! ## Registry entries -/

/-- The part of a decimal literal after its sign: digits, then a point and digits, or not. -/
def decimalParts : (whole : List Byte) → List Byte → List Byte × List Byte
  | whole, [] => (whole.reverse, [])
  | whole, c :: cs => if c = 0x2E then (whole.reverse, cs) else decimalParts (c :: whole) cs

/-- An unsigned decimal literal: its digits as a number, and how many follow the point. -/
def parseDecimal (s : List Byte) : Option (Nat × Nat) :=
  let (whole, frac) := decimalParts [] s
  if whole = [] ∨ (frac = [] ∧ whole.length ≠ s.length) then none
  else (digitsFrom 10 digitValue 0 (whole ++ frac)).map fun n => (n, frac.length)

/-- A scale literal, read as the nearest binary64 (R98). -/
def parseScale (s : List Byte) : Option F64 :=
  match s with
  | [] => none
  | c :: cs =>
    if c = 0x2D then (parseDecimal cs).map fun p => fOfDecimal true p.1 p.2
    else (parseDecimal (c :: cs)).map fun p => fOfDecimal false p.1 p.2

/-- A u8 of a registry text: `<code>`, `<expectedByteCount>` or an output of OUTBITS. They are u8 fields (R34, R35), so a
value above 255 is refused. R98 does not say how they are spelled; this model reads them as R96 reads the numbers of a trace, decimal or
hexadecimal after `0x` (DESIGN CHOICE, notes/assumptions/18.md). -/
def parseByte (s : List Byte) : Option Byte :=
  match parseNumber s with
  | some n => if n < 256 then some (BitVec.ofNat 8 n) else none
  | none => none

/-- The tuple of OUTBITS, `o0` first (R98). -/
def parseOutputs : List Token → Option (Vector Byte 8)
  | [.parenOpen, .word a, .comma, .word b, .comma, .word c, .comma, .word d, .comma, .word e, .comma, .word f, .comma, .word g,
      .comma, .word h, .parenClose] =>
    match parseByte a, parseByte b, parseByte c, parseByte d, parseByte e, parseByte f, parseByte g, parseByte h with
    | some a, some b, some c, some d, some e, some f, some g, some h => some #v[a, b, c, d, e, f, g, h]
    | _, _, _, _, _, _, _, _ => none
  | _ => none

/-- A slot's line (R98). -/
def parseSlotLine : List Token → Option ByteMapping
  | [.word op, .quoted name] => if op = ascii "IDENT" then some (identSlot name) else none
  | [.word op, .quoted name, .word scale] =>
    match parseScale scale with
    | some x =>
      if op = ascii "TEMP" then some (tempSlot .none name x)
      else if op = ascii "TEMP.LO" then some (tempSlot .low name x)
      else if op = ascii "TEMP.HI" then some (tempSlot .high name x)
      else none
    | none => none
  | .word op :: .quoted name :: rest =>
    if op = ascii "OUTBITS" then (parseOutputs rest).map (outbitsSlot name) else none
  | _ => none

/-- `count` slot lines (R98). -/
def parseSlotLines : (count : Nat) → List (List Token) → Except SyntaxReject (List ByteMapping × List (List Token))
  | 0, ls => .ok ([], ls)
  | _ + 1, [] => .error .count
  | count + 1, l :: ls =>
    match parseSlotLine l with
    | none => .error .line
    | some m =>
      match parseSlotLines count ls with
      | .error e => .error e
      | .ok (ms, rest) => .ok (m :: ms, rest)

/-- A DEVICE line and its slot lines (R98). -/
def parseDevice (l : List Token) (ls : List (List Token)) : Except SyntaxReject (DeviceDefinition × List (List Token)) :=
  match l with
  | [.word op, .word code, .quoted name, .word count] =>
    match parseByte code, parseByte count with
    | some code, some count =>
      if op = ascii "DEVICE" then
        match parseSlotLines count.toNat ls with
        | .error e => .error e
        | .ok (ms, rest) =>
          .ok ({ code := code, deviceTypeName := name, expectedByteCount := count, byteMappings := ms }, rest)
      else .error .line
    | _, _ => .error .range
  | _ => .error .line

/-- The devices of the lines; `fuel` is at least their number. -/
def parseDevices : (fuel : Nat) → List (List Token) → Except SyntaxReject Registry
  | _, [] => .ok []
  | 0, _ :: _ => .error .count
  | fuel + 1, l :: ls =>
    match parseDevice l ls with
    | .error e => .error e
    | .ok (d, rest) =>
      match parseDevices fuel rest with
      | .error e => .error e
      | .ok reg => .ok ((d.code, d) :: reg)

/-- The tokens of the lines that hold any. -/
def tokenLines : List (List Byte) → Except SyntaxReject (List (List Token))
  | [] => .ok []
  | l :: ls =>
    match lexLine false [] l with
    | none => .error .quote
    | some ts =>
      match tokenLines ls with
      | .error e => .error e
      | .ok rest => .ok (if ts = [] then rest else ts :: rest)

/-- A registry text (R98). -/
def parseRegistry (text : List Byte) : Except SyntaxReject Registry :=
  match tokenLines (splitLines text) with
  | .error e => .error e
  | .ok ls => parseDevices ls.length ls

end Sys2Proof.Machine
end

