-- ==== Sys2Proof/Machine/Run.lean ====
section
/-! DEFINITION. Runs (70_reset_and_hazards.md R244, R246, R247): a finite trace of transactions handed to an instance one at a time, its end
state, and the events of its steps one list after another. -/

namespace Sys2Proof.Machine

/-- What a run comes to: the state after its last step and every step's events in step order (R247), or the stop of one of its steps. -/
inductive RunEnd where
  | ended (s : State) (events : List Event)
  | fault (f : Fault)
  | refused (r : Refusal)
  deriving DecidableEq, Repr

/-- A partner hands over one transaction (R254). -/
def handOver (x : Input) (s : State) : State := { s with inbox := s.inbox ++ [x] }

/-- Hand over each transaction and complete a step before the next one (R62, R65); `es` are the events of the steps before (R247). -/
def runFrom : List Input → State → List Event → RunEnd
  | [], s, es => .ended s es
  | x :: xs, s, es =>
    match step (handOver x s) with
    | .next t => runFrom xs t (es ++ t.events)
    | .fault f => .fault f
    | .refused r => .refused r

/-- The inputs that carry a trace; none if one of its instructions is no transaction (R83, R96). -/
def traceInputs : List Instr → Option (List Input)
  | [] => some []
  | i :: is =>
    match inputOf i, traceInputs is with
    | some x, some xs => some (x :: xs)
    | none, _ => none
    | some _, none => none

/-- An instance whose configuration load is done and whose first RESET is still to come (R244 phase 1). -/
def configuredState (c : Config) : State := { unconfiguredState with cfg := c, phase := .configured }

/-- The launch state: that of RESET under the configuration `c`, nothing in flight (R246). -/
def launchState (c : Config) : State := { State.reset with cfg := c }

/-- The run of a trace under a configuration: it starts with RESET (R244, R247); another trace is no run. -/
def runTrace (c : Config) (trace : List Instr) : Option RunEnd :=
  match trace with
  | .reset :: rest => (traceInputs (.reset :: rest)).map fun xs => runFrom xs (configuredState c) []
  | _ => none

/-- The run of a trace's text (R96, R247). -/
def runText (c : Config) (text : List Byte) : Except SyntaxReject (Option RunEnd) :=
  match assembleTrace text with
  | .ok trace => .ok (runTrace c trace)
  | .error e => .error e

end Sys2Proof.Machine
end

