-- ==== Sys2Proof/Safety.lean ====
section
/-! DEFINITION. The terms the statements use: the invariants of 10_state.md R30, the states in which the core takes an edge, what a run keeps,
well-formedness in the words of 42_record_unpacker.md R184 and 30_encoding.md R86 to R90, and the pseudocode of 41_frame_assembler.md R120 written out, without selector words. -/

namespace Sys2Proof.Machine

/-! ## Invariants -/

/-- R30 (a) to (f), and that `BUF`'s cells are a sequence (R51). -/
abbrev RegInv (s : State) : Prop :=
  s.run.toNat ≤ 15
    ∧ (s.synced = false → s.bitIndex = 0)
    ∧ s.bitIndex.toNat ≤ 9
    ∧ (s.bitIndex ≠ 0 → s.synced = true ∧ s.frameLen ≠ 0)
    ∧ (s.bitIndex ≠ 0 → s.frameLen.toNat ≤ s.cfg.bufCap → partialRest s = 0)
    ∧ s.buf.wf = true
    ∧ s.buf.length = min s.frameLen.toNat s.cfg.bufCap

/-- A running instance (R244) with a checked configuration (R243) that keeps R30: it takes any transaction. -/
abbrev Ready (s : State) : Prop :=
  s.phase = .running ∧ configOk s.cfg = true ∧ RegInv s

/-- No step is in progress and no selector word waits alone: how the core stands between steps (R14). -/
abbrev Quiescent (s : State) : Prop :=
  s.sub = none ∧ s.work = Work.idle

/-- `FRAME_LEN` saturates only above every stored byte (R26; notes/assumptions/14.md). -/
abbrev CapBelowSaturation (s : State) : Prop := s.cfg.bufCap < 2 ^ 32 - 1

/-- What every step keeps: a quiescent instance, running or torn down, with a checked configuration and R30. -/
abbrev Sound (s : State) : Prop :=
  Quiescent s ∧ (s.phase = .running ∨ s.phase = .tornDown) ∧ configOk s.cfg = true ∧ CapBelowSaturation s ∧ RegInv s

/-- The seven registers of R21 are the same. -/
abbrev SameRegisters (s t : State) : Prop :=
  t.run = s.run ∧ t.synced = s.synced ∧ t.bitIndex = s.bitIndex ∧ t.buf = s.buf ∧ t.frameLen = s.frameLen
    ∧ t.lastEdgeTs = s.lastEdgeTs ∧ t.lastBitTs = s.lastBitTs

/-- Everything that is neither a register nor a value of the step in progress is the same. -/
abbrev SameOutside (s t : State) : Prop :=
  t.cfg = s.cfg ∧ t.phase = s.phase ∧ t.inbox = s.inbox ∧ t.sub = s.sub

/-! ## Events -/

/-- `Deliver`, `UNKNOWN_DEVICE` or `LENGTH_MISMATCH` (R218). -/
def Event.isFinalization : Event → Bool
  | .deliver _ _ => true
  | .unknownDevice _ => true
  | .lengthMismatch _ _ _ => true
  | .invalidPulse _ _ _ => false
  | .syncLoss _ _ => false

/-- `SYNC_LOSS`. -/
def Event.isSyncLoss : Event → Bool
  | .syncLoss _ _ => true
  | .deliver _ _ | .unknownDevice _ | .lengthMismatch _ _ _ | .invalidPulse _ _ _ => false

/-! ## Well-formed registries, in the words of R184 -/

/-- The Low and the High slot of one temperature, in either order. -/
abbrev Halves (m m' : ByteMapping) : Prop :=
  m.kind = .temperature ∧ m'.kind = .temperature ∧ m.fieldName = m'.fieldName
    ∧ ((m.wordPosition = .low ∧ m'.wordPosition = .high) ∨ (m.wordPosition = .high ∧ m'.wordPosition = .low))

/-- WF7: two slots that share a key are consecutive halves of one temperature, and no half stands alone. -/
abbrev KeysKeptApart (ms : List ByteMapping) : Prop :=
  (∀ (i j : Nat) (m m' : ByteMapping), i < j → ms[i]? = some m → ms[j]? = some m' →
      (∃ k ∈ slotKeys m, k ∈ slotKeys m') → j = i + 1 ∧ Halves m m')
    ∧ ∀ (i : Nat) (m : ByteMapping), ms[i]? = some m → m.wordPosition ≠ .none →
        ∃ (j : Nat) (m' : ByteMapping), (j = i + 1 ∨ i = j + 1) ∧ ms[j]? = some m' ∧ Halves m m'

/-- A string of WF4. -/
abbrev PrintableName (s : Name) : Prop :=
  1 ≤ s.length ∧ s.length ≤ 255 ∧ ∀ c ∈ s, 0x20 ≤ c.toNat ∧ c.toNat ≤ 0x7E

/-- WF2 and WF4 to WF9 of one definition. -/
abbrev WellFormedDefinition (d : DeviceDefinition) : Prop :=
  1 ≤ d.expectedByteCount.toNat ∧ d.byteMappings.length = d.expectedByteCount.toNat
    ∧ PrintableName d.deviceTypeName ∧ (∀ m ∈ d.byteMappings, PrintableName m.fieldName)
    ∧ (∀ m ∈ d.byteMappings, m.wordPosition ≠ .none → m.kind = .temperature)
    ∧ (∀ m ∈ d.byteMappings, (m.kind ≠ .outputBits → ∀ o ∈ m.bitToOutputIndex.toList, o = 0)
        ∧ (m.kind ≠ .temperature → m.scale = 0x3FF0000000000000))
    ∧ KeysKeptApart d.byteMappings
    ∧ (∀ m ∈ d.byteMappings, m.kind = .outputBits → (m.bitToOutputIndex.toList.filter fun o => o != 0).Nodup)
    ∧ ∀ m ∈ d.byteMappings, fIsFinite m.scale = true

/-! ## ROM images, in the words of R86 to R90 -/

/-- Every "must" of R86 to R90 on device records and a name table, but for those an image's bytes cannot break. -/
abbrev ImageMusts (records : List RomRecord) (names : List Name) : Prop :=
  records.length ≤ 256 ∧ (records.map RomRecord.code).Nodup ∧ names.length ≤ 256 ∧ (∀ s ∈ names, PrintableName s)
    ∧ ∀ r ∈ records, r.expectedByteCount ≠ 0 ∧ r.entries.length = r.expectedByteCount.toNat ∧ r.typeNameId.toNat < names.length
        ∧ ∀ m ∈ r.entries, (m.kind = .temperature ∨ m.wordPosition = .none) ∧ m.fieldNameId.toNat < names.length

/-- The abstract mapping of an entry (R35, R90). -/
def entryMapping (names : List Name) (m : RomEntry) : ByteMapping :=
  { fieldName := names.getD m.fieldNameId.toNat [], kind := m.kind, wordPosition := m.wordPosition
    bitToOutputIndex := m.bitToOutputIndex, scale := m.scale }

/-- The registry of device records and a name table (R34, R87, R90). -/
def imageRegistry (records : List RomRecord) (names : List Name) : Registry :=
  records.map fun r =>
    (r.code,
      { code := r.code, deviceTypeName := names.getD r.typeNameId.toNat [], expectedByteCount := r.expectedByteCount
        byteMappings := r.entries.map (entryMapping names) })

/-! ## The pseudocode of R120 -/

/-- S2 of R120, on the category `c` of the supplied duration. -/
def r120S2 (level : Bool) (c : PulseCategory) (dur ts : U32) (s : State) : Except Fault State :=
  let afterRun : Except Fault State :=
    if level = true ∧ c = .short then
      if s.run = 15 then syncMarker ts s else .ok { s with run := s.run + 1 }
    else if level = true then .ok { s with run := 0 }
    else if c = .invalid then .ok { s with run := 0 }
    else .ok s
  match afterRun with
  | .ok s => if c = .invalid then .ok (s.raise (.invalidPulse level dur ts)) else .ok s
  | .error f => .error f

/-- S3 of R120. -/
def r120S3 (level : Bool) (ts : U32) (s : State) : Except Fault State :=
  if s.synced = true ∧ classify (ts - s.lastBitTs) = .long then
    let n := s.bitIndex + 1
    let s := { s with lastBitTs := ts }
    if n = 1 then (if level then .ok (startOk s) else .ok (startFail ts s))
    else if n.toNat ≤ 9 then dataBit n level s
    else if level then .ok (stopFail ts s) else .ok (stopOk s)
  else .ok s

/-- EDGE of R120: the registers and the event list after an edge on registers `s`. -/
def r120 (level : Bool) (dur ts : U32) (s : State) : Except Fault State :=
  match r120S2 level (classify dur) dur ts { s with events := [] } with
  | .error f => .error f
  | .ok s =>
    match r120S3 level ts s with
    | .error f => .error f
    | .ok s => .ok { s with lastEdgeTs := ts }

/-- `RUN` after an edge of category `c`, by the table of R123. -/
def runAfter (run : U32) (level : Bool) (c : PulseCategory) : U32 :=
  if level = true ∧ c = .short then (if run = 15 then 0 else run + 1)
  else if level = true ∨ c = .invalid then 0 else run

/-- None of the edges completes a marker, from `RUN` on (R125). -/
def markerFree (run : U32) : List (Bool × U32 × U32) → Bool
  | [] => true
  | (level, dur, _) :: rest =>
    !(level && classify dur == .short && run == 15) && markerFree (runAfter run level (classify dur)) rest

/-- The levels of those edges that are bit boundaries, from `LAST_BIT_TS` on, while synced and with no marker among them (R133, R143). -/
def boundaryLevels (lastBit : U32) : List (Bool × U32 × U32) → List Bool
  | [] => []
  | (level, _, ts) :: rest =>
    if classify (ts - lastBit) = .long then level :: boundaryLevels ts rest else boundaryLevels lastBit rest

/-- Edges in order; each step's events are appended to those before it (R247). -/
def runEdges : List (Bool × U32 × U32) → State → List Event → Option (State × List Event)
  | [], s, es => some (s, es)
  | (level, dur, ts) :: rest, s, es =>
    match exec (if level then .edgeRise dur ts else .edgeFall dur ts) s with
    | .next t => runEdges rest t (es ++ t.events)
    | .fault _ => none
    | .refused _ => none

end Sys2Proof.Machine
end

