-- ==== Sys2Proof/Certificates/Slice0/Obligations.lean ====
section
/-! DEFINITION. The statements for the provers, from the numbered rules of spec/. -/

open Sys2Proof Sys2Proof.Machine

/-! ## Reset and classification -/

/-- R40, R240, R246: the seven registers after reset, and the FSM state Unsynced. -/
def Obligations.ResetStateHasSpecValues : Prop :=
  State.reset.run = 0 ∧ State.reset.synced = false ∧ State.reset.bitIndex = 0 ∧ State.reset.buf = []
    ∧ State.reset.frameLen = 0 ∧ State.reset.lastEdgeTs = 0 ∧ State.reset.lastBitTs = 0 ∧ State.reset.events = []
    ∧ fsmState State.reset = some .unsynced

/-- R240: RESET writes every register its reset value and raises nothing, whatever the registers hold; the configuration stays; a
second RESET changes nothing; after it the FSM is Unsynced. That a configured instance begins to run is R244's; the phase and the idle step-local values are
the model's fields (notes/assumptions/4.md, 10.md), and that RESET also mends registers that break R30 is its reading (notes/assumptions/9.md). -/
def Obligations.ResetWritesEveryRegister : Prop :=
  ∀ s : State, s.phase = .running ∨ s.phase = .configured → configOk s.cfg = true →
    ∃ t, exec .reset s = .next t
      ∧ t = { s with
              run := 0, synced := false, bitIndex := 0, buf := [], frameLen := 0, lastEdgeTs := 0, lastBitTs := 0
              events := [], phase := .running, work := Work.idle }
      ∧ fsmState t = some .unsynced ∧ exec .reset t = .next t

/-- R110, R111: the three categories and their bounds, all exclusive; the unused code never occurs. -/
def Obligations.ClassifyHasExclusiveBounds : Prop :=
  ∀ d : U32,
    (classify d = .short ↔ 9000 < d.toNat ∧ d.toNat < 11000)
      ∧ (classify d = .long ↔ 18000 < d.toNat ∧ d.toNat < 22000)
      ∧ (classify d = .invalid ↔ ¬(9000 < d.toNat ∧ d.toNat < 11000) ∧ ¬(18000 < d.toNat ∧ d.toNat < 22000))
      ∧ categoryCode (classify d) ≠ 0b11

/-- R110 as a table row: the row of the category that CLASSIFY gives leaves it as the step's category and changes nothing else;
another row's code is not formed (notes/assumptions/21.md). That the rows do so in states that break R30 too is the model's choice
(notes/assumptions/9.md). -/
def Obligations.CategoryRowsLeaveTheCategory : Prop :=
  ∀ (s : State) (i : Instr) (c : PulseCategory),
    (i = .pcShort ∧ c = .short) ∨ (i = .pcLong ∧ c = .long) ∨ (i = .pcInvalid ∧ c = .invalid) →
      (classify s.work.classIn = c → exec i s = .next { s with work := { s.work with classOut := c } })
        ∧ (classify s.work.classIn ≠ c → exec i s = .fault .selectorNotFormed)

/-! ## The rows of sync detection -/

/-- R123, R91, SYNC.INC: the count grows by one, without wrapping, to at most 15. -/
def Obligations.SyncIncCountsOneMore : Prop :=
  ∀ s : State, Ready s → syncSel s = 0b1010 →
    exec .syncInc s = .next { s with run := s.run + 1 } ∧ (s.run + 1).toNat = s.run.toNat + 1 ∧ (s.run + 1).toNat ≤ 15

/-- R123, R124, SYNC.CLR.RL, SYNC.CLR.RI, SYNC.CLR.FI, SYNC.HOLD.FS, SYNC.HOLD.FL: the count is cleared, or nothing changes; an Invalid edge also
raises INVALID_PULSE with its own three fields. -/
def Obligations.SyncRowsClearOrHold : Prop :=
  ∀ (s : State) (z : Bool), Ready s →
    (syncSel s = encodeSync true 0b10 z → exec (.syncClrRl z) s = .next { s with run := 0 })
      ∧ (syncSel s = encodeSync true 0b00 z →
          exec (.syncClrRi z) s
            = .next { s with run := 0, events := s.events ++ [.invalidPulse true s.work.dur s.work.ts] })
      ∧ (syncSel s = encodeSync false 0b00 z →
          exec (.syncClrFi z) s
            = .next { s with run := 0, events := s.events ++ [.invalidPulse false s.work.dur s.work.ts] })
      ∧ (syncSel s = encodeSync false 0b01 z → exec (.syncHoldFs z) s = .next s)
      ∧ (syncSel s = encodeSync false 0b10 z → exec (.syncHoldFl z) s = .next s)

/-- R126, R127, SYNC.MARK: FINALIZE raises the one event of DECODE on the buffer as it stands, then the buffer is emptied and the FSM stands
at Synced-AwaitingStart, measuring from this edge. -/
def Obligations.SyncMarkFinalizesThenAligns : Prop :=
  ∀ s : State, Ready s → syncSel s = 0b1011 →
    ∃ r, decodeFrame s.cfg.registry s.buf s.frameLen = .ok r
      ∧ exec .syncMark s
        = .next { s with
                  run := 0, synced := true, bitIndex := 0, buf := [], frameLen := 0, lastBitTs := s.work.ts
                  events := s.events ++ [finalEvent s.cfg.controllerId r] }

/-! ## The rows of bit decoding -/

/-- R135, R52, BIT.START: a zero byte is appended; a byte at or beyond BUF_CAP is counted and not stored; FRAME_LEN saturates. -/
def Obligations.BitStartAppendsZeroByte : Prop :=
  ∀ s : State, Ready s → atBoundary s = true → bitSel s = 0b00001 →
    exec .bitStart s
      = .next { s with
                buf := if s.frameLen.toNat < s.cfg.bufCap then s.buf ++ [(s.frameLen.toNat, 0)] else s.buf
                frameLen := if s.frameLen.toNat = 2 ^ 32 - 1 then s.frameLen else s.frameLen + 1
                bitIndex := 1 }

/-- R136, R140, BIT.START.FAIL: sync is lost, nothing is appended, RUN and LAST_BIT_TS stay. -/
def Obligations.BitStartFailLosesSync : Prop :=
  ∀ s : State, Ready s → atBoundary s = true → bitSel s = 0b00000 →
    exec .bitStartFail s
      = .next { s with synced := false, bitIndex := 0, events := s.events ++ [.syncLoss .start s.work.ts] }

/-- R137, the four BIT.DATA rows: with `n = K + 1`, the stored partial byte gains `(1 - level) << (n - 2)`, which is the same as a bitwise or;
an overflow byte is not written; BIT_INDEX becomes `n`. -/
def Obligations.DataBitAddsItsWeight : Prop :=
  ∀ (s : State) (i : Instr) (k : BitVec 4) (level : Bool),
    (i = .bitDataK1 level ∧ k = 1) ∨ (i = .bitDataK2_3 k level ∧ 2 ≤ k ∧ k ≤ 3)
        ∨ (i = .bitDataK4_7 k level ∧ 4 ≤ k ∧ k ≤ 7) ∨ (i = .bitDataK8 level ∧ k = 8) →
      Ready s → atBoundary s = true → bitSel s = encodeBit k level →
        (s.frameLen.toNat ≤ s.cfg.bufCap →
            ∃ b : Byte, s.memRead (s.frameLen.toNat - 1) = some b
              ∧ b + dataContribution (k.toNat + 1) level = b ||| dataContribution (k.toNat + 1) level
              ∧ dataContribution (k.toNat + 1) level = (if level then 0 else BitVec.twoPow 8 (k.toNat - 1))
              ∧ exec i s
                = .next { s with
                          buf := s.buf.write (s.frameLen.toNat - 1) (b + dataContribution (k.toNat + 1) level)
                          bitIndex := k.setWidth 8 + 1 })
          ∧ (s.cfg.bufCap < s.frameLen.toNat → exec i s = .next { s with bitIndex := k.setWidth 8 + 1 })

/-- R138, BIT.STOP: BIT_INDEX returns to 0 and the byte stays. -/
def Obligations.BitStopCompletesTheByte : Prop :=
  ∀ s : State, Ready s → atBoundary s = true → bitSel s = 0b10010 →
    exec .bitStop s = .next { s with bitIndex := 0 }

/-- R139, R54, R140, BIT.STOP.FAIL: the byte under assembly is removed, if it was stored, and counted off; sync is lost. -/
def Obligations.BitStopFailDropsTheByte : Prop :=
  ∀ s : State, Ready s → atBoundary s = true → bitSel s = 0b10011 →
    exec .bitStopFail s
      = .next { s with
                buf := if s.frameLen.toNat ≤ s.cfg.bufCap then s.buf.dropLast else s.buf
                frameLen := s.frameLen - 1
                synced := false
                bitIndex := 0
                events := s.events ++ [.syncLoss .stop s.work.ts] }

/-! ## The rows of the unpacker

They read no register. That they do the same in states that break R30 is the model's choice (notes/assumptions/9.md). -/

/-- R175, BM.IDENT: the type name under the plain field name, whatever the byte. -/
def Obligations.IdentPutsTheTypeName : Prop :=
  ∀ (s : State) (c : Slot), s.work.slot = some c → controlByte c.mapping = 0x00 →
    c.mapping.fieldName ∉ c.record.map Prod.fst →
      exec .bmIdent s
        = .next { s with
                  work := { s.work with
                            slot := some { c with record := c.record ++ [(c.mapping.fieldName, .str c.defn.deviceTypeName)] } } }

/-- R176, BM.OUTBITS: one Boolean for each used bit, in ascending bit order, from the unscaled byte, when the slot's outputs are
distinct (WF8) and none of its keys is taken (WF7). -/
def Obligations.OutbitsPutsUsedBitsInOrder : Prop :=
  ∀ (s : State) (c : Slot), s.work.slot = some c → controlByte c.mapping = 0x01 →
    (c.mapping.bitToOutputIndex.toList.filter fun o => o != 0).Nodup →
    (∀ o ∈ c.mapping.bitToOutputIndex.toList, o ≠ 0 → c.mapping.fieldName ++ decByte o ∉ c.record.map Prod.fst) →
      exec .bmOutbits s
        = .next { s with
                  work := { s.work with
                            slot := some { c with
                              record := c.record ++ c.mapping.bitToOutputIndex.toList.zipIdx.filterMap fun p =>
                                if p.1 = 0 then none
                                else some (c.mapping.fieldName ++ decByte p.1, Value.bool (c.byte.getLsbD p.2)) } } }

/-- R177, BM.TEMP: the scaled value under the plain field name. -/
def Obligations.TempPutsTheScaledValue : Prop :=
  ∀ (s : State) (c : Slot), s.work.slot = some c → controlByte c.mapping = 0x02 →
    c.mapping.fieldName ∉ c.record.map Prod.fst →
      exec .bmTemp s
        = .next { s with
                  work := { s.work with
                            slot := some { c with
                              record := c.record ++ [(c.mapping.fieldName, .num (scaledByte c.byte c.mapping.scale))] } } }

/-- R178, R179, R180, BM.TEMP.LO and BM.TEMP.HI: the term `s` or `s *f 256` makes a new key, or is added to the Num that the key has, in
place. -/
def Obligations.HalfTemperatureRowsAccumulate : Prop :=
  ∀ (s : State) (c : Slot) (i : Instr) (x : F64), s.work.slot = some c →
    (i = .bmTempLo ∧ controlByte c.mapping = 0x06 ∧ x = fMul (fOfByte c.byte) c.mapping.scale)
        ∨ (i = .bmTempHi ∧ controlByte c.mapping = 0x0A
            ∧ x = fMul (fMul (fOfByte c.byte) c.mapping.scale) 0x4070000000000000) →
      (c.mapping.fieldName ∉ c.record.map Prod.fst →
          exec i s
            = .next { s with
                      work := { s.work with
                                slot := some { c with record := c.record ++ [(c.mapping.fieldName, .num x)] } } })
        ∧ (∀ (before after : Record) (y : F64), c.record = before ++ [(c.mapping.fieldName, .num y)] ++ after →
            c.mapping.fieldName ∉ before.map Prod.fst → c.mapping.fieldName ∉ after.map Prod.fst →
              exec i s
                = .next { s with
                          work := { s.work with
                                    slot := some { c with
                                      record := before ++ [(c.mapping.fieldName, .num (fAdd y x))] ++ after } } })

/-- 93 item 29 (and notes/assumptions/13.md): a `put` on a taken key, which OUTBITS also makes when two used bits name one output (WF8), or an
`acc` on a value that is no Num, faults by name. -/
def Obligations.RecordClashFaults : Prop :=
  ∀ (s : State) (c : Slot), s.work.slot = some c →
    (c.mapping.fieldName ∈ c.record.map Prod.fst →
        (controlByte c.mapping = 0x00 → exec .bmIdent s = .fault .recordKeyPresent)
          ∧ (controlByte c.mapping = 0x02 → exec .bmTemp s = .fault .recordKeyPresent))
      ∧ (∀ v, Record.get c.record c.mapping.fieldName = some v → (∀ x, v ≠ .num x) →
          (controlByte c.mapping = 0x06 → exec .bmTempLo s = .fault .recordNotNum)
            ∧ (controlByte c.mapping = 0x0A → exec .bmTempHi s = .fault .recordNotNum))
      ∧ (controlByte c.mapping = 0x01 →
          ¬(c.mapping.bitToOutputIndex.toList.filter fun o => o != 0).Nodup
              ∨ (∃ o ∈ c.mapping.bitToOutputIndex.toList, o ≠ 0 ∧ c.mapping.fieldName ++ decByte o ∈ c.record.map Prod.fst) →
            exec .bmOutbits s = .fault .recordKeyPresent)

/-! ## The edge step -/

/-- R120, R121: an edge in a ready state completes, and what it does is the pseudocode of R120, S1 to S4 in order; the idle
step-local values after it are the model's (notes/assumptions/4.md). -/
def Obligations.EdgeRunsThePseudocode : Prop :=
  ∀ (s : State) (dur ts : U32), Ready s →
    (∃ t, r120 true dur ts s = .ok t ∧ exec (.edgeRise dur ts) s = .next { t with work := Work.idle })
      ∧ (∃ t, r120 false dur ts s = .ok t ∧ exec (.edgeFall dur ts) s = .next { t with work := Work.idle })

/-- R125, R126, R128, R147: the edge that brings the count to 16 finalizes the buffer as it stands, in every FSM state, raises that one
event, and decodes no bit; the idle step-local values after it are the model's (notes/assumptions/4.md). -/
def Obligations.MarkerEdgeOnlyFinalizes : Prop :=
  ∀ (s : State) (dur ts : U32), Ready s → classify dur = .short → s.run = 15 →
    ∃ r, decodeFrame s.cfg.registry s.buf s.frameLen = .ok r
      ∧ exec (.edgeRise dur ts) s
        = .next { s with
                  run := 0, synced := true, bitIndex := 0, buf := [], frameLen := 0, lastEdgeTs := ts, lastBitTs := ts
                  events := [finalEvent s.cfg.controllerId r], work := Work.idle }

/-- R131, R143, R144: an edge that completes no marker, while unsynced or at an interval that is not Long, changes RUN, LAST_EDGE_TS and
nothing else, and raises INVALID_PULSE exactly when its own duration is Invalid; the idle step-local values after it are the model's
(notes/assumptions/4.md). -/
def Obligations.EdgeOffBoundaryDecodesNothing : Prop :=
  ∀ (s : State) (level : Bool) (dur ts : U32), Ready s →
    s.synced = false ∨ classify (ts - s.lastBitTs) ≠ .long →
    ¬(level = true ∧ classify dur = .short ∧ s.run = 15) →
      exec (if level then .edgeRise dur ts else .edgeFall dur ts) s
        = .next { s with
                  run := if level = true ∧ classify dur = .short then s.run + 1
                         else if level = true ∨ classify dur = .invalid then 0 else s.run
                  lastEdgeTs := ts
                  events := if classify dur = .invalid then [.invalidPulse level dur ts] else []
                  work := Work.idle }

/-- R123, R22: RUN after any edge, whatever S3 does. -/
def Obligations.EdgeUpdatesRunByTable : Prop :=
  ∀ (s : State) (level : Bool) (dur ts : U32), Ready s →
    ∃ t, exec (if level then .edgeRise dur ts else .edgeFall dur ts) s = .next t
      ∧ t.run = (if level = true ∧ classify dur = .short then (if s.run = 15 then 0 else s.run + 1)
                 else if level = true ∨ classify dur = .invalid then 0 else s.run)

/-- R130: the FSM transition table. -/
def Obligations.FsmFollowsTransitionTable : Prop :=
  ∀ (s : State) (level : Bool) (dur ts : U32), Ready s →
    ∃ t, exec (if level then .edgeRise dur ts else .edgeFall dur ts) s = .next t
      ∧ (level = true ∧ classify dur = .short ∧ s.run = 15 → fsmState t = some .awaitingStart)
      ∧ (¬(level = true ∧ classify dur = .short ∧ s.run = 15) →
          (s.synced = false ∨ classify (ts - s.lastBitTs) ≠ .long → fsmState t = fsmState s)
            ∧ (classify (ts - s.lastBitTs) = .long →
                (fsmState s = some .awaitingStart → fsmState t = some (if level then .inByte 1 else .unsynced))
                  ∧ (∀ k, k ≤ 7 → fsmState s = some (.inByte k) → fsmState t = some (.inByte (k + 1)))
                  ∧ (fsmState s = some (.inByte 8) → fsmState t = some .awaitingStop)
                  ∧ (fsmState s = some .awaitingStop → fsmState t = some (if level then .unsynced else .awaitingStart))))

/-- R218, R219: the events of one edge, and their order: INVALID_PULSE or the one finalization event first, then SYNC_LOSS; never a finalization with
another. INVALID_PULSE is there exactly when the duration is Invalid, a finalization event exactly at a marker. -/
def Obligations.EdgeEventsKeepTheirOrder : Prop :=
  ∀ (s t : State) (level : Bool) (dur ts : U32),
    exec (if level then .edgeRise dur ts else .edgeFall dur ts) s = .next t →
      (∃ e, Event.isFinalization e = true ∧ t.events = [e] ∧ level = true ∧ classify dur = .short ∧ s.run = 15)
        ∨ (¬(level = true ∧ classify dur = .short ∧ s.run = 15)
            ∧ ∃ loss : List Event, (loss = [] ∨ ∃ which, loss = [.syncLoss which ts])
              ∧ t.events = (if classify dur = .invalid then [.invalidPulse level dur ts] else []) ++ loss)

/-- R142, R140, R136, R139: only a failed start or stop check clears SYNCED. An edge leaves a synced core unsynced exactly when it completes no marker,
stands at a bit boundary, and is a start bit of level 0 or a stop bit of level 1; it raises SYNC_LOSS in just these cases, naming that bit. -/
def Obligations.SyncIsLostOnlyByFailedCheck : Prop :=
  ∀ (s t : State) (level : Bool) (dur ts : U32), s.synced = true →
    exec (if level then .edgeRise dur ts else .edgeFall dur ts) s = .next t →
      (t.synced = false ↔ ¬(level = true ∧ classify dur = .short ∧ s.run = 15) ∧ classify (ts - s.lastBitTs) = .long
          ∧ ((s.bitIndex = 0 ∧ level = false) ∨ (s.bitIndex = 9 ∧ level = true)))
        ∧ (t.synced = false ↔ ∃ e ∈ t.events, Event.isSyncLoss e = true)
        ∧ (∀ which at', Event.syncLoss which at' ∈ t.events →
            at' = ts ∧ (which = .start ↔ s.bitIndex = 0) ∧ (which = .stop ↔ s.bitIndex = 9))

/-- R149: from every ready state, edges of which 16 are rising and Short, and the others falling and not Invalid, raise exactly one
finalization event; with 32 such rising edges they raise two. -/
def Obligations.SixteenShortRisesFinalizeOnce : Prop :=
  ∀ (s : State) (edges : List (Bool × U32 × U32)), Ready s → CapBelowSaturation s →
    (∀ e ∈ edges, (e.1 = true → classify e.2.1 = .short) ∧ (e.1 = false → classify e.2.1 ≠ .invalid)) →
    ∃ t es, runEdges edges s [] = some (t, es)
      ∧ ((edges.filter fun e => e.1).length = 16 → (es.filter Event.isFinalization).length = 1)
      ∧ ((edges.filter fun e => e.1).length = 32 → (es.filter Event.isFinalization).length = 2)

/-- R141, R58, R143: edges of any durations, none of them completing a marker, of which just nine are bit boundaries, a start bit and eight data bits, leave
the byte whose bit `j` is the inverse of the `j`-th data level, and the FSM awaiting the stop bit. -/
def Obligations.ByteIsAssembledLsbFirstInverted : Prop :=
  ∀ (s : State) (edges : List (Bool × U32 × U32)) (levels : Fin 8 → Bool), Ready s →
    s.synced = true → s.bitIndex = 0 → s.frameLen.toNat < s.cfg.bufCap → CapBelowSaturation s →
    markerFree s.run edges = true → boundaryLevels s.lastBitTs edges = true :: List.ofFn levels →
      ∃ t es, runEdges edges s [] = some (t, es)
        ∧ (∃ b : Byte, t.memRead s.frameLen.toNat = some b ∧ ∀ j : Fin 8, b.getLsbD j.val = !(levels j))
        ∧ (∀ a, a ≠ s.frameLen.toNat → t.memRead a = s.memRead a)
        ∧ t.frameLen.toNat = s.frameLen.toNat + 1 ∧ fsmState t = some .awaitingStop

/-! ## Invariants and safety -/

/-- R30, R246: the reset state keeps every invariant, between steps, with the default configuration checked. -/
def Obligations.ResetStateIsSound : Prop := Sound State.reset

/-- R30, R33, R39: from every sound state, whatever transaction waits, a step leads to a sound state with the same configuration. -/
def Obligations.EveryStepKeepsSoundness : Prop :=
  ∀ s t : State, Sound s → step s = .next t → Sound t ∧ t.cfg = s.cfg

/-- R30, R185, R217, R249: no step from a sound state ends in a fault. -/
def Obligations.NoStepFromSoundStateFaults : Prop :=
  ∀ (s : State) (f : Fault), Sound s → step s ≠ .fault f

/-- R84, R217, R249: a running sound instance takes every one of the `EV` words and every `CTL` word, and takes just that one word off
the inbox, a field of the model (notes/assumptions/2.md); that `CTL` 0, no transaction, is taken off it too is the model's reading (notes/assumptions/20.md). -/
def Obligations.RunningInstanceTakesEveryWord : Prop :=
  ∀ (s : State) (rest : List Input), Sound s → s.phase = .running →
    (∀ w : BitVec 65, s.inbox = .ev w :: rest → ∃ t, step s = .next t ∧ t.inbox = rest ∧ t.phase = .running)
      ∧ (∀ w : BitVec 1, s.inbox = .ctl w :: rest → ∃ t, step s = .next t ∧ t.inbox = rest ∧ t.phase = .running)

/-- R30, 93 item 2: in a running checked instance whose registers break R30, an edge and every assembler row fault; what reads no register does not
(notes/assumptions/9.md). -/
def Obligations.BrokenRegistersFault : Prop :=
  ∀ (s : State) (i : Instr), s.phase = .running → configOk s.cfg = true → ¬RegInv s → i ≠ .reset →
    (∀ w, encode i ≠ .sel (.category w)) → (∀ w, encode i ≠ .sel (.mapping w)) →
      ∃ f, exec i s = .fault f

/-- R244, R245, R243, R255: an edge is refused before the configuration, by a refused instance, before the first RESET and after teardown; RESET is
refused in the first, second and fourth of them. -/
def Obligations.NoMoveOutsideOperation : Prop :=
  ∀ (s : State) (level : Bool) (dur ts : U32),
    (s.phase = .configured →
        exec (if level then .edgeRise dur ts else .edgeFall dur ts) s = .refused .beforeReset)
      ∧ (∀ p r, (p = Phase.unconfigured ∧ r = Refusal.notConfigured) ∨ (p = .refused ∧ r = .configurationRefused)
            ∨ (p = .tornDown ∧ r = .afterTeardown) →
          s.phase = p →
            exec (if level then .edgeRise dur ts else .edgeFall dur ts) s = .refused r ∧ exec .reset s = .refused r)

/-- R243, R244, R33, R86: the load of a new instance, in abstract form or as a ROM image: it is configured if the image is read and the checks pass and
refused otherwise, with no event; a second load is refused. The phases and the refusal's name are the model's (notes/assumptions/10.md). -/
def Obligations.ConfigurationLoadIsChecked : Prop :=
  ∀ (s : State) (rest : List Input), s.sub = none →
    (∀ c, s.inbox = .configure c :: rest →
        (s.phase = .unconfigured →
            (configOk c = true →
                ∃ t, step s = .next t ∧ t.phase = .configured ∧ t.cfg = c ∧ t.events = [] ∧ t.inbox = rest)
              ∧ (configOk c = false → ∃ t, step s = .next t ∧ t.phase = .refused ∧ t.events = [] ∧ t.inbox = rest))
          ∧ (s.phase = .configured ∨ s.phase = .running → step s = .refused .configurationChange))
      ∧ ∀ image id cap, s.inbox = .loadImage image id cap :: rest →
        (s.phase = .unconfigured →
            (∀ reg names, parseImage image = .ok (reg, names) →
                (configOk { registry := reg, controllerId := id, bufCap := cap } = true →
                    ∃ t, step s = .next t ∧ t.phase = .configured ∧ t.cfg = { registry := reg, controllerId := id, bufCap := cap }
                      ∧ t.events = [] ∧ t.inbox = rest)
                  ∧ (configOk { registry := reg, controllerId := id, bufCap := cap } = false →
                      ∃ t, step s = .next t ∧ t.phase = .refused ∧ t.events = [] ∧ t.inbox = rest))
              ∧ ∀ e, parseImage image = .error e → ∃ t, step s = .next t ∧ t.phase = .refused ∧ t.events = [] ∧ t.inbox = rest)
          ∧ (s.phase = .configured ∨ s.phase = .running → step s = .refused .configurationChange)

/-- R184, R243, R7: the checks of a configuration are WF1 to WF9 and that BUF_CAP is above every byte count (and above 0 over an empty registry:
notes/assumptions/15.md). -/
def Obligations.ConfigurationChecksAreWf1ToWf9 : Prop :=
  ∀ c : Config, configOk c = true ↔
    (c.registry.map Prod.fst).Nodup ∧ 0 < c.bufCap
      ∧ ∀ e ∈ c.registry, e.1 = e.2.code ∧ e.2.expectedByteCount.toNat < c.bufCap ∧ WellFormedDefinition e.2

/-- R247, R246, R244, R254: under a checked configuration every trace that starts with RESET and goes on with edges and RESETs runs to its end; each
further transaction is one step of the core, its events put after those of the steps before; RESET alone gives the launch state; a RESET amid a trace
leaves nothing of what came before but its events; a trace of edges is that of `runEdges`; a trace that starts otherwise is no run. -/
def Obligations.RunsEndWithEveryStepsEvents : Prop :=
  ∀ c : Config, configOk c = true → c.bufCap < 2 ^ 32 - 1 →
    runTrace c [.reset] = some (.ended (launchState c) [])
      ∧ (∀ trace : List Instr, (∀ i ∈ trace, (inputOf i).isSome = true) →
          ∃ t es, runTrace c (.reset :: trace) = some (.ended t es) ∧ Ready t ∧ t.cfg = c
            ∧ (∀ i, (inputOf i).isSome = true →
                ∃ u, exec i t = .next u ∧ runTrace c (.reset :: (trace ++ [i])) = some (.ended u (es ++ u.events)))
            ∧ ∀ (post : List Instr) (u : State) (es' : List Event), runTrace c (.reset :: post) = some (.ended u es') →
                runTrace c (.reset :: (trace ++ .reset :: post)) = some (.ended u (es ++ es')))
      ∧ (∀ (edges : List (Bool × U32 × U32)) (t : State) (es : List Event),
          runEdges edges (launchState c) [] = some (t, es) →
            runTrace c (.reset :: edges.map fun e => edgeInstr e.1 e.2.1 e.2.2) = some (.ended t es))
      ∧ ∀ (i : Instr) (trace : List Instr), i ≠ .reset → runTrace c (i :: trace) = none

/-- R245: teardown discards every register, runs no FINALIZE and raises nothing; the configuration is not touched. Three clauses are the model's choice:
that a configured instance may be torn down before its first RESET and that a discarded register reads as its reset value (notes/assumptions/10.md), and
that a teardown completes on registers that break R30 (notes/assumptions/9.md). -/
def Obligations.TeardownDiscardsWithoutEvents : Prop :=
  ∀ (s : State) (rest : List Input), s.sub = none → s.inbox = .teardown :: rest →
    s.phase = .configured ∨ s.phase = .running →
      ∃ t, step s = .next t ∧ t.phase = .tornDown ∧ t.events = [] ∧ t.buf = [] ∧ t.frameLen = 0 ∧ t.run = 0
        ∧ t.synced = false ∧ t.bitIndex = 0 ∧ t.lastEdgeTs = 0 ∧ t.lastBitTs = 0 ∧ t.cfg = s.cfg ∧ t.inbox = rest

/-! ## Frames -/

/-- R33, R57, R31: no instruction writes the configuration, takes a transaction or leaves a selector word; only RESET moves the phase. -/
def Obligations.NoInstructionWritesConfiguration : Prop :=
  ∀ (i : Instr) (s t : State), exec i s = .next t →
    t.cfg = s.cfg ∧ t.inbox = s.inbox ∧ t.sub = s.sub ∧ (t.phase = s.phase ∨ i = .reset)

/-- R113, R183, R21: a category row and a mapping row write no register, raise nothing and change no byte of the buffer. -/
def Obligations.ClassifierAndUnpackerWriteNoRegister : Prop :=
  ∀ (i : Instr) (s t : State),
    i ∈ [Instr.pcShort, .pcLong, .pcInvalid, .bmIdent, .bmOutbits, .bmTemp, .bmTempLo, .bmTempHi] →
    exec i s = .next t →
      SameRegisters s t ∧ SameOutside s t ∧ t.events = s.events ∧ ∀ a, t.memRead a = s.memRead a

/-- R123, R136, R138, R140: the rows that store no byte: SYNC.INC, SYNC.CLR.*, SYNC.HOLD.*, BIT.START.FAIL and BIT.STOP leave every byte, FRAME_LEN and both timestamps; the
first seven also SYNCED and BIT_INDEX, the last two RUN, and BIT.STOP also SYNCED. -/
def Obligations.RowsThatStoreNothingKeepTheBuffer : Prop :=
  ∀ (i : Instr) (s t : State) (z : Bool), exec i s = .next t →
    (i ∈ [Instr.syncInc, .syncClrRl z, .syncClrRi z, .syncClrFi z, .syncHoldFs z, .syncHoldFl z] →
        (∀ a, t.memRead a = s.memRead a) ∧ t.frameLen = s.frameLen ∧ t.lastEdgeTs = s.lastEdgeTs
          ∧ t.lastBitTs = s.lastBitTs ∧ t.synced = s.synced ∧ t.bitIndex = s.bitIndex ∧ t.work = s.work ∧ SameOutside s t)
      ∧ (i ∈ [Instr.bitStartFail, .bitStop] →
        (∀ a, t.memRead a = s.memRead a) ∧ t.frameLen = s.frameLen ∧ t.lastEdgeTs = s.lastEdgeTs
          ∧ t.lastBitTs = s.lastBitTs ∧ t.run = s.run ∧ t.work = s.work ∧ SameOutside s t
          ∧ (i = .bitStop → t.synced = s.synced ∧ t.events = s.events))

/-- R52 to R54, R135, R137, R139: the rows that store: BIT.START touches byte FRAME_LEN alone, a BIT.DATA row and BIT.STOP.FAIL byte FRAME_LEN - 1 alone; with no
byte stored there (FRAME_LEN beyond BUF_CAP) they touch none. RUN and both timestamps stay. -/
def Obligations.StoringRowsTouchOneByte : Prop :=
  ∀ (i : Instr) (s t : State) (k : BitVec 4) (level : Bool), exec i s = .next t →
    (i = .bitStart →
        (∀ a, a ≠ s.frameLen.toNat → t.memRead a = s.memRead a)
          ∧ (s.cfg.bufCap ≤ s.frameLen.toNat → t.buf = s.buf)
          ∧ t.run = s.run ∧ t.synced = s.synced ∧ t.lastEdgeTs = s.lastEdgeTs ∧ t.lastBitTs = s.lastBitTs
          ∧ t.events = s.events ∧ t.work = s.work ∧ SameOutside s t)
      ∧ (i ∈ [Instr.bitDataK1 level, .bitDataK2_3 k level, .bitDataK4_7 k level, .bitDataK8 level] →
        (∀ a, a ≠ s.frameLen.toNat - 1 → t.memRead a = s.memRead a)
          ∧ (s.cfg.bufCap < s.frameLen.toNat → t.buf = s.buf)
          ∧ t.run = s.run ∧ t.synced = s.synced ∧ t.frameLen = s.frameLen ∧ t.lastEdgeTs = s.lastEdgeTs
          ∧ t.lastBitTs = s.lastBitTs ∧ t.events = s.events ∧ t.work = s.work ∧ SameOutside s t)
      ∧ (i = .bitStopFail →
        (∀ a, a ≠ s.frameLen.toNat - 1 → t.memRead a = s.memRead a)
          ∧ (s.cfg.bufCap < s.frameLen.toNat → t.buf = s.buf)
          ∧ t.run = s.run ∧ t.lastEdgeTs = s.lastEdgeTs ∧ t.lastBitTs = s.lastBitTs ∧ t.work = s.work ∧ SameOutside s t)

/-- R52 to R54, R131, R133, R249: an edge that completes no marker touches at most one byte of the buffer: at a start bit byte FRAME_LEN, at a data or stop bit byte
FRAME_LEN - 1; off a bit boundary it touches none. It changes nothing outside the registers and the event list. -/
def Obligations.EdgeTouchesAtMostOneByte : Prop :=
  ∀ (s t : State) (level : Bool) (dur ts : U32),
    exec (if level then .edgeRise dur ts else .edgeFall dur ts) s = .next t →
    ¬(level = true ∧ classify dur = .short ∧ s.run = 15) →
      (∀ a, a ≠ (if s.bitIndex = 0 then s.frameLen.toNat else s.frameLen.toNat - 1) → t.memRead a = s.memRead a)
        ∧ (s.synced = false ∨ classify (ts - s.lastBitTs) ≠ .long → t.buf = s.buf ∧ t.frameLen = s.frameLen)
        ∧ SameOutside s t

/-- R28, R38: LAST_EDGE_TS has no effect on anything but itself. -/
def Obligations.LastEdgeTsIsNeverRead : Prop :=
  ∀ (i : Instr) (s t : State) (x : U32), exec i s = .next t →
    ∃ y, exec i { s with lastEdgeTs := x } = .next { t with lastEdgeTs := y }

/-- R29: while SYNCED is 0, LAST_BIT_TS has no effect on what an edge does, except on itself. -/
def Obligations.LastBitTsIsUnreadWhileUnsynced : Prop :=
  ∀ (s t : State) (level : Bool) (dur ts x : U32), s.synced = false →
    exec (if level then .edgeRise dur ts else .edgeFall dur ts) s = .next t →
      ∃ y, exec (if level then .edgeRise dur ts else .edgeFall dur ts) { s with lastBitTs := x }
        = .next { t with lastBitTs := y }

/-! ## The byte buffer -/

/-- R51, R52, R54: on a canonical buffer that keeps R30 (f), BufAppend stores at index FRAME_LEN or not at all and counts up to 2^32-1, BufDropLast
removes the last byte if it was stored; every other byte stays and the buffer stays canonical. -/
def Obligations.BufferOperationsMoveOneByte : Prop :=
  ∀ (s : State) (v : Byte), s.buf.wf = true → s.buf.length = min s.frameLen.toNat s.cfg.bufCap →
    (s.bufAppend v).buf.wf = true ∧ s.bufDropLast.buf.wf = true
      ∧ (s.frameLen.toNat < s.cfg.bufCap →
          (s.bufAppend v).memRead s.frameLen.toNat = some v ∧ (s.bufAppend v).buf.length = s.buf.length + 1)
      ∧ (s.cfg.bufCap ≤ s.frameLen.toNat → (s.bufAppend v).buf = s.buf)
      ∧ (∀ a, a ≠ s.frameLen.toNat → (s.bufAppend v).memRead a = s.memRead a)
      ∧ (s.bufAppend v).frameLen.toNat = min (s.frameLen.toNat + 1) (2 ^ 32 - 1)
      ∧ (1 ≤ s.frameLen.toNat → s.bufDropLast.frameLen.toNat = s.frameLen.toNat - 1
          ∧ s.bufDropLast.memRead (s.frameLen.toNat - 1)
            = none)
      ∧ (∀ a, a ≠ s.frameLen.toNat - 1 → s.bufDropLast.memRead a = s.memRead a)

/-- R53: MemWrite replaces byte `i` when the buffer holds it and does nothing otherwise; no other byte changes; the buffer stays
canonical. -/
def Obligations.MemWriteReplacesStoredByte : Prop :=
  ∀ (s : State) (i : Nat) (v : Byte), s.buf.wf = true →
    (i < s.buf.length → (s.memWrite i v).memRead i = some v)
      ∧ (s.buf.length ≤ i → (s.memWrite i v).buf = s.buf)
      ∧ (∀ a, a ≠ i → (s.memWrite i v).memRead a = s.memRead a)
      ∧ (s.memWrite i v).buf.wf = true ∧ (s.memWrite i v).frameLen = s.frameLen

/-! ## The unpacker -/

/-- R171, R172, R173: the checks of DECODE, in the order empty, unknown code, length. -/
def Obligations.DecodeChecksInOrder : Prop :=
  ∀ (reg : Registry) (buf : Memory) (n : U32),
    (n = 0 → decodeFrame reg buf n = .ok (.unknownDevice none))
      ∧ (∀ code, n ≠ 0 → buf.read 0 = some code →
          (regLookup reg code = none → decodeFrame reg buf n = .ok (.unknownDevice (some code)))
            ∧ (∀ d, regLookup reg code = some d → n.toNat ≠ d.expectedByteCount.toNat →
                decodeFrame reg buf n = .ok (.lengthMismatch code d.expectedByteCount n)))

/-- R185, R180: with a checked configuration, every frame of a known device and the right length decodes to a record whose keys are
distinct, and are the same in the same order whatever the bytes after the first are. -/
def Obligations.WellFormedDefinitionFixesTheKeys : Prop :=
  ∀ (c : Config) (code : Byte) (d : DeviceDefinition), configOk c = true → regLookup c.registry code = some d →
    ∃ keys : List Name, keys.Nodup
      ∧ ∀ (buf : Memory) (n : U32), buf.wf = true → buf.length = n.toNat → n.toNat = d.expectedByteCount.toNat →
          buf.read 0 = some code →
            ∃ r, decodeFrame c.registry buf n = .ok (.record r) ∧ r.map Prod.fst = keys

/-- R198, R196, R59: the record of every UVR64 frame: eleven pairs in this order, each temperature `fl(Low · scale) +f fl(High · scale) *f 256`, the four
outputs bits 4 to 7 of the last byte. That temp2 to temp6 take slots 3 to 12, Low first, is the spec's own inference (R196, D25;
notes/assumptions/6.md). -/
def Obligations.Uvr64RecordHasElevenKeys : Prop :=
  ∀ b1 b2 b3 b4 b5 b6 b7 b8 b9 b10 b11 b12 b13 : Byte,
    decodeFrame defaultRegistry
        [(0, 32), (1, b1), (2, b2), (3, b3), (4, b4), (5, b5), (6, b6), (7, b7), (8, b8), (9, b9), (10, b10), (11, b11),
          (12, b12), (13, b13)] 14
      = .ok (.record
          [(ascii "devicetype", .str (ascii "UVR64")),
            (ascii "temp1", .num (fAdd (scaledByte b1 f64Tenth) (highTerm (scaledByte b2 f64Tenth)))),
            (ascii "temp2", .num (fAdd (scaledByte b3 f64Tenth) (highTerm (scaledByte b4 f64Tenth)))),
            (ascii "temp3", .num (fAdd (scaledByte b5 f64Tenth) (highTerm (scaledByte b6 f64Tenth)))),
            (ascii "temp4", .num (fAdd (scaledByte b7 f64Tenth) (highTerm (scaledByte b8 f64Tenth)))),
            (ascii "temp5", .num (fAdd (scaledByte b9 f64Tenth) (highTerm (scaledByte b10 f64Tenth)))),
            (ascii "temp6", .num (fAdd (scaledByte b11 f64Tenth) (highTerm (scaledByte b12 f64Tenth)))),
            (ascii "output1", .bool (b13.getLsbD 4)), (ascii "output2", .bool (b13.getLsbD 5)),
            (ascii "output3", .bool (b13.getLsbD 6)), (ascii "output4", .bool (b13.getLsbD 7))])

/-- R181: binary64 addition is commutative wherever its result is a number; so a field's two halves may come in either order. -/
def Obligations.SumOfHalvesIsOrderIndependent : Prop :=
  ∀ x y : F64, fIsNan x = false → fIsNan y = false → ¬(fIsInf x = true ∧ fIsInf y = true ∧ fSign x ≠ fSign y) →
    fAdd x y = fAdd y x

/-- R179: the High term is exact unless it overflows. -/
def Obligations.HighTermIsExact : Prop :=
  ∀ x : F64, fIsFinite x = true → fIsFinite (highTerm x) = true → fInt (highTerm x) = 256 * fInt x

/-- R177, R179, R182, W4: values the spec quotes: 21.5, 51.7, and reading 3 as 0.30000000000000004. -/
def Obligations.QuotedTemperaturesAgree : Prop :=
  scaledByte 215 f64Tenth = 0x4035800000000000
    ∧ fAdd (scaledByte 5 f64Tenth) (highTerm (scaledByte 2 f64Tenth)) = 0x4049D9999999999A
    ∧ fAdd (scaledByte 3 f64Tenth) (highTerm (scaledByte 0 f64Tenth)) = 0x3FD3333333333334

/-! ## Encodings -/

/-- R80, R83, R89, R91, R92: decoding the word of a well-formed instruction gives it back, every operand at every value. -/
def Obligations.DecodeOfEncodeIsIdentity : Prop :=
  ∀ i : Instr, i.wf = true → decode (encode i) = .ok i

/-- R83, R84, R89, R91, R92: every word that decodes has one meaning: it is the word of its instruction, which is well-formed. -/
def Obligations.EveryWordHasOneMeaning : Prop :=
  ∀ (w : Word) (i : Instr), decode w = .ok i → encode i = w ∧ i.wf = true

/-- R20, R84, R89, R91, R92: exactly the reserved words are rejected, each by its name: every other word decodes to an instruction, every `EV` word among
them. -/
def Obligations.ReservedWordsAreRejected : Prop :=
  (∀ w, ∃ i, decode (.ev w) = .ok i)
    ∧ (∀ w, (w = 0 → decode (.ctl w) = .error .noTransaction) ∧ (w ≠ 0 → ∃ i, decode (.ctl w) = .ok i))
    ∧ (∀ w, (w = 0b11 → decode (.sel (.category w)) = .error .categoryUnused)
        ∧ (w ≠ 0b11 → ∃ i, decode (.sel (.category w)) = .ok i))
    ∧ (∀ w, (w.extractLsb' 1 2 = 0b11 → decode (.sel (.sync w)) = .error .syncSelUnused)
        ∧ (w.extractLsb' 1 2 ≠ 0b11 → ∃ i, decode (.sel (.sync w)) = .ok i))
    ∧ (∀ w, (10 ≤ (w.extractLsb' 1 4).toNat → decode (.sel (.bit w)) = .error .bitSelUnused)
        ∧ ((w.extractLsb' 1 4).toNat < 10 → ∃ i, decode (.sel (.bit w)) = .ok i))
    ∧ (∀ w, (w ∉ [(0x00 : Byte), 0x01, 0x02, 0x06, 0x0A] → decode (.sel (.mapping w)) = .error .controlByteReserved)
        ∧ (w ∈ [(0x00 : Byte), 0x01, 0x02, 0x06, 0x0A] → ∃ i, decode (.sel (.mapping w)) = .ok i))

/-- V-ENC-1 and V-ENC-3 to V-ENC-5, V-BIT-9 (`01110`), R82 and R83 (`CTL` 1), R20 and W1 (the category codes): words written out from the spec, at least
one of each format, decode to their instructions. -/
def Obligations.SpecWordsDecodeAsWritten : Prop :=
  decode (.ev 0x00000271000002710) = .ok (.edgeFall 10000 10000)
    ∧ decode (.ev 0x1000027100004E200) = .ok (.edgeRise 10000 320000)
    ∧ decode (.ctl 1) = .ok .reset
    ∧ decode (.sel (.category 0b01)) = .ok .pcShort
    ∧ decode (.sel (.category 0b10)) = .ok .pcLong
    ∧ decode (.sel (.category 0b00)) = .ok .pcInvalid
    ∧ decode (.sel (.sync 0b1011)) = .ok .syncMark
    ∧ decode (.sel (.sync 0b0100)) = .ok (.syncHoldFl false)
    ∧ decode (.sel (.bit 0b10011)) = .ok .bitStopFail
    ∧ decode (.sel (.bit 0b01110)) = .ok (.bitDataK4_7 7 false)
    ∧ decode (.sel (.mapping 0x0A)) = .ok .bmTempHi

/-- R86 to R90, R60: an image is accepted exactly when its bytes, but for what follows the name table (notes/assumptions/16.md), are those of device records
and a name table that keep every "must"; the registry read is then theirs. One mapping entry is read back from its 18 bytes, whatever follows. -/
def Obligations.RomImageIsReadExactly : Prop :=
  (∀ (bs : List Byte) (reg : Registry) (names : List Name),
      parseImage bs = .ok (reg, names) ↔
        ∃ (records : List RomRecord) (tail : List Byte), ImageMusts records names ∧ bs = encodeImage records names ++ tail
          ∧ reg = imageRegistry records names)
    ∧ ∀ (m : RomEntry) (rest : List Byte), m.kind = .temperature ∨ m.wordPosition = .none →
        parseEntry (encodeEntry m ++ rest) = .ok (m, rest)

/-- R95, R211: code, severity and payload of each error event; `Deliver` has no beat. -/
def Obligations.LogBeatsCarryTheirCodes : Prop :=
  ∀ (level : Bool) (dur ts actual : U32) (code expected : Byte) (id : ControllerId) (r : Record),
    logBeat (.invalidPulse level dur ts) = some ⟨0x1, 0, [if level then 1 else 0, dur, ts]⟩
      ∧ logBeat (.syncLoss .start ts) = some ⟨0x2, 1, [0, ts]⟩
      ∧ logBeat (.syncLoss .stop ts) = some ⟨0x2, 1, [1, ts]⟩
      ∧ logBeat (.unknownDevice none) = some ⟨0x3, 1, [0, 0]⟩
      ∧ logBeat (.unknownDevice (some code)) = some ⟨0x3, 1, [1, code.setWidth 32]⟩
      ∧ logBeat (.lengthMismatch code expected actual) = some ⟨0x4, 1, [code.setWidth 32, expected.setWidth 32, actual]⟩
      ∧ logBeat (.deliver id r) = none

/-! ## The step -/

/-- R14, R65, R84, R225: a step takes the oldest transaction, and runs the instruction its word decodes to with no event raised yet; `CTL` 0 is taken
and does nothing; with nothing waiting the core rests; a selector word placed alone is run alone (notes/assumptions/1.md). That the idle step and `CTL` 0 complete on registers
that break R30 is the model's choice (notes/assumptions/9.md). -/
def Obligations.StepRunsTheDecodedInstruction : Prop :=
  ∀ (s : State) (rest : List Input),
    (s.sub = none →
        (∀ w i, s.inbox = .ev w :: rest → decode (.ev w) = .ok i → step s = exec i { s with inbox := rest, events := [] })
          ∧ (∀ w i, s.inbox = .ctl w :: rest → decode (.ctl w) = .ok i →
              step s = exec i { s with inbox := rest, events := [] })
          ∧ (∀ w, s.inbox = .ctl w :: rest → w = 0 → step s = .next { s with inbox := rest, events := [] })
          ∧ (s.inbox = [] → step s = .next { s with events := [] }))
      ∧ (∀ x i, s.sub = some x → decode (.sel x) = .ok i → step s = exec i { s with sub := none, events := [] })

/-- R91, R92, R89, notes/assumptions/21.md: in a ready state, a SYNC or BIT row whose selector the state does not form faults; so does, in every
state, a BM row with no slot or with a slot of another control byte. -/
def Obligations.UnformedSelectorFaults : Prop :=
  ∀ (s : State) (i : Instr),
    (Ready s →
        (∀ w, encode i = .sel (.sync w) → syncSel s ≠ w → exec i s = .fault .selectorNotFormed)
          ∧ (∀ w, encode i = .sel (.bit w) → atBoundary s = false ∨ bitSel s ≠ w → exec i s = .fault .selectorNotFormed))
      ∧ (∀ w, encode i = .sel (.mapping w) → (∀ c, s.work.slot = some c → controlByte c.mapping ≠ w) →
          exec i s = .fault .selectorNotFormed)

/-- R97, V-ENC-7: the expansion of `CELLS 0, 20000, "0 0 1"`. -/
def Obligations.CellsExpandAsWritten : Prop :=
  expandCells 0 20000 [false, false, true]
    = [.edgeFall 20000 10000, .edgeRise 10000 20000, .edgeFall 10000 30000, .edgeRise 20000 50000]
end

