-- ==== Sys2Proof/Laws/Memory.lean ====
section
/-! SUPPORT. The byte buffer: every operation keeps its canonical form, and what a read gives after each. -/

namespace Sys2Proof.Laws

open Sys2Proof.Machine

theorem wf_iff (m : Memory) : m.wf = true ↔ m.map Prod.fst = List.range m.length := by
  simp [Memory.wf]

theorem wf_nil : Memory.wf [] = true := by decide

theorem lookup_of_range' (m : Memory) : ∀ k, m.map Prod.fst = List.range' k m.length →
    ∀ i, List.lookup (k + i) m = m[i]?.map Prod.snd := by
  induction m with
  | nil => intro k _ i; simp
  | cons c cs ih =>
    obtain ⟨a, b⟩ := c
    intro k h i
    simp only [List.map_cons, List.length_cons, List.range'_succ, List.cons.injEq] at h
    obtain ⟨rfl, h⟩ := h
    cases i with
    | zero => simp
    | succ i =>
      have := ih (a + 1) h i
      rw [List.lookup_cons, show ((a + (i + 1) == a) = false) by simp]
      rw [show a + (i + 1) = a + 1 + i by omega, this]
      simp

/-- In a canonical buffer, reading is indexing. -/
theorem read_eq_getElem? (m : Memory) (h : m.wf = true) (i : Nat) : m.read i = m[i]?.map Prod.snd := by
  have := lookup_of_range' m 0 (by rw [(wf_iff m).mp h, List.range_eq_range']) i
  simpa [Memory.read] using this

theorem read_isSome (m : Memory) (h : m.wf = true) {i : Nat} (hi : i < m.length) : ∃ b, m.read i = some b := by
  rw [read_eq_getElem? m h]
  exact ⟨m[i].2, by simp [hi]⟩

theorem read_none (m : Memory) (h : m.wf = true) {i : Nat} (hi : m.length ≤ i) : m.read i = none := by
  rw [read_eq_getElem? m h]
  simp [hi]

theorem wf_append (m : Memory) (h : m.wf = true) (v : Byte) : Memory.wf (m ++ [(m.length, v)]) = true := by
  rw [wf_iff] at *
  simp [h, List.range_succ]

theorem map_fst_write (m : Memory) (i : Nat) (v : Byte) : (m.write i v).map Prod.fst = m.map Prod.fst := by
  simp only [Memory.write, List.map_map]
  apply List.map_congr_left
  intro c _
  simp only [Function.comp]
  split <;> rfl

@[simp] theorem length_write (m : Memory) (i : Nat) (v : Byte) : (m.write i v).length = m.length := by
  simp [Memory.write]

theorem wf_write (m : Memory) (h : m.wf = true) (i : Nat) (v : Byte) : (m.write i v).wf = true := by
  rw [wf_iff] at *
  rw [map_fst_write, h, length_write]

theorem wf_dropLast (m : Memory) (h : m.wf = true) : Memory.wf m.dropLast = true := by
  rw [wf_iff] at *
  rw [List.map_dropLast, h, List.length_dropLast]
  cases m.length <;> simp [List.range_succ]

theorem read_write_other (m : Memory) {i j : Nat} (v : Byte) (hij : j ≠ i) : (m.write i v).read j = m.read j := by
  induction m with
  | nil => rfl
  | cons c cs ih =>
    obtain ⟨a, b⟩ := c
    simp only [Memory.write, Memory.read, List.map_cons] at *
    by_cases ha : a = i
    · subst ha
      simp [List.lookup_cons, beq_eq_false_iff_ne.mpr hij, ih]
    · simp only [ha, if_false, List.lookup_cons, ih]

theorem read_write_same (m : Memory) {i : Nat} {b : Byte} (v : Byte) (h : m.read i = some b) :
    (m.write i v).read i = some v := by
  induction m with
  | nil => simp [Memory.read] at h
  | cons c cs ih =>
    obtain ⟨a, b'⟩ := c
    simp only [Memory.write, Memory.read, List.map_cons] at *
    by_cases ha : a = i
    · subst ha; simp
    · have hb : (i == a) = false := beq_eq_false_iff_ne.mpr (Ne.symm ha)
      rw [List.lookup_cons, hb] at h
      rw [if_neg ha, List.lookup_cons, hb]
      exact ih h

theorem read_append_other (m : Memory) (h : m.wf = true) {i : Nat} (v : Byte) (hi : i ≠ m.length) :
    Memory.read (m ++ [(m.length, v)]) i = m.read i := by
  rw [read_eq_getElem? _ (wf_append m h v), read_eq_getElem? m h]
  rcases Nat.lt_or_gt_of_ne hi with hlt | hgt
  · simp [List.getElem?_append_left hlt]
  · simp [List.getElem?_append_right (Nat.le_of_lt hgt), show m.length ≤ i by omega]
    omega

theorem read_append_same (m : Memory) (h : m.wf = true) (v : Byte) :
    Memory.read (m ++ [(m.length, v)]) m.length = some v := by
  rw [read_eq_getElem? _ (wf_append m h v)]
  simp

theorem read_dropLast_other (m : Memory) (h : m.wf = true) {i : Nat} (hi : i ≠ m.length - 1) :
    Memory.read m.dropLast i = m.read i := by
  rw [read_eq_getElem? _ (wf_dropLast m h), read_eq_getElem? m h, List.getElem?_dropLast]
  split
  · rfl
  · simp [show m.length ≤ i by omega]

end Sys2Proof.Laws
end

