-- ==== Sys2Proof/Laws/State.lean ====
section
/-! SUPPORT. Every field after every named update of the state. -/

namespace Sys2Proof.Laws

open Sys2Proof.Machine

/-! ## raise -/

@[simp] theorem raise_run (s : State) (e : Event) : (s.raise e).run = s.run := rfl
@[simp] theorem raise_synced (s : State) (e : Event) : (s.raise e).synced = s.synced := rfl
@[simp] theorem raise_bitIndex (s : State) (e : Event) : (s.raise e).bitIndex = s.bitIndex := rfl
@[simp] theorem raise_buf (s : State) (e : Event) : (s.raise e).buf = s.buf := rfl
@[simp] theorem raise_frameLen (s : State) (e : Event) : (s.raise e).frameLen = s.frameLen := rfl
@[simp] theorem raise_lastEdgeTs (s : State) (e : Event) : (s.raise e).lastEdgeTs = s.lastEdgeTs := rfl
@[simp] theorem raise_lastBitTs (s : State) (e : Event) : (s.raise e).lastBitTs = s.lastBitTs := rfl
@[simp] theorem raise_cfg (s : State) (e : Event) : (s.raise e).cfg = s.cfg := rfl
@[simp] theorem raise_phase (s : State) (e : Event) : (s.raise e).phase = s.phase := rfl
@[simp] theorem raise_inbox (s : State) (e : Event) : (s.raise e).inbox = s.inbox := rfl
@[simp] theorem raise_events (s : State) (e : Event) : (s.raise e).events = s.events ++ [e] := rfl
@[simp] theorem raise_work (s : State) (e : Event) : (s.raise e).work = s.work := rfl
@[simp] theorem raise_sub (s : State) (e : Event) : (s.raise e).sub = s.sub := rfl

/-! ## memWrite -/

@[simp] theorem memWrite_run (s : State) (i : Nat) (v : Byte) : (s.memWrite i v).run = s.run := rfl
@[simp] theorem memWrite_synced (s : State) (i : Nat) (v : Byte) : (s.memWrite i v).synced = s.synced := rfl
@[simp] theorem memWrite_bitIndex (s : State) (i : Nat) (v : Byte) : (s.memWrite i v).bitIndex = s.bitIndex := rfl
@[simp] theorem memWrite_buf (s : State) (i : Nat) (v : Byte) : (s.memWrite i v).buf = s.buf.write i v := rfl
@[simp] theorem memWrite_frameLen (s : State) (i : Nat) (v : Byte) : (s.memWrite i v).frameLen = s.frameLen := rfl
@[simp] theorem memWrite_lastEdgeTs (s : State) (i : Nat) (v : Byte) : (s.memWrite i v).lastEdgeTs = s.lastEdgeTs := rfl
@[simp] theorem memWrite_lastBitTs (s : State) (i : Nat) (v : Byte) : (s.memWrite i v).lastBitTs = s.lastBitTs := rfl
@[simp] theorem memWrite_cfg (s : State) (i : Nat) (v : Byte) : (s.memWrite i v).cfg = s.cfg := rfl
@[simp] theorem memWrite_phase (s : State) (i : Nat) (v : Byte) : (s.memWrite i v).phase = s.phase := rfl
@[simp] theorem memWrite_inbox (s : State) (i : Nat) (v : Byte) : (s.memWrite i v).inbox = s.inbox := rfl
@[simp] theorem memWrite_events (s : State) (i : Nat) (v : Byte) : (s.memWrite i v).events = s.events := rfl
@[simp] theorem memWrite_work (s : State) (i : Nat) (v : Byte) : (s.memWrite i v).work = s.work := rfl
@[simp] theorem memWrite_sub (s : State) (i : Nat) (v : Byte) : (s.memWrite i v).sub = s.sub := rfl

/-! ## bufAppend -/

@[simp] theorem bufAppend_run (s : State) (v : Byte) : (s.bufAppend v).run = s.run := rfl
@[simp] theorem bufAppend_synced (s : State) (v : Byte) : (s.bufAppend v).synced = s.synced := rfl
@[simp] theorem bufAppend_bitIndex (s : State) (v : Byte) : (s.bufAppend v).bitIndex = s.bitIndex := rfl
@[simp] theorem bufAppend_buf (s : State) (v : Byte) : (s.bufAppend v).buf = if s.frameLen.toNat < s.cfg.bufCap then s.buf ++ [(s.frameLen.toNat, v)] else s.buf := rfl
@[simp] theorem bufAppend_frameLen (s : State) (v : Byte) : (s.bufAppend v).frameLen = frameLenSucc s.frameLen := rfl
@[simp] theorem bufAppend_lastEdgeTs (s : State) (v : Byte) : (s.bufAppend v).lastEdgeTs = s.lastEdgeTs := rfl
@[simp] theorem bufAppend_lastBitTs (s : State) (v : Byte) : (s.bufAppend v).lastBitTs = s.lastBitTs := rfl
@[simp] theorem bufAppend_cfg (s : State) (v : Byte) : (s.bufAppend v).cfg = s.cfg := rfl
@[simp] theorem bufAppend_phase (s : State) (v : Byte) : (s.bufAppend v).phase = s.phase := rfl
@[simp] theorem bufAppend_inbox (s : State) (v : Byte) : (s.bufAppend v).inbox = s.inbox := rfl
@[simp] theorem bufAppend_events (s : State) (v : Byte) : (s.bufAppend v).events = s.events := rfl
@[simp] theorem bufAppend_work (s : State) (v : Byte) : (s.bufAppend v).work = s.work := rfl
@[simp] theorem bufAppend_sub (s : State) (v : Byte) : (s.bufAppend v).sub = s.sub := rfl

/-! ## bufClear -/

@[simp] theorem bufClear_run (s : State) : (s.bufClear).run = s.run := rfl
@[simp] theorem bufClear_synced (s : State) : (s.bufClear).synced = s.synced := rfl
@[simp] theorem bufClear_bitIndex (s : State) : (s.bufClear).bitIndex = s.bitIndex := rfl
@[simp] theorem bufClear_buf (s : State) : (s.bufClear).buf = [] := rfl
@[simp] theorem bufClear_frameLen (s : State) : (s.bufClear).frameLen = 0 := rfl
@[simp] theorem bufClear_lastEdgeTs (s : State) : (s.bufClear).lastEdgeTs = s.lastEdgeTs := rfl
@[simp] theorem bufClear_lastBitTs (s : State) : (s.bufClear).lastBitTs = s.lastBitTs := rfl
@[simp] theorem bufClear_cfg (s : State) : (s.bufClear).cfg = s.cfg := rfl
@[simp] theorem bufClear_phase (s : State) : (s.bufClear).phase = s.phase := rfl
@[simp] theorem bufClear_inbox (s : State) : (s.bufClear).inbox = s.inbox := rfl
@[simp] theorem bufClear_events (s : State) : (s.bufClear).events = s.events := rfl
@[simp] theorem bufClear_work (s : State) : (s.bufClear).work = s.work := rfl
@[simp] theorem bufClear_sub (s : State) : (s.bufClear).sub = s.sub := rfl

/-! ## resetRegisters -/

@[simp] theorem resetRegisters_run (s : State) : (s.resetRegisters).run = 0 := rfl
@[simp] theorem resetRegisters_synced (s : State) : (s.resetRegisters).synced = false := rfl
@[simp] theorem resetRegisters_bitIndex (s : State) : (s.resetRegisters).bitIndex = 0 := rfl
@[simp] theorem resetRegisters_buf (s : State) : (s.resetRegisters).buf = [] := rfl
@[simp] theorem resetRegisters_frameLen (s : State) : (s.resetRegisters).frameLen = 0 := rfl
@[simp] theorem resetRegisters_lastEdgeTs (s : State) : (s.resetRegisters).lastEdgeTs = 0 := rfl
@[simp] theorem resetRegisters_lastBitTs (s : State) : (s.resetRegisters).lastBitTs = 0 := rfl
@[simp] theorem resetRegisters_cfg (s : State) : (s.resetRegisters).cfg = s.cfg := rfl
@[simp] theorem resetRegisters_phase (s : State) : (s.resetRegisters).phase = s.phase := rfl
@[simp] theorem resetRegisters_inbox (s : State) : (s.resetRegisters).inbox = s.inbox := rfl
@[simp] theorem resetRegisters_events (s : State) : (s.resetRegisters).events = [] := rfl
@[simp] theorem resetRegisters_work (s : State) : (s.resetRegisters).work = s.work := rfl
@[simp] theorem resetRegisters_sub (s : State) : (s.resetRegisters).sub = s.sub := rfl

/-! ## markRegisters -/

@[simp] theorem markRegisters_run (ts : U32) (s : State) : (markRegisters ts s).run = 0 := rfl
@[simp] theorem markRegisters_synced (ts : U32) (s : State) : (markRegisters ts s).synced = true := rfl
@[simp] theorem markRegisters_bitIndex (ts : U32) (s : State) : (markRegisters ts s).bitIndex = 0 := rfl
@[simp] theorem markRegisters_buf (ts : U32) (s : State) : (markRegisters ts s).buf = [] := rfl
@[simp] theorem markRegisters_frameLen (ts : U32) (s : State) : (markRegisters ts s).frameLen = 0 := rfl
@[simp] theorem markRegisters_lastEdgeTs (ts : U32) (s : State) : (markRegisters ts s).lastEdgeTs = s.lastEdgeTs := rfl
@[simp] theorem markRegisters_lastBitTs (ts : U32) (s : State) : (markRegisters ts s).lastBitTs = ts := rfl
@[simp] theorem markRegisters_cfg (ts : U32) (s : State) : (markRegisters ts s).cfg = s.cfg := rfl
@[simp] theorem markRegisters_phase (ts : U32) (s : State) : (markRegisters ts s).phase = s.phase := rfl
@[simp] theorem markRegisters_inbox (ts : U32) (s : State) : (markRegisters ts s).inbox = s.inbox := rfl
@[simp] theorem markRegisters_events (ts : U32) (s : State) : (markRegisters ts s).events = s.events := rfl
@[simp] theorem markRegisters_work (ts : U32) (s : State) : (markRegisters ts s).work = s.work := rfl
@[simp] theorem markRegisters_sub (ts : U32) (s : State) : (markRegisters ts s).sub = s.sub := rfl

/-! ## raiseInvalid -/

@[simp] theorem raiseInvalid_run (s : State) : (raiseInvalid s).run = s.run := rfl
@[simp] theorem raiseInvalid_synced (s : State) : (raiseInvalid s).synced = s.synced := rfl
@[simp] theorem raiseInvalid_bitIndex (s : State) : (raiseInvalid s).bitIndex = s.bitIndex := rfl
@[simp] theorem raiseInvalid_buf (s : State) : (raiseInvalid s).buf = s.buf := rfl
@[simp] theorem raiseInvalid_frameLen (s : State) : (raiseInvalid s).frameLen = s.frameLen := rfl
@[simp] theorem raiseInvalid_lastEdgeTs (s : State) : (raiseInvalid s).lastEdgeTs = s.lastEdgeTs := rfl
@[simp] theorem raiseInvalid_lastBitTs (s : State) : (raiseInvalid s).lastBitTs = s.lastBitTs := rfl
@[simp] theorem raiseInvalid_cfg (s : State) : (raiseInvalid s).cfg = s.cfg := rfl
@[simp] theorem raiseInvalid_phase (s : State) : (raiseInvalid s).phase = s.phase := rfl
@[simp] theorem raiseInvalid_inbox (s : State) : (raiseInvalid s).inbox = s.inbox := rfl
@[simp] theorem raiseInvalid_events (s : State) : (raiseInvalid s).events = s.events ++ [.invalidPulse s.work.level s.work.dur s.work.ts] := rfl
@[simp] theorem raiseInvalid_work (s : State) : (raiseInvalid s).work = s.work := rfl
@[simp] theorem raiseInvalid_sub (s : State) : (raiseInvalid s).sub = s.sub := rfl

/-! ## startOk -/

@[simp] theorem startOk_run (s : State) : (startOk s).run = s.run := rfl
@[simp] theorem startOk_synced (s : State) : (startOk s).synced = s.synced := rfl
@[simp] theorem startOk_bitIndex (s : State) : (startOk s).bitIndex = 1 := rfl
@[simp] theorem startOk_buf (s : State) : (startOk s).buf = if s.frameLen.toNat < s.cfg.bufCap then s.buf ++ [(s.frameLen.toNat, 0)] else s.buf := rfl
@[simp] theorem startOk_frameLen (s : State) : (startOk s).frameLen = frameLenSucc s.frameLen := rfl
@[simp] theorem startOk_lastEdgeTs (s : State) : (startOk s).lastEdgeTs = s.lastEdgeTs := rfl
@[simp] theorem startOk_lastBitTs (s : State) : (startOk s).lastBitTs = s.lastBitTs := rfl
@[simp] theorem startOk_cfg (s : State) : (startOk s).cfg = s.cfg := rfl
@[simp] theorem startOk_phase (s : State) : (startOk s).phase = s.phase := rfl
@[simp] theorem startOk_inbox (s : State) : (startOk s).inbox = s.inbox := rfl
@[simp] theorem startOk_events (s : State) : (startOk s).events = s.events := rfl
@[simp] theorem startOk_work (s : State) : (startOk s).work = s.work := rfl
@[simp] theorem startOk_sub (s : State) : (startOk s).sub = s.sub := rfl

/-! ## syncLoss -/

@[simp] theorem syncLoss_run (which : FramingBit) (ts : U32) (s : State) : (syncLoss which ts s).run = s.run := rfl
@[simp] theorem syncLoss_synced (which : FramingBit) (ts : U32) (s : State) : (syncLoss which ts s).synced = false := rfl
@[simp] theorem syncLoss_bitIndex (which : FramingBit) (ts : U32) (s : State) : (syncLoss which ts s).bitIndex = 0 := rfl
@[simp] theorem syncLoss_buf (which : FramingBit) (ts : U32) (s : State) : (syncLoss which ts s).buf = s.buf := rfl
@[simp] theorem syncLoss_frameLen (which : FramingBit) (ts : U32) (s : State) : (syncLoss which ts s).frameLen = s.frameLen := rfl
@[simp] theorem syncLoss_lastEdgeTs (which : FramingBit) (ts : U32) (s : State) : (syncLoss which ts s).lastEdgeTs = s.lastEdgeTs := rfl
@[simp] theorem syncLoss_lastBitTs (which : FramingBit) (ts : U32) (s : State) : (syncLoss which ts s).lastBitTs = s.lastBitTs := rfl
@[simp] theorem syncLoss_cfg (which : FramingBit) (ts : U32) (s : State) : (syncLoss which ts s).cfg = s.cfg := rfl
@[simp] theorem syncLoss_phase (which : FramingBit) (ts : U32) (s : State) : (syncLoss which ts s).phase = s.phase := rfl
@[simp] theorem syncLoss_inbox (which : FramingBit) (ts : U32) (s : State) : (syncLoss which ts s).inbox = s.inbox := rfl
@[simp] theorem syncLoss_events (which : FramingBit) (ts : U32) (s : State) : (syncLoss which ts s).events = s.events ++ [.syncLoss which ts] := rfl
@[simp] theorem syncLoss_work (which : FramingBit) (ts : U32) (s : State) : (syncLoss which ts s).work = s.work := rfl
@[simp] theorem syncLoss_sub (which : FramingBit) (ts : U32) (s : State) : (syncLoss which ts s).sub = s.sub := rfl

/-! ## startFail -/

@[simp] theorem startFail_run (ts : U32) (s : State) : (startFail ts s).run = s.run := rfl
@[simp] theorem startFail_synced (ts : U32) (s : State) : (startFail ts s).synced = false := rfl
@[simp] theorem startFail_bitIndex (ts : U32) (s : State) : (startFail ts s).bitIndex = 0 := rfl
@[simp] theorem startFail_buf (ts : U32) (s : State) : (startFail ts s).buf = s.buf := rfl
@[simp] theorem startFail_frameLen (ts : U32) (s : State) : (startFail ts s).frameLen = s.frameLen := rfl
@[simp] theorem startFail_lastEdgeTs (ts : U32) (s : State) : (startFail ts s).lastEdgeTs = s.lastEdgeTs := rfl
@[simp] theorem startFail_lastBitTs (ts : U32) (s : State) : (startFail ts s).lastBitTs = s.lastBitTs := rfl
@[simp] theorem startFail_cfg (ts : U32) (s : State) : (startFail ts s).cfg = s.cfg := rfl
@[simp] theorem startFail_phase (ts : U32) (s : State) : (startFail ts s).phase = s.phase := rfl
@[simp] theorem startFail_inbox (ts : U32) (s : State) : (startFail ts s).inbox = s.inbox := rfl
@[simp] theorem startFail_events (ts : U32) (s : State) : (startFail ts s).events = s.events ++ [.syncLoss .start ts] := rfl
@[simp] theorem startFail_work (ts : U32) (s : State) : (startFail ts s).work = s.work := rfl
@[simp] theorem startFail_sub (ts : U32) (s : State) : (startFail ts s).sub = s.sub := rfl

/-! ## stopOk -/

@[simp] theorem stopOk_run (s : State) : (stopOk s).run = s.run := rfl
@[simp] theorem stopOk_synced (s : State) : (stopOk s).synced = s.synced := rfl
@[simp] theorem stopOk_bitIndex (s : State) : (stopOk s).bitIndex = 0 := rfl
@[simp] theorem stopOk_buf (s : State) : (stopOk s).buf = s.buf := rfl
@[simp] theorem stopOk_frameLen (s : State) : (stopOk s).frameLen = s.frameLen := rfl
@[simp] theorem stopOk_lastEdgeTs (s : State) : (stopOk s).lastEdgeTs = s.lastEdgeTs := rfl
@[simp] theorem stopOk_lastBitTs (s : State) : (stopOk s).lastBitTs = s.lastBitTs := rfl
@[simp] theorem stopOk_cfg (s : State) : (stopOk s).cfg = s.cfg := rfl
@[simp] theorem stopOk_phase (s : State) : (stopOk s).phase = s.phase := rfl
@[simp] theorem stopOk_inbox (s : State) : (stopOk s).inbox = s.inbox := rfl
@[simp] theorem stopOk_events (s : State) : (stopOk s).events = s.events := rfl
@[simp] theorem stopOk_work (s : State) : (stopOk s).work = s.work := rfl
@[simp] theorem stopOk_sub (s : State) : (stopOk s).sub = s.sub := rfl

/-! ## beginEdge -/

@[simp] theorem beginEdge_run (level : Bool) (dur ts : U32) (s : State) : (beginEdge level dur ts s).run = s.run := rfl
@[simp] theorem beginEdge_synced (level : Bool) (dur ts : U32) (s : State) : (beginEdge level dur ts s).synced = s.synced := rfl
@[simp] theorem beginEdge_bitIndex (level : Bool) (dur ts : U32) (s : State) : (beginEdge level dur ts s).bitIndex = s.bitIndex := rfl
@[simp] theorem beginEdge_buf (level : Bool) (dur ts : U32) (s : State) : (beginEdge level dur ts s).buf = s.buf := rfl
@[simp] theorem beginEdge_frameLen (level : Bool) (dur ts : U32) (s : State) : (beginEdge level dur ts s).frameLen = s.frameLen := rfl
@[simp] theorem beginEdge_lastEdgeTs (level : Bool) (dur ts : U32) (s : State) : (beginEdge level dur ts s).lastEdgeTs = s.lastEdgeTs := rfl
@[simp] theorem beginEdge_lastBitTs (level : Bool) (dur ts : U32) (s : State) : (beginEdge level dur ts s).lastBitTs = s.lastBitTs := rfl
@[simp] theorem beginEdge_cfg (level : Bool) (dur ts : U32) (s : State) : (beginEdge level dur ts s).cfg = s.cfg := rfl
@[simp] theorem beginEdge_phase (level : Bool) (dur ts : U32) (s : State) : (beginEdge level dur ts s).phase = s.phase := rfl
@[simp] theorem beginEdge_inbox (level : Bool) (dur ts : U32) (s : State) : (beginEdge level dur ts s).inbox = s.inbox := rfl
@[simp] theorem beginEdge_events (level : Bool) (dur ts : U32) (s : State) : (beginEdge level dur ts s).events = [] := rfl
@[simp] theorem beginEdge_work (level : Bool) (dur ts : U32) (s : State) : (beginEdge level dur ts s).work = { Work.idle with level := level, dur := dur, ts := ts } := rfl
@[simp] theorem beginEdge_sub (level : Bool) (dur ts : U32) (s : State) : (beginEdge level dur ts s).sub = s.sub := rfl

/-! ## endEdge -/

@[simp] theorem endEdge_run (ts : U32) (s : State) : (endEdge ts s).run = s.run := rfl
@[simp] theorem endEdge_synced (ts : U32) (s : State) : (endEdge ts s).synced = s.synced := rfl
@[simp] theorem endEdge_bitIndex (ts : U32) (s : State) : (endEdge ts s).bitIndex = s.bitIndex := rfl
@[simp] theorem endEdge_buf (ts : U32) (s : State) : (endEdge ts s).buf = s.buf := rfl
@[simp] theorem endEdge_frameLen (ts : U32) (s : State) : (endEdge ts s).frameLen = s.frameLen := rfl
@[simp] theorem endEdge_lastEdgeTs (ts : U32) (s : State) : (endEdge ts s).lastEdgeTs = ts := rfl
@[simp] theorem endEdge_lastBitTs (ts : U32) (s : State) : (endEdge ts s).lastBitTs = s.lastBitTs := rfl
@[simp] theorem endEdge_cfg (ts : U32) (s : State) : (endEdge ts s).cfg = s.cfg := rfl
@[simp] theorem endEdge_phase (ts : U32) (s : State) : (endEdge ts s).phase = s.phase := rfl
@[simp] theorem endEdge_inbox (ts : U32) (s : State) : (endEdge ts s).inbox = s.inbox := rfl
@[simp] theorem endEdge_events (ts : U32) (s : State) : (endEdge ts s).events = s.events := rfl
@[simp] theorem endEdge_work (ts : U32) (s : State) : (endEdge ts s).work = Work.idle := rfl
@[simp] theorem endEdge_sub (ts : U32) (s : State) : (endEdge ts s).sub = s.sub := rfl

/-! ## taken -/

@[simp] theorem taken_run (s : State) (rest : List Input) : (taken s rest).run = s.run := rfl
@[simp] theorem taken_synced (s : State) (rest : List Input) : (taken s rest).synced = s.synced := rfl
@[simp] theorem taken_bitIndex (s : State) (rest : List Input) : (taken s rest).bitIndex = s.bitIndex := rfl
@[simp] theorem taken_buf (s : State) (rest : List Input) : (taken s rest).buf = s.buf := rfl
@[simp] theorem taken_frameLen (s : State) (rest : List Input) : (taken s rest).frameLen = s.frameLen := rfl
@[simp] theorem taken_lastEdgeTs (s : State) (rest : List Input) : (taken s rest).lastEdgeTs = s.lastEdgeTs := rfl
@[simp] theorem taken_lastBitTs (s : State) (rest : List Input) : (taken s rest).lastBitTs = s.lastBitTs := rfl
@[simp] theorem taken_cfg (s : State) (rest : List Input) : (taken s rest).cfg = s.cfg := rfl
@[simp] theorem taken_phase (s : State) (rest : List Input) : (taken s rest).phase = s.phase := rfl
@[simp] theorem taken_inbox (s : State) (rest : List Input) : (taken s rest).inbox = rest := rfl
@[simp] theorem taken_events (s : State) (rest : List Input) : (taken s rest).events = [] := rfl
@[simp] theorem taken_work (s : State) (rest : List Input) : (taken s rest).work = s.work := rfl
@[simp] theorem taken_sub (s : State) (rest : List Input) : (taken s rest).sub = s.sub := rfl

/-! ## bufDropLast and stopFail -/

@[simp] theorem bufDropLast_run (s : State) : s.bufDropLast.run = s.run := by
  unfold State.bufDropLast; split <;> rfl

@[simp] theorem bufDropLast_synced (s : State) : s.bufDropLast.synced = s.synced := by
  unfold State.bufDropLast; split <;> rfl

@[simp] theorem bufDropLast_bitIndex (s : State) : s.bufDropLast.bitIndex = s.bitIndex := by
  unfold State.bufDropLast; split <;> rfl

@[simp] theorem bufDropLast_lastEdgeTs (s : State) : s.bufDropLast.lastEdgeTs = s.lastEdgeTs := by
  unfold State.bufDropLast; split <;> rfl

@[simp] theorem bufDropLast_lastBitTs (s : State) : s.bufDropLast.lastBitTs = s.lastBitTs := by
  unfold State.bufDropLast; split <;> rfl

@[simp] theorem bufDropLast_cfg (s : State) : s.bufDropLast.cfg = s.cfg := by
  unfold State.bufDropLast; split <;> rfl

@[simp] theorem bufDropLast_phase (s : State) : s.bufDropLast.phase = s.phase := by
  unfold State.bufDropLast; split <;> rfl

@[simp] theorem bufDropLast_inbox (s : State) : s.bufDropLast.inbox = s.inbox := by
  unfold State.bufDropLast; split <;> rfl

@[simp] theorem bufDropLast_events (s : State) : s.bufDropLast.events = s.events := by
  unfold State.bufDropLast; split <;> rfl

@[simp] theorem bufDropLast_work (s : State) : s.bufDropLast.work = s.work := by
  unfold State.bufDropLast; split <;> rfl

@[simp] theorem bufDropLast_sub (s : State) : s.bufDropLast.sub = s.sub := by
  unfold State.bufDropLast; split <;> rfl

@[simp] theorem stopFail_run (ts : U32) (s : State) : (stopFail ts s).run = s.run := by
  simp [stopFail]

@[simp] theorem stopFail_synced (ts : U32) (s : State) : (stopFail ts s).synced = false := by
  simp [stopFail]

@[simp] theorem stopFail_bitIndex (ts : U32) (s : State) : (stopFail ts s).bitIndex = 0 := by
  simp [stopFail]

@[simp] theorem stopFail_buf (ts : U32) (s : State) : (stopFail ts s).buf = s.bufDropLast.buf := rfl

@[simp] theorem stopFail_frameLen (ts : U32) (s : State) : (stopFail ts s).frameLen = s.bufDropLast.frameLen := rfl

@[simp] theorem stopFail_lastEdgeTs (ts : U32) (s : State) : (stopFail ts s).lastEdgeTs = s.lastEdgeTs := by
  simp [stopFail]

@[simp] theorem stopFail_lastBitTs (ts : U32) (s : State) : (stopFail ts s).lastBitTs = s.lastBitTs := by
  simp [stopFail]

@[simp] theorem stopFail_cfg (ts : U32) (s : State) : (stopFail ts s).cfg = s.cfg := by
  simp [stopFail]

@[simp] theorem stopFail_phase (ts : U32) (s : State) : (stopFail ts s).phase = s.phase := by
  simp [stopFail]

@[simp] theorem stopFail_inbox (ts : U32) (s : State) : (stopFail ts s).inbox = s.inbox := by
  simp [stopFail]

@[simp] theorem stopFail_events (ts : U32) (s : State) : (stopFail ts s).events = s.events ++ [.syncLoss .stop ts] := by
  simp [stopFail]

@[simp] theorem stopFail_work (ts : U32) (s : State) : (stopFail ts s).work = s.work := by
  simp [stopFail]

@[simp] theorem stopFail_sub (ts : U32) (s : State) : (stopFail ts s).sub = s.sub := by
  simp [stopFail]

end Sys2Proof.Laws
end

