-- ==== Sys2Proof/Laws/Accept.lean ====
section
/-! SUPPORT. What accept and the plumbing of a step do: cite these instead of unfolding them. -/

namespace Sys2Proof.Laws

open Sys2Proof.Machine

/-- The registers break none of R30 exactly when they keep all of it. -/
theorem broken_eq_none_iff (s : State) : s.broken = none ↔ RegInv s := by
  unfold State.broken RegInv syncRun bitsPerByte
  split_ifs with h1 h2 h3 h4 h5 h6
  · exact ⟨fun h => (by cases h), fun h => by omega⟩
  · exact ⟨fun h => (by cases h), fun h => absurd (h.2.1 h2.1) h2.2⟩
  · exact ⟨fun h => (by cases h), fun h => by omega⟩
  · refine ⟨fun h => (by cases h), fun ⟨_, _, _, _, _, hw, hl⟩ => ?_⟩
    rcases h4 with h4 | h4
    · rw [hw] at h4; cases h4
    · exact absurd hl h4
  · exact ⟨fun h => (by cases h), fun h => absurd h5.2 (h.2.2.2.1 h5.1).2⟩
  · exact ⟨fun h => (by cases h), fun h => absurd (h.2.2.2.2.1 h6.1 h6.2.1) h6.2.2⟩
  · simp only [true_iff]
    simp only [not_or, not_and, Bool.not_eq_false, ne_eq, Decidable.not_not] at h2 h4 h5 h6
    refine ⟨by omega, h2, by omega, fun hb => ⟨?_, h5 hb⟩, h6, h4.1, h4.2⟩
    by_contra hs
    exact hb (h2 (by simpa using hs))

theorem accept_ready {s : State} (h : Ready s) (k : State → Outcome) : accept s k = k s := by
  obtain ⟨hp, hc, hi⟩ := h
  simp [accept, hp, hc, (broken_eq_none_iff s).mpr hi]

/-- accept goes on only in a state that is ready. -/
theorem accept_cases (s : State) (k : State → Outcome) :
    (Ready s ∧ accept s k = k s) ∨ (∃ f, s.broken = some f ∧ accept s k = .fault f) ∨ (∃ r, accept s k = .refused r) := by
  unfold accept
  split
  · exact .inr (.inr ⟨_, rfl⟩)
  · exact .inr (.inr ⟨_, rfl⟩)
  · exact .inr (.inr ⟨_, rfl⟩)
  · exact .inr (.inr ⟨_, rfl⟩)
  · rename_i hp
    split
    · rename_i hc
      split
      · rename_i f hf
        exact .inr (.inl ⟨f, hf, rfl⟩)
      · rename_i hb
        exact .inl ⟨⟨hp, hc, (broken_eq_none_iff s).mp hb⟩, rfl⟩
    · exact .inr (.inr ⟨_, rfl⟩)

theorem accept_next {s t : State} {k : State → Outcome} (h : accept s k = .next t) : Ready s ∧ k s = .next t := by
  rcases accept_cases s k with ⟨hr, he⟩ | ⟨f, _, he⟩ | ⟨r, he⟩
  · exact ⟨hr, he ▸ h⟩
  · simp [he] at h
  · simp [he] at h

@[simp] theorem andThen_next (s : State) (k : State → Outcome) : andThen (.next s) k = k s := rfl

@[simp] theorem andThen_fault (f : Fault) (k : State → Outcome) : andThen (.fault f) k = .fault f := rfl

@[simp] theorem andThen_refused (r : Refusal) (k : State → Outcome) : andThen (.refused r) k = .refused r := rfl

theorem andThen_eq_next {o : Outcome} {k : State → Outcome} {t : State} (h : andThen o k = .next t) :
    ∃ s, o = .next s ∧ k s = .next t := by
  cases o with
  | next s => exact ⟨s, rfl, h⟩
  | fault f => cases h
  | refused r => cases h

@[simp] theorem toOutcome_ok (s : State) : toOutcome (.ok s) = .next s := rfl

@[simp] theorem toOutcome_error (f : Fault) : toOutcome (.error f) = .fault f := rfl

theorem toOutcome_eq_next {x : Except Fault State} {t : State} : toOutcome x = .next t ↔ x = .ok t := by
  cases x with
  | ok s =>
    constructor
    · intro h; cases h; rfl
    · intro h; cases h; rfl
  | error f =>
    constructor
    · intro h; cases h
    · intro h; cases h

/-- R30 speaks of the registers and the configuration alone. -/
theorem inv_congr {s t : State} (h : SameRegisters s t) (hc : t.cfg = s.cfg) (hi : RegInv s) : RegInv t := by
  obtain ⟨h1, h2, h3, h4, h5, h6, h7⟩ := h
  unfold RegInv partialRest State.memRead at *
  rw [h1, h2, h3, h4, h5, hc]
  exact hi

theorem ready_congr {s t : State} (h : SameRegisters s t) (hc : t.cfg = s.cfg) (hp : t.phase = s.phase) (hr : Ready s) :
    Ready t :=
  ⟨hp ▸ hr.1, hc ▸ hr.2.1, inv_congr h hc hr.2.2⟩

/-- A SYNC operation completes in a ready state that forms its selector. -/
theorem onSyncSel_ready {s t : State} {sel : BitVec 4} {op : State → Except Fault State} (hr : Ready s)
    (hs : syncSel s = sel) (ho : op s = .ok t) : onSyncSel sel op s = .next t := by
  simp [onSyncSel, accept_ready hr, hs, ho]

theorem onSyncSel_next {s t : State} {sel : BitVec 4} {op : State → Except Fault State}
    (h : onSyncSel sel op s = .next t) : Ready s ∧ syncSel s = sel ∧ op s = .ok t := by
  obtain ⟨hr, h⟩ := accept_next h
  split at h
  · exact ⟨hr, ‹_›, toOutcome_eq_next.mp h⟩
  · cases h

/-- A BIT operation completes in a ready state at a boundary that forms its selector. -/
theorem onBitSel_ready {s t : State} {k : BitVec 4} {level : Bool} {op : State → Except Fault State} (hr : Ready s)
    (hb : atBoundary s = true) (hs : bitSel s = encodeBit k level) (ho : op s = .ok t) :
    onBitSel k level op s = .next t := by
  simp [onBitSel, accept_ready hr, hb, hs, ho]

theorem onBitSel_next {s t : State} {k : BitVec 4} {level : Bool} {op : State → Except Fault State}
    (h : onBitSel k level op s = .next t) :
    Ready s ∧ atBoundary s = true ∧ bitSel s = encodeBit k level ∧ op s = .ok t := by
  obtain ⟨hr, h⟩ := accept_next h
  split at h
  · exact ⟨hr, (‹_ ∧ _› : _ ∧ _).1, (‹_ ∧ _› : _ ∧ _).2, toOutcome_eq_next.mp h⟩
  · cases h

/-- A mapping operation completes on a slot whose control byte selects it. -/
theorem onSlot_some {s : State} {c : Slot} {code : Byte} {op : Slot → Except Fault Record} {r : Record}
    (hc : s.work.slot = some c) (hb : controlByte c.mapping = code) (ho : op c = .ok r) :
    onSlot code op s = .next { s with work := { s.work with slot := some { c with record := r } } } := by
  simp [onSlot, hc, hb, ho]

theorem onSlot_next {s t : State} {code : Byte} {op : Slot → Except Fault Record} (h : onSlot code op s = .next t) :
    ∃ c r, s.work.slot = some c ∧ controlByte c.mapping = code ∧ op c = .ok r
      ∧ t = { s with work := { s.work with slot := some { c with record := r } } } := by
  unfold onSlot at h
  split at h
  · cases h
  · rename_i c hc
    split at h
    · rename_i hb
      split at h
      · rename_i r hr
        cases h
        exact ⟨c, r, hc, hb, hr, rfl⟩
      · cases h
    · cases h

theorem giveCategory_next {s t : State} {c : PulseCategory} :
    giveCategory c s = .next t ↔
      classify s.work.classIn = c ∧ t = { s with work := { s.work with classOut := c } } := by
  unfold giveCategory
  split
  · rename_i h
    constructor
    · intro h'; cases h'; exact ⟨h, rfl⟩
    · rintro ⟨_, rfl⟩; rfl
  · rename_i h
    constructor
    · intro h'; cases h'
    · rintro ⟨h', _⟩; exact absurd h' h

end Sys2Proof.Laws
end

