-- ==== Sys2Proof/Laws/Selectors.lean ====
section
/-! SUPPORT. What a formed selector word says of the state that forms it (30_encoding.md R91, R92). -/

namespace Sys2Proof.Laws

open Sys2Proof.Machine

theorem encodeSync_injective {l l' z z' : Bool} {c c' : BitVec 2} (h : encodeSync l c z = encodeSync l' c' z') :
    l = l' ∧ c = c' ∧ z = z' := by
  revert h
  cases l <;> cases l' <;> cases z <;> cases z' <;> revert c c' <;> decide

theorem encodeBit_injective {k k' : BitVec 4} {l l' : Bool} (h : encodeBit k l = encodeBit k' l') : k = k' ∧ l = l' := by
  revert h
  cases l <;> cases l' <;> revert k k' <;> decide +kernel

theorem categoryCode_injective {c c' : PulseCategory} (h : categoryCode c = categoryCode c') : c = c' := by
  revert h
  cases c <;> cases c' <;> decide

/-- `SYNC-SEL` fixes the edge's level, its category's code and whether the count is full. -/
theorem syncSel_eq_iff (s : State) (l : Bool) (c : BitVec 2) (z : Bool) :
    syncSel s = encodeSync l c z ↔ s.work.level = l ∧ categoryCode s.work.classOut = c ∧ runIsFull s = z :=
  ⟨encodeSync_injective, fun ⟨h1, h2, h3⟩ => by rw [syncSel, h1, h2, h3]⟩

/-- `BIT-SEL` fixes `BIT_INDEX`, as far as four bits show it, and the edge's level. -/
theorem bitSel_eq_iff (s : State) (k : BitVec 4) (l : Bool) :
    bitSel s = encodeBit k l ↔ s.bitIndex.setWidth 4 = k ∧ s.work.level = l :=
  ⟨encodeBit_injective, fun ⟨h1, h2⟩ => by rw [bitSel, h1, h2]⟩

theorem runIsFull_iff (s : State) : runIsFull s = true ↔ s.run = 15 := by simp [runIsFull, fullRun, syncRun]

/-- Where `BIT_INDEX` is below 16, four bits show all of it. -/
theorem bitIndex_of_field {s : State} {k : BitVec 4} (hb : s.bitIndex.toNat < 16) (h : s.bitIndex.setWidth 4 = k) :
    s.bitIndex = k.setWidth 8 := by
  subst h
  apply BitVec.eq_of_toNat_eq
  simp
  omega

/-! ## The FSM states (10_state.md R27) -/

@[simp] theorem stopIndex_eq : stopIndex = 9 := rfl

@[simp] theorem bitsPerByte_eq : bitsPerByte = 8 := rfl

theorem bitIndex_eq_iff (b : BitVec 8) (n : Nat) (h : n < 256) : b = BitVec.ofNat 8 n ↔ b.toNat = n := by
  rw [← BitVec.toNat_inj, BitVec.toNat_ofNat, Nat.mod_eq_of_lt h]

theorem fsm_unsynced (s : State) : fsmState s = some .unsynced ↔ s.synced = false ∧ s.bitIndex = 0 := by
  unfold fsmState; split_ifs <;> simp_all

theorem fsm_awaitingStart (s : State) : fsmState s = some .awaitingStart ↔ s.synced = true ∧ s.bitIndex = 0 := by
  unfold fsmState; split_ifs <;> simp_all

theorem fsm_inByte (s : State) (k : Nat) :
    fsmState s = some (.inByte k) ↔ s.synced = true ∧ s.bitIndex.toNat = k ∧ 1 ≤ k ∧ k ≤ 8 := by
  have h0 := bitIndex_eq_iff s.bitIndex 0 (by decide)
  unfold fsmState; split_ifs <;> simp_all <;> omega

theorem fsm_awaitingStop (s : State) : fsmState s = some .awaitingStop ↔ s.synced = true ∧ s.bitIndex = 9 := by
  have h9 := bitIndex_eq_iff s.bitIndex 9 (by decide)
  unfold fsmState; split_ifs <;> simp_all
  omega

theorem fsm_congr {s t : State} (h1 : t.synced = s.synced) (h2 : t.bitIndex = s.bitIndex) : fsmState t = fsmState s := by
  unfold fsmState; rw [h1, h2]

end Sys2Proof.Laws
end

