-- ==== Sys2Proof/Laws/Unpacker.lean ====
section
/-! SUPPORT. The record primitives and DECODE: a well-formed definition is unpacked without a fault (42_record_unpacker.md R185). -/

namespace Sys2Proof.Laws

open Sys2Proof.Machine

/-- The keys of a record, in order. -/
abbrev keysOf (r : Record) : List Name := r.map Prod.fst

theorem get_eq_none_iff (r : Record) (k : Name) : Record.get r k = none ↔ k ∉ keysOf r := by
  induction r with
  | nil => simp [Record.get]
  | cons e es ih =>
    obtain ⟨a, v⟩ := e
    simp only [Record.get, List.lookup_cons, List.map_cons, List.mem_cons, not_or] at *
    by_cases h : k = a
    · simp [h]
    · rw [beq_eq_false_iff_ne.mpr h]
      simp [h, ih]

theorem putFresh_absent {r : Record} {k : Name} (v : Value) (h : k ∉ keysOf r) :
    Record.putFresh r k v = .ok (r ++ [(k, v)]) := by
  simp [Record.putFresh, Record.put, (get_eq_none_iff r k).mpr h]

theorem putFresh_present {r : Record} {k : Name} (v : Value) (h : k ∈ keysOf r) :
    Record.putFresh r k v = .error .recordKeyPresent := by
  unfold Record.putFresh
  cases hg : Record.get r k with
  | none => exact absurd h ((get_eq_none_iff r k).mp hg)
  | some w => rfl

theorem acc_absent {r : Record} {k : Name} (x : F64) (h : k ∉ keysOf r) :
    Record.acc r k x = .ok (r ++ [(k, .num x)]) := by
  simp [Record.acc, (get_eq_none_iff r k).mpr h]

theorem keysOf_replace (r : Record) (k : Name) (v : Value) : keysOf (Record.replace r k v) = keysOf r := by
  simp only [keysOf, Record.replace, List.map_map]
  apply List.map_congr_left
  intro e _
  simp only [Function.comp]
  split
  · exact (‹e.1 = k›).symm
  · rfl

theorem get_append_same {r : Record} {k : Name} (v : Value) (h : k ∉ keysOf r) :
    Record.get (r ++ [(k, v)]) k = some v := by
  have := (get_eq_none_iff r k).mpr h
  simp only [Record.get, List.lookup_append] at *
  simp [this]

theorem replace_append_same {r : Record} {k : Name} (v w : Value) (h : k ∉ keysOf r) :
    Record.replace (r ++ [(k, v)]) k w = r ++ [(k, w)] := by
  simp only [Record.replace, List.map_append, List.map_cons, List.map_nil, if_true]
  congr 1
  conv_rhs => rw [← List.map_id r]
  apply List.map_congr_left
  intro e he
  rw [if_neg]
  · rfl
  · rintro rfl
    exact h (List.mem_map_of_mem he)

/-- The second half of a temperature adds to the first (R180, R181). -/
theorem acc_present {r : Record} {k : Name} (x y : F64) (h : k ∉ keysOf r) :
    Record.acc (r ++ [(k, .num y)]) k x = .ok (r ++ [(k, .num (fAdd y x))]) := by
  simp [Record.acc, get_append_same _ h, replace_append_same _ _ h]

theorem decByte_injective {a b : Byte} (h : decByte a = decByte b) : a = b := by
  have key : ∀ x : Byte,
      (match decByte x with
        | [u] => u.toNat - 48
        | [u, v] => (u.toNat - 48) * 10 + (v.toNat - 48)
        | [u, v, w] => (u.toNat - 48) * 100 + (v.toNat - 48) * 10 + (w.toNat - 48)
        | _ => 0) = x.toNat := by
    intro x
    have : ∀ n : Fin 256, (match decByte (BitVec.ofFin n) with
        | [u] => u.toNat - 48
        | [u, v] => (u.toNat - 48) * 10 + (v.toNat - 48)
        | [u, v, w] => (u.toNat - 48) * 100 + (v.toNat - 48) * 10 + (w.toNat - 48)
        | _ => 0) = n.val := by decide +kernel
    exact this x.toFin
  apply BitVec.eq_of_toNat_eq
  rw [← key a, ← key b, h]

theorem outputKey_injective {s : Name} {a b : Byte} (h : outputKey s a = outputKey s b) : a = b :=
  decByte_injective (List.append_cancel_left h)

/-- The pairs OUTBITS appends for the bits from `bit` on (R176). -/
def outbitPairs (m : ByteMapping) (b : Byte) : Nat → List Byte → Record
  | _, [] => []
  | bit, o :: os =>
    (if o = 0 then [] else [(outputKey m.fieldName o, .bool (b.getLsbD bit))]) ++ outbitPairs m b (bit + 1) os

theorem keysOf_outbitPairs (m : ByteMapping) (b : Byte) (os : List Byte) : ∀ bit,
    keysOf (outbitPairs m b bit os) = (os.filter fun o => o != 0).map (outputKey m.fieldName) := by
  induction os with
  | nil => intro bit; rfl
  | cons o os ih =>
    intro bit
    by_cases h : o = 0#8
    · simpa [outbitPairs, h] using ih (bit + 1)
    · simpa [outbitPairs, h] using ih (bit + 1)

/-- OUTBITS appends its keys when none of them is present and its outputs are distinct (R176, WF8). -/
theorem outbitsFrom_fresh (m : ByteMapping) (b : Byte) (os : List Byte) : ∀ bit r,
    (os.filter fun o => o != 0).Nodup → (∀ o ∈ os, o ≠ 0 → outputKey m.fieldName o ∉ keysOf r) →
    outbitsFrom m b bit os r = .ok (r ++ outbitPairs m b bit os) := by
  induction os with
  | nil => intro bit r _ _; simp [outbitsFrom, outbitPairs]
  | cons o os ih =>
    intro bit r hn hf
    by_cases h : o = 0#8
    · subst h
      have := ih (bit + 1) r (by simpa using hn) (fun o ho => hf o (List.mem_cons_of_mem _ ho))
      simpa [outbitsFrom, outbitOp, outbitPairs] using this
    · have hn' : o ∉ os.filter (fun o => o != 0) ∧ (os.filter fun o => o != 0).Nodup := by
        simpa [h] using hn
      have hk := hf o (by simp) h
      have := ih (bit + 1) (r ++ [(outputKey m.fieldName o, .bool (b.getLsbD bit))]) hn'.2 (by
        intro o' ho' h'
        simp only [keysOf, List.map_append, List.map_cons, List.map_nil, List.mem_append, List.mem_singleton, not_or]
        refine ⟨hf o' (List.mem_cons_of_mem _ ho') h', fun he => ?_⟩
        have := outputKey_injective he
        subst this
        exact hn'.1 (List.mem_filter.mpr ⟨ho', by simpa using h'⟩))
      simp [outbitsFrom, outbitOp, h, putFresh_absent _ hk, this, outbitPairs]

/-- OUTBITS faults when one of its keys is present or two used bits share an output (93 item 29). -/
theorem outbitsFrom_clash (m : ByteMapping) (b : Byte) (os : List Byte) : ∀ bit r,
    ¬(os.filter fun o => o != 0).Nodup ∨ (∃ o ∈ os, o ≠ 0 ∧ outputKey m.fieldName o ∈ keysOf r) →
    outbitsFrom m b bit os r = .error .recordKeyPresent := by
  induction os with
  | nil => intro bit r h; rcases h with h | ⟨o, ho, _⟩ <;> simp_all
  | cons o os ih =>
    intro bit r h
    by_cases h0 : o = 0#8
    · subst h0
      have := ih (bit + 1) r (by simpa using h)
      simpa [outbitsFrom, outbitOp] using this
    · by_cases hk : outputKey m.fieldName o ∈ keysOf r
      · simp [outbitsFrom, outbitOp, h0, putFresh_present _ hk]
      · have := ih (bit + 1) (r ++ [(outputKey m.fieldName o, .bool (b.getLsbD bit))]) (by
          simp only [keysOf, List.map_append, List.map_cons, List.map_nil, List.mem_append, List.mem_singleton] at hk ⊢
          rcases h with h | ⟨o', ho', h1, h2⟩
          · by_cases hd : (os.filter fun o => o != 0).Nodup
            · have : o ∈ os := by
                by_contra hn
                apply h
                simpa [h0, hn] using hd
              exact .inr ⟨o, this, h0, .inr rfl⟩
            · exact .inl hd
          · rcases List.mem_cons.mp ho' with rfl | ho'
            · exact absurd h2 hk
            · exact .inr ⟨o', ho', h1, .inl h2⟩)
        simp [outbitsFrom, outbitOp, h0, putFresh_absent _ hk, this]

/-! ## One slot -/

theorem controlByte_eq (m : ByteMapping) (k : MappingKind) (w : WordPosition) (hk : m.kind = k) (hw : m.wordPosition = w) :
    controlByte m = (0 : BitVec 4) ++ positionBits w ++ kindBits k := by
  rw [controlByte, hk, hw]

theorem unpackSlot_ident {m : ByteMapping} (hk : m.kind = .deviceIdentity) (hw : m.wordPosition = .none)
    (d : DeviceDefinition) (b : Byte) (r : Record) : unpackSlot d m b r = identOp d m r := by
  rw [unpackSlot, controlByte_eq m _ _ hk hw]; rfl

theorem unpackSlot_outbits {m : ByteMapping} (hk : m.kind = .outputBits) (hw : m.wordPosition = .none)
    (d : DeviceDefinition) (b : Byte) (r : Record) : unpackSlot d m b r = outbitsOp m b r := by
  rw [unpackSlot, controlByte_eq m _ _ hk hw]; rfl

theorem unpackSlot_temp {m : ByteMapping} (hk : m.kind = .temperature) (hw : m.wordPosition = .none)
    (d : DeviceDefinition) (b : Byte) (r : Record) : unpackSlot d m b r = tempOp m b r := by
  rw [unpackSlot, controlByte_eq m _ _ hk hw]; rfl

theorem unpackSlot_tempLo {m : ByteMapping} (hk : m.kind = .temperature) (hw : m.wordPosition = .low)
    (d : DeviceDefinition) (b : Byte) (r : Record) : unpackSlot d m b r = tempLoOp m b r := by
  rw [unpackSlot, controlByte_eq m _ _ hk hw]; rfl

theorem unpackSlot_tempHi {m : ByteMapping} (hk : m.kind = .temperature) (hw : m.wordPosition = .high)
    (d : DeviceDefinition) (b : Byte) (r : Record) : unpackSlot d m b r = tempHiOp m b r := by
  rw [unpackSlot, controlByte_eq m _ _ hk hw]; rfl

/-- A slot that is no half of a temperature appends exactly its keys, none of which is present. -/
theorem unpackSlot_fresh {m : ByteMapping} (hw : m.wordPosition = .none) (ho : outputsDistinct m = true)
    (d : DeviceDefinition) (b : Byte) (r : Record) (hf : ∀ k ∈ slotKeys m, k ∉ keysOf r) :
    ∃ r', unpackSlot d m b r = .ok r' ∧ keysOf r' = keysOf r ++ slotKeys m := by
  cases hk : m.kind with
  | deviceIdentity =>
    have hs : slotKeys m = [m.fieldName] := by simp [slotKeys, hk]
    refine ⟨r ++ [(m.fieldName, .str d.deviceTypeName)], ?_, by simp [keysOf, hs]⟩
    rw [unpackSlot_ident hk hw]
    exact putFresh_absent _ (hf _ (by simp [hs]))
  | temperature =>
    have hs : slotKeys m = [m.fieldName] := by simp [slotKeys, hk]
    refine ⟨r ++ [(m.fieldName, .num (scaledByte b m.scale))], ?_, by simp [keysOf, hs]⟩
    rw [unpackSlot_temp hk hw]
    exact putFresh_absent _ (hf _ (by simp [hs]))
  | outputBits =>
    have hs : slotKeys m = (usedOutputs m).map (outputKey m.fieldName) := by simp [slotKeys, hk]
    have hn : (usedOutputs m).Nodup := by simpa [outputsDistinct, hk] using ho
    refine ⟨r ++ outbitPairs m b 0 m.bitToOutputIndex.toList, ?_, ?_⟩
    · rw [unpackSlot_outbits hk hw]
      refine outbitsFrom_fresh m b _ 0 r hn fun o ho hne => hf _ ?_
      rw [hs]
      exact List.mem_map_of_mem (by simp [usedOutputs]; exact ⟨by simpa using ho, hne⟩)
    · have := keysOf_outbitPairs m b m.bitToOutputIndex.toList 0
      simp only [keysOf, List.map_append] at *
      rw [this, hs]; rfl

theorem isPair_cases {m m' : ByteMapping} (h : isPair m m' = true) :
    m.kind = .temperature ∧ m'.kind = .temperature ∧ m.fieldName = m'.fieldName ∧
      ((m.wordPosition = .low ∧ m'.wordPosition = .high) ∨ (m.wordPosition = .high ∧ m'.wordPosition = .low)) := by
  simpa [isPair, and_assoc] using h

/-- The two halves of a temperature leave one new key (R181). -/
theorem unpackSlot_pair {m m' : ByteMapping} (hp : isPair m m' = true) (d : DeviceDefinition) (b b' : Byte) (r : Record)
    (hf : m.fieldName ∉ keysOf r) :
    ∃ r₁ r₂, unpackSlot d m b r = .ok r₁ ∧ unpackSlot d m' b' r₁ = .ok r₂ ∧ keysOf r₂ = keysOf r ++ [m.fieldName] := by
  obtain ⟨hk, hk', hn, ⟨hw, hw'⟩ | ⟨hw, hw'⟩⟩ := isPair_cases hp
  · refine ⟨r ++ [(m.fieldName, .num (scaledByte b m.scale))],
      r ++ [(m.fieldName, .num (fAdd (scaledByte b m.scale) (highTerm (scaledByte b' m'.scale))))], ?_, ?_, by simp [keysOf]⟩
    · rw [unpackSlot_tempLo hk hw, tempLoOp, acc_absent _ hf]
    · rw [unpackSlot_tempHi hk' hw', tempHiOp, ← hn, acc_present _ _ hf]
  · refine ⟨r ++ [(m.fieldName, .num (highTerm (scaledByte b m.scale)))],
      r ++ [(m.fieldName, .num (fAdd (highTerm (scaledByte b m.scale)) (scaledByte b' m'.scale)))], ?_, ?_, by simp [keysOf]⟩
    · rw [unpackSlot_tempHi hk hw, tempHiOp, acc_absent _ hf]
    · rw [unpackSlot_tempLo hk' hw', tempLoOp, ← hn, acc_present _ _ hf]

/-! ## The loop -/

/-- The keys of slots, each half of a temperature counted once (R185). -/
def definitionKeys : List ByteMapping → List Name
  | [] => []
  | [m] => slotKeys m
  | m :: m' :: rest =>
    if m.wordPosition == .none then slotKeys m ++ definitionKeys (m' :: rest) else slotKeys m ++ definitionKeys rest

theorem keysApart_iff (m : ByteMapping) (ms : List ByteMapping) :
    keysApart m ms = true ↔ ∀ k ∈ slotKeys m, ∀ m' ∈ ms, k ∉ slotKeys m' := by
  simp [keysApart]

theorem drop_eq_cons {ms : List ByteMapping} {i : Nat} {m : ByteMapping} {rest : List ByteMapping}
    (h : ms.drop i = m :: rest) : ms[i]? = some m ∧ ms.drop (i + 1) = rest := by
  constructor
  · have := congrArg List.head? h
    simpa [List.head?_drop] using this
  · have := congrArg List.tail h
    simpa [List.tail_drop] using this

/-- The loop over slots that keep WF5, WF7 and WF8 ends with the record's keys those of the slots (R185). -/
theorem unpackSlots_ok (d : DeviceDefinition) (buf : Memory) (ms : List ByteMapping) : ∀ i r,
    d.byteMappings.drop i = ms → (∀ j, j < i + ms.length → ∃ b, buf.read j = some b) →
    slotsApart ms = true → (∀ m ∈ ms, outputsDistinct m = true) →
    (∀ m ∈ ms, ∀ k ∈ slotKeys m, k ∉ keysOf r) →
    ∃ r', unpackSlots d buf ms.length i r = .ok r' ∧ keysOf r' = keysOf r ++ definitionKeys ms := by
  induction ms using slotsApart.induct with
  | case1 => intro i r _ _ _ _ _; exact ⟨r, rfl, by simp [definitionKeys]⟩
  | case2 m =>
    intro i r hd hb ha ho hf
    obtain ⟨b, hb⟩ := hb i (by simp)
    have hw : m.wordPosition = .none := by simpa [slotsApart] using ha
    obtain ⟨r', h1, h2⟩ := unpackSlot_fresh hw (ho m (by simp)) d b r (hf m (by simp))
    refine ⟨r', ?_, by simpa [definitionKeys] using h2⟩
    simp [unpackSlots, hb, (drop_eq_cons hd).1, h1]
  | case3 m m' rest hw ih =>
    intro i r hd hb ha ho hf
    have hw' : m.wordPosition = .none := by simpa using hw
    rw [slotsApart, if_pos hw] at ha
    simp only [Bool.and_eq_true] at ha
    obtain ⟨b, hbi⟩ := hb i (by simp)
    obtain ⟨r₁, h1, h2⟩ := unpackSlot_fresh hw' (ho m (by simp)) d b r (hf m (by simp))
    obtain ⟨r₂, h3, h4⟩ := ih (i + 1) r₁ (drop_eq_cons hd).2 (fun j hj => hb j (by simp at *; omega)) ha.2
      (fun x hx => ho x (List.mem_cons_of_mem _ hx)) (by
        intro x hx k hk
        rw [h2, List.mem_append, not_or]
        exact ⟨hf x (List.mem_cons_of_mem _ hx) k hk, fun hm => (keysApart_iff _ _).mp ha.1 k hm x hx hk⟩)
    refine ⟨r₂, ?_, by rw [h4, h2, definitionKeys, if_pos hw, List.append_assoc]⟩
    rw [List.length_cons, unpackSlots, hbi, (drop_eq_cons hd).1]
    simp only [h1]
    exact h3
  | case4 m m' rest hw ih =>
    intro i r hd hb ha ho hf
    rw [slotsApart, if_neg hw] at ha
    simp only [Bool.and_eq_true] at ha
    obtain ⟨⟨hp, hap⟩, hrest⟩ := ha
    obtain ⟨b, hbi⟩ := hb i (by simp)
    obtain ⟨b', hbi'⟩ := hb (i + 1) (by simp)
    have hkt := (isPair_cases hp).1
    have hsk : slotKeys m = [m.fieldName] := by simp [slotKeys, hkt]
    obtain ⟨r₁, r₂, h1, h2, h3⟩ := unpackSlot_pair hp d b b' r (hf m (by simp) _ (by simp [hsk]))
    have hd1 := drop_eq_cons hd
    have hd2 := drop_eq_cons hd1.2
    obtain ⟨r₃, h4, h5⟩ := ih (i + 1 + 1) r₂ hd2.2 (fun j hj => hb j (by simp at *; omega)) hrest
      (fun x hx => ho x (by simp [hx])) (by
        intro x hx k hk
        rw [h3, List.mem_append, not_or]
        refine ⟨hf x (by simp [hx]) k hk, fun hm => ?_⟩
        exact (keysApart_iff _ _).mp hap k (by simpa [hsk] using hm) x hx hk)
    refine ⟨r₃, ?_, by rw [h5, h3, definitionKeys, if_neg hw, hsk, List.append_assoc]⟩
    simp only [List.length_cons, unpackSlots, hbi, hd1.1, h1, hbi', hd2.1, h2]
    exact h4

/-- One slot of the loop. -/
theorem unpackSlots_slot {d : DeviceDefinition} {buf : Memory} {n i : Nat} {b : Byte} {m : ByteMapping} {r r' : Record}
    (hb : buf.read i = some b) (hm : d.byteMappings[i]? = some m) (hu : unpackSlot d m b r = .ok r') :
    unpackSlots d buf (n + 1) i r = unpackSlots d buf n (i + 1) r' := by
  simp [unpackSlots, hb, hm, hu]

/-- A Low slot and its High slot add one pair to the record (R59, R181). -/
theorem unpackSlots_lowHigh {d : DeviceDefinition} {buf : Memory} {n i : Nat} {b b' : Byte} {m m' : ByteMapping} {r : Record}
    (hb : buf.read i = some b) (hb' : buf.read (i + 1) = some b') (hm : d.byteMappings[i]? = some m)
    (hm' : d.byteMappings[i + 1]? = some m') (hk : m.kind = .temperature) (hk' : m'.kind = .temperature)
    (hw : m.wordPosition = .low) (hw' : m'.wordPosition = .high) (hn : m'.fieldName = m.fieldName)
    (hf : m.fieldName ∉ keysOf r) :
    unpackSlots d buf (n + 2) i r
      = unpackSlots d buf n (i + 2)
          (r ++ [(m.fieldName, .num (fAdd (scaledByte b m.scale) (highTerm (scaledByte b' m'.scale))))]) := by
  rw [unpackSlots_slot hb hm ((unpackSlot_tempLo hk hw _ _ _).trans (acc_absent _ hf))]
  refine unpackSlots_slot hb' hm' ((unpackSlot_tempHi hk' hw' _ _ _).trans ?_)
  rw [tempHiOp, hn]
  exact acc_present _ _ hf

/-! ## DECODE -/

theorem regLookup_mem {reg : Registry} {code : Byte} {d : DeviceDefinition} (h : regLookup reg code = some d) :
    (code, d) ∈ reg := by
  induction reg with
  | nil => simp [regLookup] at h
  | cons e es ih =>
    obtain ⟨a, x⟩ := e
    simp only [regLookup, List.lookup_cons] at *
    by_cases hc : code = a
    · subst hc
      simp at h
      simp [h]
    · rw [beq_eq_false_iff_ne.mpr hc] at h
      exact List.mem_cons_of_mem _ (ih h)

/-- The checks of R184 that the unpacker rests on, for a definition of a checked configuration. -/
theorem definition_of_lookup {c : Config} (hc : configOk c = true) {code : Byte} {d : DeviceDefinition}
    (h : regLookup c.registry code = some d) : definitionOk d = true ∧ d.expectedByteCount.toNat < c.bufCap := by
  simp only [configOk, capOk, Bool.and_eq_true, List.all_eq_true, decide_eq_true_eq] at hc
  exact ⟨hc.1.2 _ (regLookup_mem h), hc.2.2 _ (regLookup_mem h)⟩

/-- DECODE never faults on a checked configuration and a buffer that keeps R30 (f) (R183, R185, R186). -/
theorem decodeFrame_ok {c : Config} (hc : configOk c = true) {buf : Memory} {n : U32} (hw : buf.wf = true)
    (hl : buf.length = min n.toNat c.bufCap) : ∃ r, decodeFrame c.registry buf n = .ok r := by
  unfold decodeFrame
  by_cases hn : n = 0
  · exact ⟨_, by rw [if_pos hn]⟩
  rw [if_neg hn]
  have hcap : 0 < c.bufCap := by
    simp only [configOk, capOk, Bool.and_eq_true, decide_eq_true_eq] at hc; exact hc.2.1
  have hn0 : n.toNat ≠ 0 := fun h => hn (BitVec.eq_of_toNat_eq (by simpa using h))
  obtain ⟨code, h0⟩ := read_isSome buf hw (i := 0) (by omega)
  simp only [h0]
  cases hd : regLookup c.registry code with
  | none => exact ⟨_, rfl⟩
  | some d =>
    simp only
    obtain ⟨hdef, hlt⟩ := definition_of_lookup hc hd
    by_cases he : n.toNat = d.expectedByteCount.toNat
    · rw [if_neg (by simpa using he)]
      simp only [definitionOk, countOk, Bool.and_eq_true, beq_iff_eq, List.all_eq_true, decide_eq_true_eq] at hdef
      obtain ⟨⟨⟨⟨⟨⟨hcount, _⟩, _⟩, _⟩, hap⟩, hout⟩, _⟩ := hdef
      obtain ⟨r, hr, _⟩ := unpackSlots_ok d buf d.byteMappings 0 [] rfl
        (fun j hj => read_isSome buf hw (by omega)) hap hout (by simp)
      rw [hcount.2] at hr
      exact ⟨_, by rw [hr]⟩
    · exact ⟨_, by rw [if_pos (by simpa using he)]⟩

/-- What FINALIZE does: it raises the one event of the decode result (R127). -/
theorem finalize_ok {s : State} (hc : configOk s.cfg = true) (hw : s.buf.wf = true)
    (hl : s.buf.length = min s.frameLen.toNat s.cfg.bufCap) :
    ∃ r, decodeFrame s.cfg.registry s.buf s.frameLen = .ok r ∧ finalize s = .ok (s.raise (finalEvent s.cfg.controllerId r)) := by
  obtain ⟨r, hr⟩ := decodeFrame_ok hc hw hl
  exact ⟨r, hr, by simp [finalize, hr]⟩

end Sys2Proof.Laws
end

