-- ==== Sys2Proof/Laws/Edge.lean ====
section
/-! SUPPORT. What each sub-step of an edge does in a ready state, by the operation it selects (41_frame_assembler.md R120 to R140). -/

namespace Sys2Proof.Laws

open Sys2Proof.Machine

/-! ## The operations of S2 and S3 -/

/-- SYNC_MARKER in a ready state: one event, and the registers of R126. -/
theorem syncMarker_ready {s : State} (ts : U32) (hr : Ready s) :
    ∃ r, decodeFrame s.cfg.registry s.buf s.frameLen = .ok r
      ∧ syncMarker ts s
        = .ok { s with
                run := 0, synced := true, bitIndex := 0, buf := [], frameLen := 0, lastBitTs := ts
                events := s.events ++ [finalEvent s.cfg.controllerId r] } := by
  obtain ⟨r, h1, h2⟩ := finalize_ok hr.2.1 hr.2.2.2.2.2.2.2.1 hr.2.2.2.2.2.2.2.2
  exact ⟨r, h1, by simp only [syncMarker, h2]; rfl⟩

/-- Below the bound of R30 (c) the selector's four bits show all of `BIT_INDEX`. -/
theorem bitIndex_of_ready {s : State} {k : BitVec 4} (hi : RegInv s) (h : s.bitIndex.setWidth 4 = k) :
    s.bitIndex = k.setWidth 8 :=
  bitIndex_of_field (by have := hi.2.2.1; omega) h

/-- While a byte is assembled and stored, it can be read and its bits from the next data bit up are 0 (R30 (d) to (f)). -/
theorem partial_byte {s : State} (hi : RegInv s) (hb : s.bitIndex ≠ 0) (hc : s.frameLen.toNat ≤ s.cfg.bufCap) :
    ∃ b, s.memRead (s.frameLen.toNat - 1) = some b ∧ b >>> (s.bitIndex.toNat - 1) = 0 := by
  obtain ⟨_, _, _, h4, h5, h6, h7⟩ := hi
  have hf : s.frameLen.toNat ≠ 0 := fun h => (h4 hb).2 (BitVec.eq_of_toNat_eq (by simpa using h))
  obtain ⟨b, hr⟩ := read_isSome s.buf h6 (i := s.frameLen.toNat - 1) (by omega)
  exact ⟨b, hr, by simpa [partialRest, State.memRead, hr] using h5 hb hc⟩

theorem dataContribution_eq (k : Nat) (l : Bool) :
    dataContribution (k + 1) l = if l then 0 else BitVec.twoPow 8 (k - 1) := by
  cases l
  · apply BitVec.eq_of_toNat_eq
    simp [dataContribution, BitVec.twoPow, Nat.shiftLeft_eq]
  · simp [dataContribution]

/-- Adding a bit above a byte is setting it. -/
theorem add_twoPow_eq_or (b : Byte) (j : Nat) (h : b >>> j = 0) : b + BitVec.twoPow 8 j = b ||| BitVec.twoPow 8 j := by
  apply BitVec.add_eq_or_of_and_eq_zero
  ext i hi
  have := congrArg (fun x => x.getLsbD 0) h
  simp only [BitVec.getLsbD_ushiftRight, Nat.add_zero] at this
  simp only [BitVec.getElem_and, BitVec.getElem_twoPow, Bool.and_eq_false_imp, BitVec.getElem_zero]
  intro hb
  by_contra he
  simp only [Bool.not_eq_false, decide_eq_true_eq] at he
  subst he
  simp_all

/-- DATA_BIT never faults in a ready state in which a byte is assembled (R137). -/
theorem dataBit_ready {s : State} (n : BitVec 8) (level : Bool) (hi : RegInv s) (hb : s.bitIndex ≠ 0) :
    ∃ buf, (buf = s.buf ∨ ∃ b, s.memRead (s.frameLen.toNat - 1) = some b
        ∧ buf = s.buf.write (s.frameLen.toNat - 1) (b + dataContribution n.toNat level))
      ∧ dataBit n level s = .ok { s with buf := buf, bitIndex := n } := by
  unfold dataBit
  split
  · obtain ⟨b, h1, _⟩ := partial_byte hi hb ‹_›
    simp only [h1]
    exact ⟨_, .inr ⟨b, rfl, rfl⟩, rfl⟩
  · exact ⟨_, .inl rfl, rfl⟩

/-! ## The sub-steps -/

/-- S1: the category of the operand (R110, R122). -/
theorem classifyStep_eq (d : U32) (s : State) :
    classifyStep d s = .next { s with work := { s.work with classIn := d, classOut := classify d } } := by
  unfold classifyStep
  have : ∀ c, classify d = c → dispatchSel (.category (categoryCode c)) { s with work := { s.work with classIn := d } }
      = .next { s with work := { s.work with classIn := d, classOut := c } } := by
    intro c h
    cases c <;> simp [dispatchSel, decodeSel, decodeCategory, categoryCode, runSelected, execPcShort, execPcLong,
      execPcInvalid, giveCategory, h]
  exact this _ rfl

/-- S2 in a ready state is S2 of R120 on the edge's level and category. -/
theorem syncStep_ready {s : State} (hr : Ready s) :
    syncStep s = toOutcome (r120S2 s.work.level s.work.classOut s.work.dur s.work.ts s) := by
  unfold syncStep dispatchSel
  have key : ∀ l c z, s.work.level = l → s.work.classOut = c → runIsFull s = z →
      (match decodeSel (.sync (encodeSync l (categoryCode c) z)) with
        | .ok i => runSelected i s
        | .error r => .fault (rejectFault r))
      = toOutcome (r120S2 l c s.work.dur s.work.ts s) := by
    intro l c z hl hc hz
    have hsel : syncSel s = encodeSync l (categoryCode c) z := by rw [syncSel, hl, hc, hz]
    have ready : ∀ op t, op s = .ok t → onSyncSel (encodeSync l (categoryCode c) z) op s = .next t :=
      fun op t => onSyncSel_ready hr hsel
    have hinv : (fun s => Except.ok (raiseInvalid { s with run := 0 })) s
        = (.ok (({ s with run := 0 } : State).raise (.invalidPulse l s.work.dur s.work.ts)) : Except Fault State) := by
      simp only [raiseInvalid, hl]
    cases l <;> cases c <;> cases z
    · exact ready (fun s => .ok (raiseInvalid { s with run := 0 })) _ hinv
    · exact ready (fun s => .ok (raiseInvalid { s with run := 0 })) _ hinv
    · exact ready (fun s => .ok s) _ rfl
    · exact ready (fun s => .ok s) _ rfl
    · exact ready (fun s => .ok s) _ rfl
    · exact ready (fun s => .ok s) _ rfl
    · exact ready (fun s => .ok (raiseInvalid { s with run := 0 })) _ hinv
    · exact ready (fun s => .ok (raiseInvalid { s with run := 0 })) _ hinv
    · have hn : s.run ≠ 15 := fun h => by rw [(runIsFull_iff s).mpr h] at hz; cases hz
      simp only [r120S2, hn, if_false, and_self, if_true, reduceCtorEq]
      exact ready (fun s => .ok { s with run := s.run + 1 }) _ rfl
    · have hy : s.run = 15 := (runIsFull_iff s).mp hz
      obtain ⟨r, _, hm⟩ := syncMarker_ready s.work.ts hr
      simp only [r120S2, hy, and_self, if_true, hm, reduceCtorEq, if_false]
      exact ready (fun s => syncMarker s.work.ts s) _ (by rw [hm])
    · exact ready (fun s => .ok { s with run := 0 }) _ rfl
    · exact ready (fun s => .ok { s with run := 0 }) _ rfl
  exact key _ _ _ rfl rfl rfl

/-- The bit dispatch at a boundary, in a ready state, is that of R120 (R134). -/
theorem boundaryStep_ready {s : State} {ts : U32} (hr : Ready s) (hb : atBoundary s = true) (hts : s.work.ts = ts)
    (hlong : classify (ts - s.lastBitTs) = .long) :
    boundaryStep ts s = toOutcome (r120S3 s.work.level ts s) := by
  have hsync : s.synced = true := by
    simp only [atBoundary, Bool.and_eq_true] at hb; exact hb.1
  have hr' : Ready { s with lastBitTs := ts } := hr
  unfold boundaryStep dispatchSel
  rw [r120S3, if_pos ⟨hsync, hlong⟩]
  have key : ∀ k : Fin 10, ∀ l, s.bitIndex = BitVec.ofNat 8 k.val → s.work.level = l →
      (match decodeSel (.bit (encodeBit (BitVec.ofNat 4 k.val) l)) with
        | .ok i => runSelected i { s with lastBitTs := ts }
        | .error r => .fault (rejectFault r))
      = toOutcome
        (if BitVec.ofNat 8 k.val + 1 = 1 then
            (if l then .ok (startOk { s with lastBitTs := ts }) else .ok (startFail ts { s with lastBitTs := ts }))
          else if (BitVec.ofNat 8 k.val + 1).toNat ≤ 9 then
            dataBit (BitVec.ofNat 8 k.val + 1) l { s with lastBitTs := ts }
          else if l then .ok (stopFail ts { s with lastBitTs := ts })
          else .ok (stopOk { s with lastBitTs := ts })) := by
    intro k l hk hl
    have ready : ∀ op t, op { s with lastBitTs := ts } = .ok t →
        onBitSel (BitVec.ofNat 4 k.val) l op { s with lastBitTs := ts } = .next t := by
      intro op t
      refine onBitSel_ready hr' hb ?_
      simp only [bitSel, hk, hl]
      congr 1
      clear hk; revert k; decide
    have data : ∀ n, s.bitIndex ≠ 0 → onBitSel (BitVec.ofNat 4 k.val) l (dataBit n l) { s with lastBitTs := ts }
        = toOutcome (dataBit n l { s with lastBitTs := ts }) := by
      intro n hne
      obtain ⟨buf, _, hd⟩ := dataBit_ready n l hr'.2.2 hne
      rw [hd]
      exact ready _ _ hd
    have hk0 : k.val ≠ 0 → s.bitIndex ≠ 0 := by
      rw [hk]; clear ready data hk; revert k; decide
    fin_cases k
    · cases l
      · exact ready (fun s => .ok (startFail s.work.ts s)) _ (by simp only [hts])
      · exact ready (fun s => .ok (startOk s)) _ rfl
    · cases l <;> exact data 2 (hk0 (by decide))
    · cases l <;> exact data 3 (hk0 (by decide))
    · cases l <;> exact data 4 (hk0 (by decide))
    · cases l <;> exact data 5 (hk0 (by decide))
    · cases l <;> exact data 6 (hk0 (by decide))
    · cases l <;> exact data 7 (hk0 (by decide))
    · cases l <;> exact data 8 (hk0 (by decide))
    · cases l <;> exact data 9 (hk0 (by decide))
    · cases l
      · exact ready (fun s => .ok (stopOk s)) _ rfl
      · exact ready (fun s => .ok (stopFail s.work.ts s)) _ (by simp only [hts])
  have hlt : s.bitIndex.toNat < 10 := by have := hr.2.2.2.2.1; omega
  have h8 : s.bitIndex = BitVec.ofNat 8 (⟨s.bitIndex.toNat, hlt⟩ : Fin 10).val := by simp
  have h4 : bitSel s = encodeBit (BitVec.ofNat 4 (⟨s.bitIndex.toNat, hlt⟩ : Fin 10).val) s.work.level := by
    simp [bitSel, BitVec.ofNat_toNat]
  have := key _ _ h8 rfl
  rw [← h4, ← h8] at this
  exact this

/-- S3 in a ready state is S3 of R120, with the classifier's operand and result left behind while synced. -/
theorem bitStep_ready {s : State} {ts : U32} (hr : Ready s) (hts : s.work.ts = ts) :
    ∃ w, bitStep ts s = toOutcome (r120S3 s.work.level ts { s with work := w }) := by
  rcases Bool.eq_false_or_eq_true s.synced with hsync | hsync
  · refine ⟨{ s.work with classIn := bitInterval s ts, classOut := classify (bitInterval s ts) }, ?_⟩
    rw [bitStep, if_pos hsync, classifyStep_eq, andThen_next]
    by_cases hlong : classify (bitInterval s ts) = .long
    · rw [if_pos hlong]
      exact boundaryStep_ready (s := { s with work := _ }) hr (by simp only [atBoundary, hsync, hlong]; rfl) hts hlong
    · rw [if_neg hlong, r120S3, if_neg fun h => hlong h.2]
      rfl
  · exact ⟨s.work, by rw [bitStep, if_neg (by simp [hsync]), r120S3, if_neg (by simp [hsync])]; rfl⟩

/-! ## The pseudocode does not look at the values of the step in progress -/

/-- An outcome of registers with other step-local values in it. -/
def withWork (w : Work) : Except Fault State → Except Fault State
  | .ok s => .ok { s with work := w }
  | .error f => .error f

theorem r120S2_work (level : Bool) (c : PulseCategory) (dur ts : U32) (s : State) (w : Work) :
    r120S2 level c dur ts { s with work := w } = withWork w (r120S2 level c dur ts s) := by
  have hm : syncMarker ts { s with work := w } = withWork w (syncMarker ts s) := by
    unfold syncMarker finalize
    cases decodeFrame s.cfg.registry s.buf s.frameLen <;> rfl
  unfold r120S2
  rw [hm]
  cases level <;> cases c
  case true.short =>
    simp only [and_self, if_true, reduceCtorEq, if_false]
    split_ifs
    · cases syncMarker ts s <;> rfl
    · rfl
  all_goals rfl

theorem r120S3_work (level : Bool) (ts : U32) (s : State) (w : Work) :
    r120S3 level ts { s with work := w } = withWork w (r120S3 level ts s) := by
  have hd : ∀ n (s : State), dataBit n level { s with work := w } = withWork w (dataBit n level s) := by
    intro n s
    unfold dataBit
    by_cases h : s.frameLen.toNat ≤ s.cfg.bufCap
    · simp only [h, if_true, State.memRead]
      cases s.buf.read (s.frameLen.toNat - 1) <;> rfl
    · simp only [h, if_false]; rfl
  have hl : ∀ s : State, ({ s with work := w } : State).bufDropLast = { s.bufDropLast with work := w } := by
    intro s
    unfold State.bufDropLast
    dsimp only
    split_ifs <;> rfl
  unfold r120S3
  dsimp only
  split_ifs
  · rfl
  · rfl
  · exact hd _ { s with lastBitTs := ts }
  · have := hl { s with lastBitTs := ts }
    simp only [stopFail, syncLoss, State.raise, withWork] at *
    rw [this]
  · rfl
  · rfl

/-! ## The sub-steps keep R30 -/

theorem toNat_ne_zero {n : U32} (h : n ≠ 0) : n.toNat ≠ 0 := fun h' => h (BitVec.eq_of_toNat_eq (by simpa using h'))

theorem toNat_sub_one {n : U32} (h : n ≠ 0) : (n - 1).toNat = n.toNat - 1 := by
  have := toNat_ne_zero h
  have := n.isLt
  rw [BitVec.toNat_sub]; simp; omega

theorem toNat_frameLenSucc (n : U32) : (frameLenSucc n).toNat = min (n.toNat + 1) (2 ^ 32 - 1) := by
  unfold frameLenSucc
  have := n.isLt
  split_ifs with h
  · subst h; decide
  · have : n.toNat ≠ 2 ^ 32 - 1 := fun h' => h (BitVec.eq_of_toNat_eq (by simpa using h'))
    rw [BitVec.toNat_add]; simp; omega

/-- BufAppend on a buffer that keeps R30 (f): its length, and the byte it stores. -/
theorem bufAppend_spec {s : State} (v : Byte) (hw : s.buf.wf = true) (hl : s.buf.length = min s.frameLen.toNat s.cfg.bufCap) :
    (s.bufAppend v).buf.wf = true
      ∧ (s.bufAppend v).buf.length = min (s.frameLen.toNat + 1) s.cfg.bufCap
      ∧ (s.frameLen.toNat < s.cfg.bufCap → (s.bufAppend v).memRead s.frameLen.toNat = some v)
      ∧ (s.cfg.bufCap ≤ s.frameLen.toNat → (s.bufAppend v).buf = s.buf)
      ∧ ∀ a, a ≠ s.frameLen.toNat → (s.bufAppend v).memRead a = s.memRead a := by
  by_cases h : s.frameLen.toNat < s.cfg.bufCap
  · have he : s.frameLen.toNat = s.buf.length := by omega
    have hb : (s.bufAppend v).buf = s.buf ++ [(s.buf.length, v)] := by simp [State.bufAppend, he]; omega
    refine ⟨by rw [hb]; exact wf_append _ hw v, by rw [hb]; simp; omega, fun _ => ?_, fun h' => by omega, fun a ha => ?_⟩
    · rw [State.memRead, hb, he]; exact read_append_same _ hw v
    · rw [State.memRead, hb]; exact read_append_other _ hw v (he ▸ ha)
  · have hb : (s.bufAppend v).buf = s.buf := by simp [State.bufAppend, h]
    exact ⟨by rw [hb]; exact hw, by rw [hb]; omega, fun h' => absurd h' h, fun _ => hb, fun a _ => by rw [State.memRead, hb]; rfl⟩

/-- BufDropLast on a buffer that keeps R30 (f) and is not empty. -/
theorem bufDropLast_spec {s : State} (hf : s.frameLen ≠ 0) (hw : s.buf.wf = true)
    (hl : s.buf.length = min s.frameLen.toNat s.cfg.bufCap) :
    s.bufDropLast = { s with
        buf := if s.frameLen.toNat ≤ s.cfg.bufCap then s.buf.dropLast else s.buf
        frameLen := s.frameLen - 1 }
      ∧ s.bufDropLast.buf.wf = true
      ∧ s.bufDropLast.buf.length = min (s.frameLen.toNat - 1) s.cfg.bufCap
      ∧ ∀ a, a ≠ s.frameLen.toNat - 1 → s.bufDropLast.memRead a = s.memRead a := by
  have h0 := toNat_ne_zero hf
  have he : s.bufDropLast = { s with
        buf := if s.frameLen.toNat ≤ s.cfg.bufCap then s.buf.dropLast else s.buf
        frameLen := s.frameLen - 1 } := by simp only [State.bufDropLast, if_neg hf]
  refine ⟨he, ?_⟩
  rw [he]
  by_cases h : s.frameLen.toNat ≤ s.cfg.bufCap
  · simp only [h, if_true, State.memRead]
    refine ⟨wf_dropLast _ hw, by rw [List.length_dropLast]; omega, fun a ha => ?_⟩
    exact read_dropLast_other _ hw (by omega)
  · simp only [h, if_false, State.memRead]
    exact ⟨hw, by omega, fun a _ => trivial⟩

theorem run_succ_le {n : U32} (h1 : n.toNat ≤ 15) (h2 : n ≠ 15) : (n + 1).toNat ≤ 15 := by
  have : n.toNat ≠ 15 := fun h => h2 (BitVec.eq_of_toNat_eq (by simpa using h))
  rw [BitVec.toNat_add]; simp; omega

/-- S2 completes in a ready state, and leaves a ready state. -/
theorem r120S2_ready {s : State} (level : Bool) (c : PulseCategory) (dur ts : U32) (hr : Ready s) :
    ∃ t, r120S2 level c dur ts s = .ok t ∧ Ready t ∧ SameOutside s t ∧ t.lastEdgeTs = s.lastEdgeTs := by
  have zero : Ready { s with run := 0 } := ⟨hr.1, hr.2.1, Nat.zero_le _, hr.2.2.2⟩
  cases level <;> cases c
  · exact ⟨_, rfl, zero, ⟨rfl, rfl, rfl, rfl⟩, rfl⟩
  · exact ⟨_, rfl, hr, ⟨rfl, rfl, rfl, rfl⟩, rfl⟩
  · exact ⟨_, rfl, hr, ⟨rfl, rfl, rfl, rfl⟩, rfl⟩
  · exact ⟨_, rfl, zero, ⟨rfl, rfl, rfl, rfl⟩, rfl⟩
  · obtain ⟨r, _, hm⟩ := syncMarker_ready ts hr
    simp only [r120S2, and_self, if_true, reduceCtorEq, if_false]
    split_ifs with h
    · rw [hm]
      exact ⟨_, rfl, ⟨hr.1, hr.2.1, by simp, by simp, by simp, by simp, by simp, wf_nil, by simp⟩, ⟨rfl, rfl, rfl, rfl⟩,
        rfl⟩
    · exact ⟨_, rfl, ⟨hr.1, hr.2.1, run_succ_le hr.2.2.1 h, hr.2.2.2⟩, ⟨rfl, rfl, rfl, rfl⟩, rfl⟩
  · exact ⟨_, rfl, zero, ⟨rfl, rfl, rfl, rfl⟩, rfl⟩

theorem startOk_regInv {s : State} (hi : RegInv s) (hcap : CapBelowSaturation s ∨ s.frameLen.toNat < 2 ^ 32 - 1)
    (hs : s.synced = true) :
    RegInv (startOk s) := by
  obtain ⟨h1, _, _, _, _, h6, h7⟩ := hi
  obtain ⟨hw, hl, hst, _, _⟩ := bufAppend_spec 0 h6 h7
  have hn := toNat_frameLenSucc s.frameLen
  have hf : (startOk s).frameLen.toNat = min (s.frameLen.toNat + 1) (2 ^ 32 - 1) := hn
  simp only [CapBelowSaturation] at hcap
  refine ⟨h1, fun h => ?_, (by decide : (1 : BitVec 8).toNat ≤ 9), fun _ => ⟨hs, fun h => ?_⟩, fun _ hc => ?_, hw, ?_⟩
  · rw [show (startOk s).synced = s.synced from rfl, hs] at h; cases h
  · rw [h] at hf; simp at hf; omega
  · rw [hf] at hc
    have hc' : min (s.frameLen.toNat + 1) (2 ^ 32 - 1) ≤ s.cfg.bufCap := hc
    have hr : (startOk s).memRead ((startOk s).frameLen.toNat - 1) = some 0 := by
      rw [hf, show min (s.frameLen.toNat + 1) (2 ^ 32 - 1) - 1 = s.frameLen.toNat by omega]
      exact hst (by omega)
    simp only [partialRest, hr]
    simp
  · rw [hf]
    show (s.bufAppend 0).buf.length = min _ s.cfg.bufCap
    rw [hl]; omega

theorem dataBit_regInv {s t : State} {level : Bool} (hi : RegInv s) (hb : s.bitIndex ≠ 0) (h9 : (s.bitIndex + 1).toNat ≤ 9)
    (h : dataBit (s.bitIndex + 1) level s = .ok t) : RegInv t := by
  have hk : s.bitIndex.toNat ≠ 0 := fun h => hb (BitVec.eq_of_toNat_eq (by simpa using h))
  have h3 := hi.2.2.1
  have hn : (s.bitIndex + 1).toNat = s.bitIndex.toNat + 1 := by
    rw [BitVec.toNat_add]; simp; omega
  have hne : s.bitIndex + 1 ≠ 0 := fun h => by have := congrArg BitVec.toNat h; rw [hn] at this; simp at this
  have hsf := hi.2.2.2.1 hb
  unfold dataBit at h
  split at h
  · rename_i hc
    obtain ⟨b, h1, h2⟩ := partial_byte hi hb hc
    simp only [h1, Except.ok.injEq] at h
    subst h
    refine ⟨hi.1, fun h => ?_, h9, fun _ => hsf, fun _ _ => ?_, wf_write _ hi.2.2.2.2.2.1 _ _, ?_⟩
    · rw [show s.synced = false from h] at hsf; cases hsf.1
    · have hr : (s.memWrite (s.frameLen.toNat - 1) (b + dataContribution (s.bitIndex + 1).toNat level)).memRead
          (s.frameLen.toNat - 1) = some (b + dataContribution (s.bitIndex + 1).toNat level) :=
        read_write_same _ _ h1
      simp only [partialRest, State.memRead, State.memWrite] at *
      rw [hr]
      simp only
      rw [hn, dataContribution_eq]
      cases level
      · simp only [Bool.false_eq_true, if_false]
        rw [add_twoPow_eq_or _ _ h2, BitVec.ushiftRight_or_distrib]
        have e : s.bitIndex.toNat + 1 - 1 = (s.bitIndex.toNat - 1) + 1 := by omega
        rw [e, BitVec.shiftRight_add, h2]
        ext i hi'
        simp; omega
      · simp only [if_true]
        rw [show b + (0 : Byte) = b from BitVec.add_zero b, show s.bitIndex.toNat + 1 - 1 = (s.bitIndex.toNat - 1) + 1 by omega, BitVec.shiftRight_add, h2]
        simp
    · show (s.buf.write _ _).length = _
      rw [length_write]; exact hi.2.2.2.2.2.2
  · rename_i hc
    cases h
    refine ⟨hi.1, fun h => ?_, h9, fun _ => hsf, fun _ h => absurd h hc, hi.2.2.2.2.2.1, hi.2.2.2.2.2.2⟩
    rw [show s.synced = false from h] at hsf; cases hsf.1

theorem stopFail_regInv {s : State} (ts : U32) (hi : RegInv s) (hf : s.frameLen ≠ 0) : RegInv (stopFail ts s) := by
  obtain ⟨he, hw, hl, _⟩ := bufDropLast_spec hf hi.2.2.2.2.2.1 hi.2.2.2.2.2.2
  refine ⟨?_, fun _ => rfl, (by decide : (0 : BitVec 8).toNat ≤ 9), fun h => absurd rfl h, fun h => absurd rfl h, hw, ?_⟩
  · show s.bufDropLast.run.toNat ≤ 15
    rw [he]; exact hi.1
  · show s.bufDropLast.buf.length = min s.bufDropLast.frameLen.toNat s.bufDropLast.cfg.bufCap
    rw [hl, he]
    show _ = min (s.frameLen - 1).toNat s.cfg.bufCap
    rw [toNat_sub_one hf]

/-- S3 completes in a ready state; below the saturation of `FRAME_LEN`, or with `BUF_CAP` below it, it leaves a ready state. -/
theorem r120S3_ready {s : State} (level : Bool) (ts : U32) (hr : Ready s) :
    ∃ t, r120S3 level ts s = .ok t ∧ (CapBelowSaturation s ∨ s.frameLen.toNat < 2 ^ 32 - 1 → Ready t)
      ∧ SameOutside s t ∧ t.run = s.run ∧ t.lastEdgeTs = s.lastEdgeTs := by
  unfold r120S3
  split
  case isFalse => exact ⟨s, rfl, fun _ => hr, ⟨rfl, rfl, rfl, rfl⟩, rfl, rfl⟩
  case isTrue hs =>
    have hr' : RegInv { s with lastBitTs := ts } := hr.2.2
    by_cases h0 : s.bitIndex = 0
    · have h1 : s.bitIndex + 1 = 1 := by rw [h0]; rfl
      dsimp only
      rw [if_pos h1]
      cases level
      · refine ⟨_, rfl, fun _ => ⟨hr.1, hr.2.1, hr.2.2.1, fun _ => rfl, (by decide : (0 : BitVec 8).toNat ≤ 9), fun h => absurd rfl h, fun h => absurd rfl h, hr.2.2.2.2.2.2.2⟩, ⟨rfl, rfl, rfl, rfl⟩, rfl, rfl⟩
      · exact ⟨_, rfl, fun hc => ⟨hr.1, hr.2.1, startOk_regInv hr' hc hs.1⟩, ⟨rfl, rfl, rfl, rfl⟩, rfl, rfl⟩
    · have h1 : s.bitIndex + 1 ≠ 1 := fun h => h0 (by simpa using h)
      have hf := (hr.2.2.2.2.2.1 h0).2
      dsimp only
      rw [if_neg h1]
      split
      · rename_i h9
        obtain ⟨buf, _, hd⟩ := dataBit_ready (s := { s with lastBitTs := ts }) (s.bitIndex + 1) level hr' h0
        exact ⟨_, hd, fun _ => ⟨hr.1, hr.2.1, dataBit_regInv hr' h0 h9 hd⟩, ⟨rfl, rfl, rfl, rfl⟩, rfl, rfl⟩
      · have he := (bufDropLast_spec (s := { s with lastBitTs := ts }) hf hr'.2.2.2.2.2.1 hr'.2.2.2.2.2.2).1
        cases level
        · exact ⟨_, rfl, fun _ => ⟨hr.1, hr.2.1, hr.2.2.1, fun _ => rfl, (by decide : (0 : BitVec 8).toNat ≤ 9), fun h => absurd rfl h, fun h => absurd rfl h, hr.2.2.2.2.2.2.2⟩, ⟨rfl, rfl, rfl, rfl⟩, rfl, rfl⟩
        · refine ⟨_, rfl, fun _ => ⟨?_, ?_, stopFail_regInv ts hr' hf⟩, ⟨?_, ?_, ?_, ?_⟩, ?_, ?_⟩ <;>
            simp only [stopFail, syncLoss, State.raise, he] <;> first | rfl | exact hr.1 | exact hr.2.1

end Sys2Proof.Laws
end

