-- ==== Sys2Proof/Laws/Encoding.lean ====
section
/-! SUPPORT. The bits of an `EV` word (30_encoding.md R80), and that its fields and the word fix one another. -/

namespace Sys2Proof.Laws

/-- R80, bit by bit: the timestamp in bits 31..0, the duration in 63..32, the level in 64. -/
theorem encodeEv_getLsbD (level : Bool) (dur ts : U32) (i : Nat) :
    (encodeEv level dur ts).getLsbD i
      = if i < 32 then ts.getLsbD i else if i < 64 then dur.getLsbD (i - 32) else (i == 64 && level) := by
  have outer := BitVec.getLsbD_append (x := (BitVec.ofBool level ++ dur : BitVec 33)) (y := ts) (i := i)
  have inner := BitVec.getLsbD_append (x := BitVec.ofBool level) (y := dur) (i := i - 32)
  rw [show (encodeEv level dur ts).getLsbD i
        = BitVec.getLsbD (w := 33 + 32) ((BitVec.ofBool level ++ dur : BitVec 33) ++ ts) i from rfl, outer,
    show BitVec.getLsbD (BitVec.ofBool level ++ dur : BitVec 33) (i - 32)
        = BitVec.getLsbD (w := 1 + 32) (BitVec.ofBool level ++ dur) (i - 32) from rfl, inner]
  by_cases low : i < 32
  · simp [low]
  by_cases mid : i < 64
  · simp [low, mid, show i - 32 < 32 by omega]
  · simp only [low, mid, show ¬ i - 32 < 32 by omega, if_false, BitVec.getLsbD_ofBool]
    cases level <;> simp [show (i - 32 - 32 = 0) = (i = 64) by simp; omega, beq_eq_decide]

/-- The decoder reads back the fields of the word that `encodeEv` lays out. -/
theorem decodeEv_encodeEv (level : Bool) (dur ts : U32) :
    decodeEv (encodeEv level dur ts) = if level then .edgeRise dur ts else .edgeFall dur ts := by
  have hl : (encodeEv level dur ts).getLsbD 64 = level := by rw [encodeEv_getLsbD]; simp
  have hd : (encodeEv level dur ts).extractLsb' 32 32 = dur := by
    refine BitVec.eq_of_getLsbD_eq fun i hi => ?_
    simp [encodeEv_getLsbD, hi, show 32 + i < 64 by omega]
  have ht : (encodeEv level dur ts).extractLsb' 0 32 = ts := by
    refine BitVec.eq_of_getLsbD_eq fun i hi => ?_
    simp [encodeEv_getLsbD, hi]
  unfold decodeEv
  rw [hl, hd, ht]

/-- A word is the one `encodeEv` lays out from its three fields: no bit of it is dropped. -/
theorem encodeEv_fields (w : BitVec 65) : encodeEv (w.getLsbD 64) (w.extractLsb' 32 32) (w.extractLsb' 0 32) = w := by
  refine BitVec.eq_of_getLsbD_eq fun i hi => ?_
  rw [encodeEv_getLsbD]
  by_cases low : i < 32
  · simp [low]
  by_cases mid : i < 64
  · simp [low, mid, show i - 32 < 32 by omega, show 32 + (i - 32) = i by omega]
  · obtain rfl : i = 64 := by omega
    simp

end Sys2Proof.Laws
end

