-- ==== Sys2Proof/Laws/PerInstr.lean ====
section
/-! SUPPORT. One lemma per instruction: its encoded word matches its row of spec/opcode_table.json, its `mask` and `match` copied from there. -/

namespace Sys2Proof.Laws.MatchesTable

/-- Under `mask`, `w` is `want`, all three of one format. -/
def Matches (w mask want : Word) : Bool :=
  match w, mask, want with
  | .ev w, .ev m, .ev x => w &&& m == x
  | .ctl w, .ctl m, .ctl x => w &&& m == x
  | .sel (.category w), .sel (.category m), .sel (.category x) => w &&& m == x
  | .sel (.sync w), .sel (.sync m), .sel (.sync x) => w &&& m == x
  | .sel (.bit w), .sel (.bit m), .sel (.bit x) => w &&& m == x
  | .sel (.mapping w), .sel (.mapping m), .sel (.mapping x) => w &&& m == x
  | _, _, _ => false

/-- The `mask` and the `match` of an instruction's row. -/
def row : Instr → Word × Word
  | .edgeRise _ _ => (.ev 0x10000000000000000, .ev 0x10000000000000000)
  | .edgeFall _ _ => (.ev 0x10000000000000000, .ev 0)
  | .reset => (.ctl 1, .ctl 1)
  | .pcShort => (.sel (.category 0b11), .sel (.category 0b01))
  | .pcLong => (.sel (.category 0b11), .sel (.category 0b10))
  | .pcInvalid => (.sel (.category 0b11), .sel (.category 0b00))
  | .syncInc => (.sel (.sync 0b1111), .sel (.sync 0b1010))
  | .syncMark => (.sel (.sync 0b1111), .sel (.sync 0b1011))
  | .syncClrRl _ => (.sel (.sync 0b1110), .sel (.sync 0b1100))
  | .syncClrRi _ => (.sel (.sync 0b1110), .sel (.sync 0b1000))
  | .syncClrFi _ => (.sel (.sync 0b1110), .sel (.sync 0b0000))
  | .syncHoldFs _ => (.sel (.sync 0b1110), .sel (.sync 0b0010))
  | .syncHoldFl _ => (.sel (.sync 0b1110), .sel (.sync 0b0100))
  | .bitStart => (.sel (.bit 0b11111), .sel (.bit 0b00001))
  | .bitStartFail => (.sel (.bit 0b11111), .sel (.bit 0b00000))
  | .bitDataK1 _ => (.sel (.bit 0b11110), .sel (.bit 0b00010))
  | .bitDataK2_3 _ _ => (.sel (.bit 0b11100), .sel (.bit 0b00100))
  | .bitDataK4_7 _ _ => (.sel (.bit 0b11000), .sel (.bit 0b01000))
  | .bitDataK8 _ => (.sel (.bit 0b11110), .sel (.bit 0b10000))
  | .bitStop => (.sel (.bit 0b11111), .sel (.bit 0b10010))
  | .bitStopFail => (.sel (.bit 0b11111), .sel (.bit 0b10011))
  | .bmIdent => (.sel (.mapping 0xFF), .sel (.mapping 0x00))
  | .bmOutbits => (.sel (.mapping 0xFF), .sel (.mapping 0x01))
  | .bmTemp => (.sel (.mapping 0xFF), .sel (.mapping 0x02))
  | .bmTempLo => (.sel (.mapping 0xFF), .sel (.mapping 0x06))
  | .bmTempHi => (.sel (.mapping 0xFF), .sel (.mapping 0x0A))

/-- The word of a well-formed instruction matches the instruction's row. -/
def Statement (i : Instr) : Prop := i.wf = true → Matches (encode i) (row i).1 (row i).2 = true

theorem encodeEv_and_mask (level : Bool) (dur ts : U32) :
    encodeEv level dur ts &&& 0x10000000000000000 = if level then 0x10000000000000000 else 0 := by
  have h : (0x10000000000000000 : BitVec 65) = BitVec.twoPow 65 64 := by decide
  have hb : (encodeEv level dur ts).getLsbD 64 = level := by
    show (BitVec.ofBool level ++ dur ++ ts).getLsbD 64 = level
    rw [BitVec.getLsbD_append, BitVec.getLsbD_append]
    cases level <;> simp
  rw [h, BitVec.and_twoPow, hb]
  rfl

theorem edgeRise (dur ts : U32) : Statement (.edgeRise dur ts) := by
  intro _
  exact beq_iff_eq.mpr (encodeEv_and_mask true dur ts)

theorem edgeFall (dur ts : U32) : Statement (.edgeFall dur ts) := by
  intro _
  exact beq_iff_eq.mpr (encodeEv_and_mask false dur ts)

theorem reset : Statement .reset := by
  intro _
  decide

theorem pcShort : Statement .pcShort := by
  intro _
  decide

theorem pcLong : Statement .pcLong := by
  intro _
  decide

theorem pcInvalid : Statement .pcInvalid := by
  intro _
  decide

theorem syncInc : Statement .syncInc := by
  intro _
  decide

theorem syncMark : Statement .syncMark := by
  intro _
  decide

theorem syncClrRl (z : Bool) : Statement (.syncClrRl z) := by
  intro _
  cases z <;> decide

theorem syncClrRi (z : Bool) : Statement (.syncClrRi z) := by
  intro _
  cases z <;> decide

theorem syncClrFi (z : Bool) : Statement (.syncClrFi z) := by
  intro _
  cases z <;> decide

theorem syncHoldFs (z : Bool) : Statement (.syncHoldFs z) := by
  intro _
  cases z <;> decide

theorem syncHoldFl (z : Bool) : Statement (.syncHoldFl z) := by
  intro _
  cases z <;> decide

theorem bitStart : Statement .bitStart := by
  intro _
  decide

theorem bitStartFail : Statement .bitStartFail := by
  intro _
  decide

theorem bitDataK1 (level : Bool) : Statement (.bitDataK1 level) := by
  intro _
  cases level <;> decide

theorem bitDataK2_3 (k : BitVec 4) (level : Bool) : Statement (.bitDataK2_3 k level) := by
  have : ∀ (k : BitVec 4) (level : Bool), (Instr.bitDataK2_3 k level).wf = true →
      (encodeBit k level &&& 0b11100 == 0b00100) = true := by decide
  exact this k level

theorem bitDataK4_7 (k : BitVec 4) (level : Bool) : Statement (.bitDataK4_7 k level) := by
  have : ∀ (k : BitVec 4) (level : Bool), (Instr.bitDataK4_7 k level).wf = true →
      (encodeBit k level &&& 0b11000 == 0b01000) = true := by decide
  exact this k level

theorem bitDataK8 (level : Bool) : Statement (.bitDataK8 level) := by
  intro _
  cases level <;> decide

theorem bitStop : Statement .bitStop := by
  intro _
  decide

theorem bitStopFail : Statement .bitStopFail := by
  intro _
  decide

theorem bmIdent : Statement .bmIdent := by
  intro _
  decide

theorem bmOutbits : Statement .bmOutbits := by
  intro _
  decide

theorem bmTemp : Statement .bmTemp := by
  intro _
  decide

theorem bmTempLo : Statement .bmTempLo := by
  intro _
  decide

theorem bmTempHi : Statement .bmTempHi := by
  intro _
  decide

end Sys2Proof.Laws.MatchesTable
end

