-- ==== Sys2Proof/Laws/Registry.lean ====
section
/-! SUPPORT. The checks of a registry (42_record_unpacker.md R184) in the words the statements use. -/

namespace Sys2Proof.Laws

open Sys2Proof.Machine

/-- WF4. -/
theorem nameOk_iff (s : Name) : nameOk s = true ↔ PrintableName s := by
  simp only [nameOk, Bool.and_eq_true, decide_eq_true_eq, List.all_eq_true, and_assoc, BitVec.le_def]
  exact Iff.rfl

/-- WF7: the pair test is the two halves of one temperature. -/
theorem isPair_iff (m m' : ByteMapping) : isPair m m' = true ↔ Halves m m' := by
  simp [isPair, Halves, and_assoc]

/-- Two halves produce one key, the same. -/
theorem halves_slotKeys {m m' : ByteMapping} (h : Halves m m') :
    slotKeys m = [m.fieldName] ∧ slotKeys m' = [m.fieldName] := by
  simp [slotKeys, h.1, h.2.1, h.2.2.1]

theorem halves_wordPosition {m m' : ByteMapping} (h : Halves m m') :
    m.wordPosition ≠ .none ∧ m'.wordPosition ≠ .none := by
  obtain ⟨-, -, -, ⟨hm, hm'⟩ | ⟨hm, hm'⟩⟩ := h <;> simp [hm, hm']

/-- WF7, by position: no later slot shares a key. -/
theorem keysApart_iff_index (m : ByteMapping) (ms : List ByteMapping) :
    keysApart m ms = true ↔ ∀ (j : Nat) (m' : ByteMapping), ms[j]? = some m' → ¬∃ k ∈ slotKeys m, k ∈ slotKeys m' := by
  rw [keysApart_iff]
  constructor
  · rintro h j m' hj ⟨k, hk, hk'⟩
    exact h k hk m' (List.mem_of_getElem? hj) hk'
  · intro h k hk m' hm hk'
    obtain ⟨j, hj⟩ := List.getElem?_of_mem hm
    exact h j m' hj ⟨k, hk, hk'⟩

end Sys2Proof.Laws
end

