-- ==== Sys2Proof/Laws/RomImage.lean ====
section
/-! SUPPORT. What each reader of a ROM image's parts accepts (30_encoding.md R86 to R90). -/

namespace Sys2Proof.Laws

open Sys2Proof.Machine

/-- `cut` splits off exactly `n` bytes. -/
theorem cut_eq_ok_iff (n : Nat) (bs a rest : List Byte) : cut n bs = .ok (a, rest) ↔ bs = a ++ rest ∧ a.length = n := by
  unfold cut
  split
  · constructor
    · intro h
      cases h
    · rintro ⟨rfl, rfl⟩
      simp at *
  · constructor
    · intro h
      cases h
      exact ⟨(List.take_append_drop _ _).symm, by simp; omega⟩
    · rintro ⟨rfl, rfl⟩
      simp

/-- R60: a 16-bit number in two bytes is read back. -/
theorem natOfBytes_twoBytes (n : Nat) (h : n < 65536) : natOfBytes (twoBytes n) = n := by
  simp only [twoBytes, natOfBytes, BitVec.toNat_ofNat]
  omega

theorem twoBytes_natOfBytes (a b : Byte) : twoBytes (natOfBytes [a, b]) = [a, b] := by
  have := a.isLt
  have := b.isLt
  simp only [twoBytes, natOfBytes, List.cons.injEq, and_true, ← BitVec.toNat_inj, BitVec.toNat_ofNat]
  omega

/-- R89: a control byte's two fields give it back, whenever it is accepted. -/
theorem controlFields_eq_some {b : Byte} {k : MappingKind} {p : WordPosition} (h : controlFields b = some (k, p)) :
    (0 : BitVec 4) ++ positionBits p ++ kindBits k = b ∧ (k = .temperature ∨ p = .none) := by
  have all : ∀ b : Byte, (match controlFields b with
      | some (k, p) => decide ((0 : BitVec 4) ++ positionBits p ++ kindBits k = b)
          && (decide (k = .temperature) || decide (p = .none))
      | none => true) = true := by decide +kernel
  simpa [h] using all b

/-- R89: fields that fit one another are read back from their control byte. -/
theorem controlFields_bits (k : MappingKind) (p : WordPosition) (h : k = .temperature ∨ p = .none) :
    controlFields ((0 : BitVec 4) ++ positionBits p ++ kindBits k) = some (k, p) := by
  rcases h with rfl | rfl
  · cases p <;> rfl
  · cases k <;> rfl

/-- R87, WF4: the name table's strings. -/
theorem parseNames_eq_ok_iff (n : Nat) (bs rest : List Byte) (names : List Name) :
    parseNames n bs = .ok (names, rest)
      ↔ names.length = n ∧ bs = names.flatMap encodeName ++ rest ∧ ∀ s ∈ names, PrintableName s := by
  induction n generalizing bs names with
  | zero =>
    simp only [parseNames, Except.ok.injEq, Prod.mk.injEq, List.length_eq_zero_iff]
    constructor
    · rintro ⟨rfl, rfl⟩
      simp
    · rintro ⟨rfl, h, -⟩
      simpa using h
  | succ n ih =>
    constructor
    · intro h
      cases bs with
      | nil => cases h
      | cons len bs =>
        rw [parseNames] at h
        split at h
        · cases h
        rename_i s rest' hcut
        split at h
        · rename_i hname
          split at h
          · cases h
          rename_i ss rest'' htail
          cases h
          obtain ⟨rfl, hlen⟩ := (cut_eq_ok_iff _ _ _ _).mp hcut
          obtain ⟨hl, rfl, hall⟩ := (ih _ _).mp htail
          have : BitVec.ofNat 8 s.length = len := by simp [hlen]
          exact ⟨by simp [hl], by simp [encodeName, this], List.forall_mem_cons.mpr ⟨(nameOk_iff _).mp hname, hall⟩⟩
        · cases h
    · rintro ⟨hl, rfl, hall⟩
      cases names with
      | nil => cases hl
      | cons s ss =>
        obtain ⟨hs, hall⟩ := List.forall_mem_cons.mp hall
        have hcut := (cut_eq_ok_iff (BitVec.ofNat 8 s.length).toNat (s ++ (ss.flatMap encodeName ++ rest)) s _).mpr
          ⟨rfl, by have := hs.2.1; rw [BitVec.toNat_ofNat]; omega⟩
        have htail := (ih (ss.flatMap encodeName ++ rest) ss).mpr ⟨by simpa using hl, rfl, hall⟩
        simp only [List.flatMap_cons, List.append_assoc, encodeName, List.cons_append]
        simp only [parseNames, hcut, (nameOk_iff s).mpr hs, htail, if_true]

/-- R88, R90: an entry's field name is looked up in the table. -/
theorem resolveEntry_eq_ok_iff (names : List Name) (m : RomEntry) (b : ByteMapping) :
    resolveEntry names m = .ok b ↔ m.fieldNameId.toNat < names.length ∧ b = entryMapping names m := by
  unfold resolveEntry entryMapping
  by_cases h : m.fieldNameId.toNat < names.length
  · simp [List.getD, h, eq_comm]
  · simp [h]

theorem resolveEntries_eq_ok_iff (names : List Name) (ms : List RomEntry) (bs : List ByteMapping) :
    resolveEntries names ms = .ok bs
      ↔ (∀ m ∈ ms, m.fieldNameId.toNat < names.length) ∧ bs = ms.map (entryMapping names) := by
  induction ms generalizing bs with
  | nil => simp [resolveEntries, eq_comm]
  | cons m ms ih =>
    rw [resolveEntries, List.forall_mem_cons]
    constructor
    · intro h
      split at h
      · cases h
      rename_i b hb
      split at h
      · cases h
      rename_i bs' hbs
      cases h
      obtain ⟨hm, rfl⟩ := (resolveEntry_eq_ok_iff _ _ _).mp hb
      obtain ⟨hms, rfl⟩ := (ih _).mp hbs
      exact ⟨⟨hm, hms⟩, rfl⟩
    · rintro ⟨⟨hm, hms⟩, rfl⟩
      rw [(resolveEntry_eq_ok_iff names m _).mpr ⟨hm, rfl⟩, (ih _).mpr ⟨hms, rfl⟩]
      rfl

end Sys2Proof.Laws
end

