-- ==== Sys2Proof/Laws/Run.lean ====
section
/-! SUPPORT. What handing a transaction over and running a list of them do (70_reset_and_hazards.md R247). -/

namespace Sys2Proof.Laws

open Sys2Proof.Machine

/-! `handOver` writes the inbox alone. -/

@[simp] theorem handOver_inbox (x : Input) (s : State) : (handOver x s).inbox = s.inbox ++ [x] := rfl
@[simp] theorem handOver_cfg (x : Input) (s : State) : (handOver x s).cfg = s.cfg := rfl
@[simp] theorem handOver_phase (x : Input) (s : State) : (handOver x s).phase = s.phase := rfl
@[simp] theorem handOver_run (x : Input) (s : State) : (handOver x s).run = s.run := rfl
@[simp] theorem handOver_synced (x : Input) (s : State) : (handOver x s).synced = s.synced := rfl
@[simp] theorem handOver_bitIndex (x : Input) (s : State) : (handOver x s).bitIndex = s.bitIndex := rfl
@[simp] theorem handOver_buf (x : Input) (s : State) : (handOver x s).buf = s.buf := rfl
@[simp] theorem handOver_frameLen (x : Input) (s : State) : (handOver x s).frameLen = s.frameLen := rfl
@[simp] theorem handOver_lastEdgeTs (x : Input) (s : State) : (handOver x s).lastEdgeTs = s.lastEdgeTs := rfl
@[simp] theorem handOver_lastBitTs (x : Input) (s : State) : (handOver x s).lastBitTs = s.lastBitTs := rfl
@[simp] theorem handOver_events (x : Input) (s : State) : (handOver x s).events = s.events := rfl
@[simp] theorem handOver_sub (x : Input) (s : State) : (handOver x s).sub = s.sub := rfl
@[simp] theorem handOver_work (x : Input) (s : State) : (handOver x s).work = s.work := rfl

/-! A run goes on from where its first part ended. -/

@[simp] theorem runFrom_nil (s : State) (es : List Event) : runFrom [] s es = .ended s es := rfl

theorem runFrom_cons_next {x : Input} {s t : State} (xs : List Input) (es : List Event)
    (h : step (handOver x s) = .next t) : runFrom (x :: xs) s es = runFrom xs t (es ++ t.events) := by
  simp [runFrom, h]

theorem runFrom_append (xs ys : List Input) (s : State) (es : List Event) :
    runFrom (xs ++ ys) s es
      = match runFrom xs s es with
        | .ended t es' => runFrom ys t es'
        | .fault f => .fault f
        | .refused r => .refused r := by
  induction xs generalizing s es with
  | nil => rfl
  | cons x xs ih =>
    simp only [List.cons_append, runFrom]
    cases step (handOver x s) with
    | next t => exact ih t _
    | fault f => rfl
    | refused r => rfl

/-- A trace has its inputs exactly when each of its instructions is a transaction. -/
theorem traceInputs_isSome_iff (trace : List Instr) :
    (traceInputs trace).isSome = true ↔ ∀ i ∈ trace, (inputOf i).isSome = true := by
  induction trace with
  | nil => simp [traceInputs]
  | cons i is ih =>
    rw [List.forall_mem_cons, ← ih]
    cases hi : inputOf i <;> cases hr : traceInputs is <;> simp [traceInputs, hi, hr]

theorem traceInputs_append {a b : List Instr} {xs ys : List Input} (ha : traceInputs a = some xs)
    (hb : traceInputs b = some ys) : traceInputs (a ++ b) = some (xs ++ ys) := by
  induction a generalizing xs with
  | nil => cases ha; exact hb
  | cons i is ih =>
    cases hi : inputOf i <;> cases hr : traceInputs is <;> simp only [traceInputs, hi, hr, reduceCtorEq] at ha
    cases ha
    simp [traceInputs, hi, ih hr]

end Sys2Proof.Laws
end

