-- ==== Sys2Proof/Tests/Slice0.lean ====
section
/-! SUPPORT. The model's own tests. Expected values come from 95_test_vectors.md (V-…, W…) and the rules named; the witnesses show that the
hypotheses of the statements can be met together. -/

namespace Sys2Proof.Tests

open Sys2Proof.Machine

set_option Elab.async false

/-! ## Helpers -/

/-- The next state of an outcome. -/
def after : Outcome → Option State
  | .next s => some s
  | .fault _ => none
  | .refused _ => none

/-- The fault of an outcome. -/
def faultOf : Outcome → Option Fault
  | .next _ => none
  | .fault f => some f
  | .refused _ => none

/-- The refusal of an outcome. -/
def refusalOf : Outcome → Option Refusal
  | .next _ => none
  | .fault _ => none
  | .refused r => some r

theorem next_of_after {o : Outcome} (h : (after o).isSome = true) : ∃ t, o = .next t := by
  cases o with
  | next t => exact ⟨t, rfl⟩
  | fault f => cases h
  | refused r => cases h

/-- The cells of bytes at indexes from 0 on. -/
def cells (bs : List Byte) : Memory := bs.zipIdx.map fun p => (p.2, p.1)

/-- The default instance of 95_test_vectors.md, with CID = 7. -/
def testConfig : Config := { registry := defaultRegistry, controllerId := ⟨7⟩, bufCap := 32 }

/-- The state after RESET under `testConfig`. -/
def fresh : State := { State.reset with cfg := testConfig }

/-- Synced, with these bytes in `BUF`. -/
def syncedAt (k : BitVec 8) (bs : List Byte) (lastBit : U32) : State :=
  { fresh with synced := true, bitIndex := k, buf := cells bs, frameLen := BitVec.ofNat 32 bs.length, lastBitTs := lastBit }

/-- A state that forms a SYNC-SEL word. -/
def forSync (run : U32) (level : Bool) (dur : U32) : State :=
  { fresh with
    run := run
    work := { Work.idle with level := level, dur := dur, ts := 1000, classIn := dur, classOut := classify dur } }

/-- A state at a bit boundary, forming a BIT-SEL word. -/
def forBit (k : BitVec 8) (bs : List Byte) (level : Bool) : State :=
  { syncedAt k bs 20000 with
    work := { Work.idle with level := level, dur := 20000, ts := 20000, classIn := 20000, classOut := .long } }

/-- A state with a slot before the unpacker. -/
def forSlot (m : ByteMapping) (b : Byte) (r : Record) : State :=
  { fresh with work := { Work.idle with slot := some { defn := uvr64, mapping := m, byte := b, record := r } } }

/-- The record of a state's slot. -/
def slotRecord (s : State) : Option Record := s.work.slot.map Slot.record

/-- What a vector of 95_test_vectors.md shows of a state. -/
structure View where
  run : U32
  synced : Bool
  bitIndex : BitVec 8
  bytes : List Byte
  frameLen : U32
  lastBitTs : U32
  events : List Event
  deriving DecidableEq, Repr

/-- The view of a state. -/
def view (s : State) : View := ⟨s.run, s.synced, s.bitIndex, s.buf.map Prod.snd, s.frameLen, s.lastBitTs, s.events⟩

/-- The W4 bytes. -/
def w4 : List Byte := [0x20, 5, 2, 0, 0, 0, 0, 0, 0, 0, 0, 0, 0, 0x10]

/-- The W4 record with four outputs. -/
def w4Record (o1 o2 o3 o4 : Bool) : Record :=
  [(ascii "devicetype", .str (ascii "UVR64")), (ascii "temp1", .num 0x4049D9999999999A), (ascii "temp2", .num 0),
    (ascii "temp3", .num 0), (ascii "temp4", .num 0), (ascii "temp5", .num 0), (ascii "temp6", .num 0),
    (ascii "output1", .bool o1), (ascii "output2", .bool o2), (ascii "output3", .bool o3), (ascii "output4", .bool o4)]

/-! ## WellFormed: each check refuses an ill-formed term -/

/-- `k` outside the pattern of its row (R92). -/
theorem test_wf_bitData :
    Instr.wf (.bitDataK2_3 2 true) = true ∧ Instr.wf (.bitDataK2_3 3 true) = true ∧ Instr.wf (.bitDataK2_3 7 true) = false
      ∧ Instr.wf (.bitDataK2_3 1 true) = false ∧ Instr.wf (.bitDataK4_7 4 true) = true ∧ Instr.wf (.bitDataK4_7 7 true) = true
      ∧ Instr.wf (.bitDataK4_7 3 true) = false ∧ Instr.wf (.bitDataK4_7 8 true) = false := by decide

/-- One definition, with three slots. -/
def defnOf (ms : List ByteMapping) : DeviceDefinition :=
  { code := 5, deviceTypeName := ascii "D", expectedByteCount := BitVec.ofNat 8 ms.length, byteMappings := ms }

/-- WF1: distinct keys, each the code of its definition (R184). -/
theorem test_wf1 : keysDistinct [(32, uvr64), (32, uvr64)] = false ∧ keysMatch [(33, uvr64)] = false
    ∧ configOk { testConfig with registry := [(33, uvr64)] } = false := by decide +kernel

/-- WF2: the counts agree, and are not 0 (R184). -/
theorem test_wf2 : countOk { uvr64 with expectedByteCount := 13 } = false
    ∧ countOk { uvr64 with expectedByteCount := 0, byteMappings := [] } = false ∧ countOk uvr64 = true := by decide

/-- WF3 and R7: `BUF_CAP` must be above 14. -/
theorem test_wf3 : configOk { testConfig with bufCap := 14 } = false ∧ configOk { testConfig with bufCap := 15 } = true := by
  decide +kernel

/-- WF4: names are printable and not empty (R184). -/
theorem test_wf4 : nameOk [] = false ∧ nameOk [0x7F] = false ∧ nameOk [0x1F] = false ∧ nameOk [0x20, 0x7E] = true
    ∧ namesOk { uvr64 with deviceTypeName := [] } = false := by decide

/-- WF5: a word position only for Temperature (R184). -/
theorem test_wf5 : positionOk { identSlot (ascii "d") with wordPosition := .low } = false
    ∧ positionOk (tempSlot .high (ascii "d") f64One) = true := by decide

/-- WF6: unused fields are neutral (R184, R36). -/
theorem test_wf6 : neutralOk { identSlot (ascii "d") with scale := f64Tenth } = false
    ∧ neutralOk { identSlot (ascii "d") with bitToOutputIndex := #v[1, 0, 0, 0, 0, 0, 0, 0] } = false
    ∧ neutralOk (tempSlot .none (ascii "d") f64Tenth) = true := by decide

/-- WF7: halves side by side, no other key shared; `o` with output 1 spells the key `o1` (R184). -/
theorem test_wf7 : slotsApart [tempSlot .low (ascii "x") f64One] = false
    ∧ slotsApart [tempSlot .low (ascii "x") f64One, identSlot (ascii "d"), tempSlot .high (ascii "x") f64One] = false
    ∧ slotsApart [tempSlot .high (ascii "x") f64One, tempSlot .low (ascii "x") f64One] = true
    ∧ slotsApart [tempSlot .low (ascii "x") f64One, tempSlot .low (ascii "x") f64One] = false
    ∧ slotsApart [outbitsSlot (ascii "o") #v[1, 0, 0, 0, 0, 0, 0, 0], identSlot (ascii "o1")] = false := by decide

/-- WF8: distinct outputs within a slot (R184). -/
theorem test_wf8 : outputsDistinct (outbitsSlot (ascii "o") #v[1, 0, 0, 0, 0, 0, 0, 1]) = false
    ∧ outputsDistinct (outbitsSlot (ascii "o") #v[1, 0, 0, 0, 0, 0, 0, 2]) = true := by decide

/-- WF9: a scale is finite (R184). -/
theorem test_wf9 : definitionOk (defnOf [tempSlot .none (ascii "t") 0x7FF0000000000000]) = false
    ∧ definitionOk (defnOf [tempSlot .none (ascii "t") 0x7FF8000000000000]) = false
    ∧ definitionOk (defnOf [tempSlot .none (ascii "t") f64Tenth]) = true := by decide +kernel

/-! ## Decoding: words written out from the spec's encodings -/

/-- V-ENC-1, V-ENC-2: level at 64, dur at 63:32, ts at 31:0. -/
theorem test_decode_edge :
    decode (.ev 0x00000271000002710) = .ok (.edgeFall 10000 10000)
      ∧ decode (.ev 0x1000027100004E200) = .ok (.edgeRise 10000 320000)
      ∧ decode (.ev 0x100004E2000002710) = .ok (.edgeRise 20000 10000)
      ∧ decode (.ev 0x0000013880000C350) = .ok (.edgeFall 5000 50000)
      ∧ decode (.ev 0x1FFFFFFFFFFFFFFFF) = .ok (.edgeRise 0xFFFFFFFF 0xFFFFFFFF) := by decide

/-- R82, R84. -/
theorem test_decode_reset : decode (.ctl 1) = .ok .reset ∧ decode (.ctl 0) = .error .noTransaction := by decide

/-- R20: Short 01, Long 10, Invalid 00, 11 unused. -/
theorem test_decode_category :
    decode (.sel (.category 0b01)) = .ok .pcShort ∧ decode (.sel (.category 0b10)) = .ok .pcLong
      ∧ decode (.sel (.category 0b00)) = .ok .pcInvalid ∧ decode (.sel (.category 0b11)) = .error .categoryUnused := by decide

/-- R91: every pattern, and `CC = 11`. -/
theorem test_decode_sync :
    decode (.sel (.sync 0b1010)) = .ok .syncInc ∧ decode (.sel (.sync 0b1011)) = .ok .syncMark
      ∧ decode (.sel (.sync 0b1101)) = .ok (.syncClrRl true) ∧ decode (.sel (.sync 0b1000)) = .ok (.syncClrRi false)
      ∧ decode (.sel (.sync 0b0001)) = .ok (.syncClrFi true) ∧ decode (.sel (.sync 0b0010)) = .ok (.syncHoldFs false)
      ∧ decode (.sel (.sync 0b0101)) = .ok (.syncHoldFl true) ∧ decode (.sel (.sync 0b1110)) = .error .syncSelUnused
      ∧ decode (.sel (.sync 0b0111)) = .error .syncSelUnused := by decide

/-- R92: every pattern, and `K` of 10 and 15. -/
theorem test_decode_bit :
    decode (.sel (.bit 0b00001)) = .ok .bitStart ∧ decode (.sel (.bit 0b00000)) = .ok .bitStartFail
      ∧ decode (.sel (.bit 0b00011)) = .ok (.bitDataK1 true) ∧ decode (.sel (.bit 0b00110)) = .ok (.bitDataK2_3 3 false)
      ∧ decode (.sel (.bit 0b01001)) = .ok (.bitDataK4_7 4 true) ∧ decode (.sel (.bit 0b01110)) = .ok (.bitDataK4_7 7 false)
      ∧ decode (.sel (.bit 0b10000)) = .ok (.bitDataK8 false) ∧ decode (.sel (.bit 0b10010)) = .ok .bitStop
      ∧ decode (.sel (.bit 0b10011)) = .ok .bitStopFail ∧ decode (.sel (.bit 0b10100)) = .error .bitSelUnused
      ∧ decode (.sel (.bit 0b11111)) = .error .bitSelUnused := by decide

/-- R89, and one reserved byte of each sort. -/
theorem test_decode_mapping :
    decode (.sel (.mapping 0x00)) = .ok .bmIdent ∧ decode (.sel (.mapping 0x01)) = .ok .bmOutbits
      ∧ decode (.sel (.mapping 0x02)) = .ok .bmTemp ∧ decode (.sel (.mapping 0x06)) = .ok .bmTempLo
      ∧ decode (.sel (.mapping 0x0A)) = .ok .bmTempHi ∧ decode (.sel (.mapping 0x03)) = .error .controlByteReserved
      ∧ decode (.sel (.mapping 0x0E)) = .error .controlByteReserved ∧ decode (.sel (.mapping 0x04)) = .error .controlByteReserved
      ∧ decode (.sel (.mapping 0x12)) = .error .controlByteReserved := by decide

/-- R84: `level` 2 in a wider type is refused, never a polarity. -/
theorem test_decode_wide_level :
    edgeOfFields 2 10000 500 = .error .levelOutOfRange ∧ edgeOfFields 1 10000 500 = .ok (.edgeRise 10000 500)
      ∧ wordOfNat .ev (2 ^ 65) = .error .levelOutOfRange := by decide

/-- The bytes of V-ENC-1's first word, least significant first. -/
theorem test_decode_bytes :
    decodeBytes .ev [0x10, 0x27, 0, 0, 0x10, 0x27, 0, 0, 0, 0xAA] = .ok (.edgeFall 10000 10000, [0xAA])
      ∧ decodeBytes .ev [0, 0] = .error .tooShort := by decide

/-- V-ENC-3, V-ENC-4: the selectors a state forms. -/
theorem test_selectors :
    syncSel (forSync 15 true 10000) = 0b1011 ∧ syncSel (forSync 3 false 20000) = 0b0100
      ∧ syncSel (forSync 15 false 20000) = 0b0101 ∧ bitSel (forBit 9 [0x20, 0] true) = 0b10011
      ∧ bitSel (forBit 7 [0x20, 0] false) = 0b01110 := by decide

/-! ## The classifier -/

/-- V-PC-1. -/
theorem test_classify :
    [0, 9000, 9001, 10000, 10999, 11000, 11001, 17999, 18000, 18001, 20000, 21999, 22000, 22001, 4294967295].map classify
      = [.invalid, .invalid, .short, .short, .short, .invalid, .invalid, .invalid, .invalid, .long, .long, .long, .invalid,
          .invalid, .invalid] := by decide

/-- PC rows: the row of the category, and another row. -/
theorem test_pc_rows :
    ((after (exec .pcShort { fresh with work := { Work.idle with classIn := 9001 } })).map fun s => s.work.classOut) = some .short
      ∧ ((after (exec .pcLong { fresh with work := { Work.idle with classIn := 21999 } })).map fun s => s.work.classOut) = some .long
      ∧ ((after (exec .pcInvalid { fresh with work := { Work.idle with classIn := 22000, classOut := .long } })).map fun s =>
          s.work.classOut) = some .invalid
      ∧ faultOf (exec .pcShort { fresh with work := { Work.idle with classIn := 9000 } }) = some .selectorNotFormed := by decide

/-! ## Sync detection: the vectors V-SY-1 to V-SY-9 and V-SY-12, as edges -/

/-- V-SY-1, V-SY-2, V-SY-3, V-SY-4. -/
theorem test_sync_counts :
    ((after (exec (.edgeRise 10000 500) fresh)).map view) = some ⟨1, false, 0, [], 0, 0, []⟩
      ∧ ((after (exec (.edgeFall 20000 1000) { fresh with run := 7 })).map view) = some ⟨7, false, 0, [], 0, 0, []⟩
      ∧ ((after (exec (.edgeRise 20000 2000) { fresh with run := 7 })).map view) = some ⟨0, false, 0, [], 0, 0, []⟩
      ∧ ((after (exec (.edgeFall 10000 1000) { fresh with run := 7 })).map view) = some ⟨7, false, 0, [], 0, 0, []⟩ := by
  decide +kernel

/-- V-SY-5, V-SY-6, V-SY-9. -/
theorem test_sync_invalid :
    ((after (exec (.edgeFall 5000 1000) { fresh with run := 7 })).map view)
        = some ⟨0, false, 0, [], 0, 0, [.invalidPulse false 5000 1000]⟩
      ∧ ((after (exec (.edgeRise 9000 1000) { fresh with run := 15 })).map view)
        = some ⟨0, false, 0, [], 0, 0, [.invalidPulse true 9000 1000]⟩
      ∧ ((after (exec (.edgeRise 11000 1000) { fresh with run := 3 })).map view)
        = some ⟨0, false, 0, [], 0, 0, [.invalidPulse true 11000 1000]⟩ := by decide +kernel

/-- V-SY-7, V-SY-8, V-SY-12. -/
theorem test_sync_mark :
    ((after (exec (.edgeRise 9001 1000) { fresh with run := 15 })).map view)
        = some ⟨0, true, 0, [], 0, 1000, [.unknownDevice none]⟩
      ∧ ((after (exec (.edgeRise 10999 1000) { fresh with run := 15 })).map view)
        = some ⟨0, true, 0, [], 0, 1000, [.unknownDevice none]⟩
      ∧ ((after (exec (.edgeRise 10000 6000) { fresh with run := 15, buf := cells [0x20, 5], frameLen := 2 })).map view)
        = some ⟨0, true, 0, [], 0, 6000, [.lengthMismatch 32 14 2]⟩ := by decide +kernel

/-- The rows alone, on the states of V-SY-1, V-SY-3 and V-SY-6. -/
theorem test_sync_rows :
    ((after (exec .syncInc (forSync 0 true 10000))).map fun s => s.run) = some 1
      ∧ ((after (exec (.syncClrRl false) (forSync 7 true 20000))).map fun s => s.run) = some 0
      ∧ ((after (exec (.syncClrRi true) (forSync 15 true 9000))).map fun s => (s.run, s.events))
        = some (0, [.invalidPulse true 9000 1000]) := by decide +kernel

/-- The other rows alone, on the states of V-SY-5, V-SY-4, V-SY-2 and V-SY-7. -/
theorem test_sync_rows_more :
    ((after (exec (.syncClrFi false) (forSync 7 false 5000))).map fun s => (s.run, s.events))
        = some (0, [.invalidPulse false 5000 1000])
      ∧ ((after (exec (.syncHoldFs false) (forSync 7 false 10000))).map fun s => s.run) = some 7
      ∧ ((after (exec (.syncHoldFl false) (forSync 7 false 20000))).map fun s => s.run) = some 7
      ∧ ((after (exec .syncMark (forSync 15 true 9001))).map fun s => (s.run, s.synced, s.lastBitTs, s.events))
        = some ⟨0, true, 1000, [.unknownDevice none]⟩ := by decide +kernel

/-! ## Finalization -/

/-- V-FIN-1 and V-FIN-2: a marker inside the last byte. -/
theorem test_fin_partial :
    ((after (exec (.edgeRise 10000 6000) { syncedAt 5 (w4.dropLast ++ [0]) 5000 with run := 15 })).map fun s => s.events)
        = some [.deliver ⟨7⟩ (w4Record false false false false)]
      ∧ ((after (exec (.edgeRise 10000 6000) { syncedAt 6 w4 5000 with run := 15 })).map fun s => s.events)
        = some [.deliver ⟨7⟩ (w4Record true false false false)] := by decide +kernel

/-- V-FIN-3: an overflow byte counts. -/
theorem test_fin_overflow :
    ((after (exec (.edgeRise 10000 5000)
        { syncedAt 0 (0x20 :: List.replicate 31 0) 0 with run := 15, frameLen := 33 })).map view)
      = some ⟨0, true, 0, [], 0, 5000, [.lengthMismatch 32 14 33]⟩ := by decide +kernel

/-! ## Bit decoding -/

/-- V-BIT-1, V-BIT-2, V-BIT-3, V-BIT-6. -/
theorem test_bit_start :
    ((after (exec (.edgeRise 10000 120000) (syncedAt 0 [0x20] 100000))).map view) = some ⟨1, true, 1, [0x20, 0], 2, 120000, []⟩
      ∧ ((after (exec (.edgeFall 10000 120000) (syncedAt 0 [0x20] 100000))).map view)
        = some ⟨0, false, 0, [0x20], 1, 120000, [.syncLoss .start 120000]⟩
      ∧ ((after (exec (.edgeRise 10000 118000) (syncedAt 0 [0x20] 100000))).map view) = some ⟨1, true, 0, [0x20], 1, 100000, []⟩
      ∧ ((after (exec (.edgeRise 10000 122000) (syncedAt 0 [0x20] 100000))).map view)
        = some ⟨1, true, 0, [0x20], 1, 100000, []⟩ := by decide +kernel

/-- V-BIT-4, V-BIT-5, V-BIT-7. -/
theorem test_bit_window :
    ((after (exec (.edgeRise 10000 118001) (syncedAt 0 [0x20] 100000))).map view) = some ⟨1, true, 1, [0x20, 0], 2, 118001, []⟩
      ∧ ((after (exec (.edgeRise 10000 121999) (syncedAt 0 [0x20] 100000))).map view)
        = some ⟨1, true, 1, [0x20, 0], 2, 121999, []⟩
      ∧ ((after (exec (.edgeRise 10000 10000) (syncedAt 0 [] 4294957296))).map view)
        = some ⟨1, true, 1, [0], 1, 10000, []⟩ := by decide +kernel

/-- V-BIT-9: DATA_BIT at every position. -/
theorem test_bit_data_positions :
    ([1, 2, 3, 4, 5, 6, 7, 8].map fun k => (after (exec (.edgeFall 20000 20000) (syncedAt k [0x20, 0] 0))).map view)
      = [some ⟨0, true, 2, [0x20, 0x01], 2, 20000, []⟩, some ⟨0, true, 3, [0x20, 0x02], 2, 20000, []⟩,
          some ⟨0, true, 4, [0x20, 0x04], 2, 20000, []⟩, some ⟨0, true, 5, [0x20, 0x08], 2, 20000, []⟩,
          some ⟨0, true, 6, [0x20, 0x10], 2, 20000, []⟩, some ⟨0, true, 7, [0x20, 0x20], 2, 20000, []⟩,
          some ⟨0, true, 8, [0x20, 0x40], 2, 20000, []⟩, some ⟨0, true, 9, [0x20, 0x80], 2, 20000, []⟩] := by decide +kernel

/-- V-BIT-10, V-BIT-12, V-BIT-14. -/
theorem test_bit_one_and_stop :
    ((after (exec (.edgeRise 20000 20000) (syncedAt 3 [0x20, 0x03] 0))).map view)
        = some ⟨0, true, 4, [0x20, 0x03], 2, 20000, []⟩
      ∧ ((after (exec (.edgeFall 20000 20000) (syncedAt 9 [0x20, 0x7F] 0))).map view)
        = some ⟨0, true, 0, [0x20, 0x7F], 2, 20000, []⟩
      ∧ ((after (exec (.edgeRise 20000 20000) (syncedAt 9 [0x20, 0x05, 0x7F] 0))).map view)
        = some ⟨0, false, 0, [0x20, 0x05], 2, 20000, [.syncLoss .stop 20000]⟩ := by decide +kernel

/-- The rows alone, on the states of V-BIT-1, V-BIT-2, V-BIT-12 and V-BIT-14. -/
theorem test_bit_rows :
    ((after (exec .bitStart (forBit 0 [0x20] true))).map view) = some ⟨0, true, 1, [0x20, 0], 2, 20000, []⟩
      ∧ ((after (exec .bitStartFail (forBit 0 [0x20] false))).map view)
        = some ⟨0, false, 0, [0x20], 1, 20000, [.syncLoss .start 20000]⟩
      ∧ ((after (exec .bitStop (forBit 9 [0x20, 0x7F] false))).map view) = some ⟨0, true, 0, [0x20, 0x7F], 2, 20000, []⟩
      ∧ ((after (exec .bitStopFail (forBit 9 [0x20, 0x05, 0x7F] true))).map view)
        = some ⟨0, false, 0, [0x20, 0x05], 2, 20000, [.syncLoss .stop 20000]⟩ := by decide +kernel

/-- The data rows alone, with the bytes of V-BIT-9 and V-BIT-10. -/
theorem test_bit_data_rows :
    ((after (exec (.bitDataK1 false) (forBit 1 [0x20, 0] false))).map view) = some ⟨0, true, 2, [0x20, 0x01], 2, 20000, []⟩
      ∧ ((after (exec (.bitDataK2_3 3 true) (forBit 3 [0x20, 0x03] true))).map view)
        = some ⟨0, true, 4, [0x20, 0x03], 2, 20000, []⟩
      ∧ ((after (exec (.bitDataK4_7 5 false) (forBit 5 [0x20, 0] false))).map view)
        = some ⟨0, true, 6, [0x20, 0x10], 2, 20000, []⟩
      ∧ ((after (exec (.bitDataK8 false) (forBit 8 [0x20, 0] false))).map view)
        = some ⟨0, true, 9, [0x20, 0x80], 2, 20000, []⟩ := by decide +kernel

/-- V-EV-1, V-EV-2: two events in order; an Invalid duration at a data boundary. -/
theorem test_events_order :
    ((after (exec (.edgeFall 5000 120000) { syncedAt 0 [0x20] 100000 with run := 4 })).map view)
        = some ⟨0, false, 0, [0x20], 1, 120000, [.invalidPulse false 5000 120000, .syncLoss .start 120000]⟩
      ∧ ((after (exec (.edgeFall 30000 120000) { syncedAt 2 [0x20, 0x01] 100000 with run := 4 })).map view)
        = some ⟨0, true, 3, [0x20, 0x03], 2, 120000, [.invalidPulse false 30000 120000]⟩ := by decide +kernel

/-- V-EV-3: two of the LOG beats. -/
theorem test_log_beats :
    logBeat (.invalidPulse false 5000 120000) = some ⟨0x1, 0, [0, 5000, 120000]⟩
      ∧ logBeat (.lengthMismatch 32 14 13) = some ⟨0x4, 1, [32, 14, 13]⟩ := by decide

/-- V-BUF-1, V-BUF-2: at and beyond the capacity. -/
theorem test_buffer_capacity :
    ((after (exec (.edgeRise 20000 20000) (syncedAt 0 (List.replicate 32 0x20) 0))).map view)
        = some ⟨0, true, 1, List.replicate 32 0x20, 33, 20000, []⟩
      ∧ ((after (exec (.edgeFall 20000 40000) { syncedAt 1 (List.replicate 32 0x20) 20000 with frameLen := 33 })).map view)
        = some ⟨0, true, 2, List.replicate 32 0x20, 33, 40000, []⟩
      ∧ ((after (exec (.edgeRise 20000 20000) { syncedAt 9 (List.replicate 32 0x20) 0 with frameLen := 33 })).map view)
        = some ⟨0, false, 0, List.replicate 32 0x20, 32, 20000, [.syncLoss .stop 20000]⟩ := by decide +kernel

/-! ## The unpacker -/

/-- V-DEC-1, V-DEC-2, V-DEC-3, V-DEC-4, V-DEC-5, V-DEC-6. -/
theorem test_decode_frame :
    decodeFrame defaultRegistry (cells w4) 14 = .ok (.record (w4Record true false false false))
      ∧ decodeFrame defaultRegistry (cells w4.dropLast) 13 = .ok (.lengthMismatch 32 14 13)
      ∧ decodeFrame defaultRegistry (cells (w4 ++ [0])) 15 = .ok (.lengthMismatch 32 14 15)
      ∧ decodeFrame defaultRegistry (cells [0xC8]) 1 = .ok (.unknownDevice (some 200))
      ∧ decodeFrame defaultRegistry [] 0 = .ok (.unknownDevice none)
      ∧ decodeFrame defaultRegistry (cells [0x60, 1, 2]) 3 = .ok (.unknownDevice (some 96)) := by decide +kernel

/-- V-DEC-11: High before Low. -/
theorem test_decode_highFirst :
    decodeFrame
        [(5, { code := 5, deviceTypeName := ascii "HL", expectedByteCount := 3
               byteMappings := [identSlot (ascii "d"), tempSlot .high (ascii "x") f64Tenth, tempSlot .low (ascii "x") f64Tenth] })]
        (cells [5, 2, 5]) 3
      = .ok (.record [(ascii "d", .str (ascii "HL")), (ascii "x", .num 0x4049D9999999999A)]) := by decide +kernel

/-- V-DEC-12: the output keys follow the bit order. -/
theorem test_decode_outputOrder :
    decodeFrame
        [(6, { code := 6, deviceTypeName := ascii "OB", expectedByteCount := 3
               byteMappings := [identSlot (ascii "d"), outbitsSlot (ascii "o") #v[3, 0, 1, 0, 0, 0, 0, 2],
                 tempSlot .none (ascii "t") f64One] })]
        (cells [6, 0x81, 0xFF]) 3
      = .ok (.record [(ascii "d", .str (ascii "OB")), (ascii "o3", .bool true), (ascii "o1", .bool false),
          (ascii "o2", .bool true), (ascii "t", .num 0x406FE00000000000)]) := by decide +kernel

/-- The BM rows alone: the examples of R175 and R176. -/
theorem test_bm_ident_outbits :
    ((after (exec .bmIdent (forSlot (identSlot (ascii "devicetype")) 0x20 []))).bind slotRecord)
        = some [(ascii "devicetype", .str (ascii "UVR64"))]
      ∧ ((after (exec .bmOutbits (forSlot (outbitsSlot (ascii "output") #v[0, 0, 0, 0, 1, 2, 3, 4]) 0x10 []))).bind slotRecord)
        = some [(ascii "output1", .bool true), (ascii "output2", .bool false), (ascii "output3", .bool false),
            (ascii "output4", .bool false)] := by decide +kernel

/-- The BM rows alone: the examples of R177, R178 and R179 (21.5, 0.5, 51.7). -/
theorem test_bm_temps :
    ((after (exec .bmTemp (forSlot (tempSlot .none (ascii "t") f64Tenth) 215 []))).bind slotRecord)
        = some [(ascii "t", .num 0x4035800000000000)]
      ∧ ((after (exec .bmTempLo (forSlot (tempSlot .low (ascii "temp1") f64Tenth) 5 []))).bind slotRecord)
        = some [(ascii "temp1", .num 0x3FE0000000000000)]
      ∧ ((after (exec .bmTempHi
          (forSlot (tempSlot .high (ascii "temp1") f64Tenth) 2 [(ascii "temp1", .num 0x3FE0000000000000)]))).bind slotRecord)
        = some [(ascii "temp1", .num 0x4049D9999999999A)] := by decide +kernel

/-- R13, G8, R182: rounding, a subnormal product, overflow to infinity, the sign of an exact zero sum. -/
theorem test_binary64 :
    fMul 0x3FB999999999999A 0x4008000000000000 = 0x3FD3333333333334
      ∧ fMul 0x0000000000000001 0x3FE0000000000000 = 0x0000000000000000
      ∧ fMul 0x7FE0000000000000 0x4000000000000000 = 0x7FF0000000000000
      ∧ fAdd 0x3FF0000000000000 0xBFF0000000000000 = 0x0000000000000000
      ∧ fAdd 0x8000000000000000 0x8000000000000000 = 0x8000000000000000 := by decide +kernel

/-! ## Reset, lifecycle, faults -/

/-- V-RST-1. -/
theorem test_reset :
    ((after (exec .reset { syncedAt 5 (w4.dropLast ++ [0]) 5000 with run := 15, lastEdgeTs := 5000 })).map fun s =>
        (view s, s.lastEdgeTs)) = some (⟨0, false, 0, [], 0, 0, []⟩, 0) := by decide +kernel

/-- R244: an edge before the first RESET is no move; RESET then starts operation. -/
theorem test_bootOrder :
    refusalOf (exec (.edgeRise 10000 500) { fresh with phase := .configured }) = some .beforeReset
      ∧ ((after (exec .reset { fresh with phase := .configured })).map fun s => s.phase) = some .running := by decide +kernel

/-- 93 item 2: each broken invariant of R30 faults under its name. -/
theorem test_broken_faults :
    faultOf (exec (.edgeRise 10000 500) { fresh with run := 16 }) = some .runOutOfRange
      ∧ faultOf (exec (.edgeRise 10000 500) { fresh with bitIndex := 1 }) = some .bitIndexWhileUnsynced
      ∧ faultOf (exec (.edgeRise 10000 500) (syncedAt 10 [0x20] 0)) = some .bitIndexOutOfRange
      ∧ faultOf (exec (.edgeRise 10000 500) { fresh with frameLen := 1 }) = some .bufLengthBroken
      ∧ faultOf (exec (.edgeRise 10000 500) (syncedAt 1 [] 0)) = some .partialByteMissing
      ∧ faultOf (exec (.edgeRise 10000 500) (syncedAt 2 [0x02] 0)) = some .partialByteBits := by decide +kernel

/-! ## The step, the ROM image and the trace syntax -/

/-- R65: the oldest transaction is taken; V-SY-1 through the step. -/
theorem test_step_edge :
    ((after (step { fresh with inbox := [.ev 0x100002710000001F4, .ctl 0] })).map fun s => (view s, s.inbox))
      = some (⟨1, false, 0, [], 0, 0, []⟩, [.ctl 0]) := by decide +kernel

/-- R84, R225: `CTL` 0 is taken and does nothing; with nothing waiting the core rests. -/
theorem test_step_none :
    ((after (step { fresh with run := 4, inbox := [.ctl 0] })).map fun s => (s.run, s.inbox)) = some (4, [])
      ∧ ((after (step { fresh with run := 4, events := [.unknownDevice none] })).map fun s => (s.run, s.events))
        = some (4, []) := by decide +kernel

/-- The host's probe: a selector word that is placed runs. -/
theorem test_withFetchWord :
    ((after (step (fresh.withFetchWord 4 0b1011))).map fun s => s.events) = some [.unknownDevice none]
      ∧ ((after (step (fresh.withFetchWord 5 0b10011))).map fun s => s.events) = some [.syncLoss .stop 0]
      ∧ decodeTableWord 65 0x1000027100004E200 = some (.edgeRise 10000 320000)
      ∧ decodeTableWord 8 0x0B = some .syncMark := by decide +kernel

/-- The W registry's image, V-ENC-6: 33 bytes. -/
def wImage : List Byte :=
  [0x01, 0x00, 0x01, 0x00, 0x09, 0x01, 0x00, 0x00, 0x00, 0x01, 0x00, 0x00, 0x00, 0x00, 0x00, 0x00, 0x00, 0x00, 0x00, 0x00, 0x00,
    0x00, 0x00, 0x00, 0xF0, 0x3F, 0x02, 0x00, 0x01, 0x57, 0x02, 0x69, 0x64]

/-- Its device record and its name table. -/
def wRecords : List RomRecord :=
  [{ code := 9, expectedByteCount := 1, typeNameId := 0
     entries := [{ kind := .deviceIdentity, wordPosition := .none, fieldNameId := 1, bitToOutputIndex := noOutputs, scale := f64One }] }]

/-- The strings of its name table. -/
def wNames : List Name := [ascii "W", ascii "id"]

/-- V-ENC-6, read and written. -/
theorem test_rom_image :
    parseImage wImage
        = .ok ([(9, { code := 9, deviceTypeName := ascii "W", expectedByteCount := 1, byteMappings := [identSlot (ascii "id")] })],
          wNames)
      ∧ encodeImage wRecords wNames = wImage := by decide +kernel

/-- R8, R112, R13: the constants, and the weight of a High byte in binary64. -/
theorem test_constants :
    syncRun = 16 ∧ bitsPerByte = 8 ∧ fullRun = 15 ∧ stopIndex = 9 ∧ wordHighWeight = 256
      ∧ fOfDecimal false wordHighWeight 0 = f64Weight := by decide +kernel

/-- R97: the times of CELLS are taken modulo 2^32, its first time too; its `d0` is a duration (R96). -/
theorem test_cells_range :
    expandLine (.cells (2 ^ 32 + 5) 20000 [true]) = .ok [.edgeRise 20000 10005]
      ∧ expandLine (.cells 0 (2 ^ 32) [true]) = .error .range := by decide +kernel

/-- R247: a run ends with the events of its steps in order; a RESET among the edges leaves only them (V-SY-5's edge before it, V-SY-1's after). -/
theorem test_run :
    (match runTrace testConfig [.reset, .edgeFall 5000 1000, .reset, .edgeRise 10000 500] with
      | some (.ended s es) => some (view s, es)
      | _ => none) = some (⟨1, false, 0, [], 0, 0, []⟩, [.invalidPulse false 5000 1000])
      ∧ runTrace testConfig [.edgeFall 5000 1000] = none := by decide +kernel

/-! ## Witnesses: the hypotheses of each statement can be met together -/

/-- Of ResetWritesEveryRegister: both phases. -/
theorem witness_reset :
    (∃ s : State, s.phase = .running ∧ configOk s.cfg = true ∧ s.run = 16)
      ∧ ∃ s : State, s.phase = .configured ∧ configOk s.cfg = true :=
  ⟨⟨{ fresh with run := 16 }, by decide +kernel⟩, ⟨{ fresh with phase := .configured }, by decide +kernel⟩⟩

/-- Of CategoryRowsLeaveTheCategory: each row at a boundary of its window, and a row that is not formed. -/
theorem witness_category :
    classify 9001 = .short ∧ classify 10999 = .short ∧ classify 18001 = .long ∧ classify 21999 = .long
      ∧ classify 22000 = .invalid ∧ classify 9000 ≠ .short := by decide

/-- Of SyncIncCountsOneMore: the counts 0 and 14. -/
theorem witness_syncInc :
    (Ready (forSync 0 true 9001) ∧ syncSel (forSync 0 true 9001) = 0b1010)
      ∧ Ready (forSync 14 true 10999) ∧ syncSel (forSync 14 true 10999) = 0b1010 := by decide +kernel

/-- Of SyncRowsClearOrHold: each clearing row, with the count at 15 and below. -/
theorem witness_syncClear :
    (Ready (forSync 15 true 18001) ∧ syncSel (forSync 15 true 18001) = encodeSync true 0b10 true)
      ∧ (Ready (forSync 14 true 11000) ∧ syncSel (forSync 14 true 11000) = encodeSync true 0b00 false)
      ∧ (Ready (forSync 15 false 9000) ∧ syncSel (forSync 15 false 9000) = encodeSync false 0b00 true) := by decide +kernel

/-- Of SyncRowsClearOrHold: both holding rows, with the count at 15 and at 0. -/
theorem witness_syncHold :
    (Ready (forSync 15 false 9001) ∧ syncSel (forSync 15 false 9001) = encodeSync false 0b01 true)
      ∧ (Ready (forSync 0 false 21999) ∧ syncSel (forSync 0 false 21999) = encodeSync false 0b10 false) := by decide +kernel

/-- Of SyncMarkFinalizesThenAligns. -/
theorem witness_syncMark : Ready (forSync 15 true 9001) ∧ syncSel (forSync 15 true 9001) = 0b1011 := by decide +kernel

/-- Of BitStartAppendsZeroByte: the last byte stored, the first one not stored, and FRAME_LEN saturated. -/
theorem witness_bitStart :
    (Ready (forBit 0 (List.replicate 31 0) true) ∧ atBoundary (forBit 0 (List.replicate 31 0) true) = true
        ∧ bitSel (forBit 0 (List.replicate 31 0) true) = 0b00001)
      ∧ (Ready (forBit 0 (List.replicate 32 0) true) ∧ bitSel (forBit 0 (List.replicate 32 0) true) = 0b00001)
      ∧ Ready { forBit 0 (List.replicate 32 0) true with frameLen := 0xFFFFFFFF } := by decide +kernel

/-- Of BitStartFailLosesSync. -/
theorem witness_bitStartFail :
    Ready (forBit 0 [] false) ∧ atBoundary (forBit 0 [] false) = true ∧ bitSel (forBit 0 [] false) = 0b00000 := by decide +kernel

/-- Of DataBitAddsItsWeight: each row at its ends, at `BUF_CAP` and one above it. -/
theorem witness_data :
    ([1, 2, 3, 4, 5, 6, 7, 8].all fun k =>
        let s := forBit (BitVec.ofNat 8 k) (List.replicate 32 0) false
        decide (Ready s) && atBoundary s && decide (bitSel s = encodeBit (BitVec.ofNat 4 k) false)) = true
      ∧ Ready { forBit 8 (List.replicate 32 0) true with frameLen := 33 }
      ∧ bitSel { forBit 8 (List.replicate 32 0) true with frameLen := 33 } = encodeBit 8 true := by decide +kernel

/-- Of BitStopCompletesTheByte. -/
theorem witness_bitStop :
    Ready (forBit 9 [0xFF] false) ∧ atBoundary (forBit 9 [0xFF] false) = true ∧ bitSel (forBit 9 [0xFF] false) = 0b10010 := by
  decide +kernel

/-- Of BitStopFailDropsTheByte: the byte stored at `BUF_CAP`, and one beyond it. -/
theorem witness_bitStopFail :
    (Ready (forBit 9 (List.replicate 32 1) true) ∧ atBoundary (forBit 9 (List.replicate 32 1) true) = true
        ∧ bitSel (forBit 9 (List.replicate 32 1) true) = 0b10011)
      ∧ Ready { forBit 9 (List.replicate 32 1) true with frameLen := 33 } := by decide +kernel

/-- Of IdentPutsTheTypeName and TempPutsTheScaledValue: a slot whose key is absent. -/
theorem witness_put :
    (controlByte (identSlot (ascii "d")) = 0x00 ∧ ascii "d" ∉ ([] : Record).map Prod.fst)
      ∧ controlByte (tempSlot .none (ascii "t") f64Tenth) = 0x02 := by decide

/-- Of OutbitsPutsUsedBitsInOrder: the outputs 255 and 1, at bits 0 and 7. -/
theorem witness_outbits :
    let m := outbitsSlot (ascii "o") #v[255, 0, 0, 0, 0, 0, 0, 1]
    controlByte m = 0x01 ∧ (m.bitToOutputIndex.toList.filter fun o => o != 0).Nodup
      ∧ (∀ o ∈ m.bitToOutputIndex.toList, o ≠ 0 → m.fieldName ++ decByte o ∉ ([(ascii "d", .bool true)] : Record).map Prod.fst) := by
  decide

/-- Of HalfTemperatureRowsAccumulate: both rows, and a record with the key between two others. -/
theorem witness_halves :
    controlByte (tempSlot .low (ascii "x") f64Tenth) = 0x06 ∧ controlByte (tempSlot .high (ascii "x") f64Tenth) = 0x0A
      ∧ ascii "x" ∉ ([(ascii "a", .bool true)] : Record).map Prod.fst ∧ ascii "x" ∉ ([(ascii "b", .num 0)] : Record).map Prod.fst := by
  decide

/-- Of RecordClashFaults: a taken key, and values that are no Num. -/
theorem witness_clash :
    ascii "d" ∈ ([(ascii "d", .bool true)] : Record).map Prod.fst
      ∧ Record.get [(ascii "d", .bool true)] (ascii "d") = some (.bool true)
      ∧ faultOf (exec .bmIdent (forSlot (identSlot (ascii "d")) 0 [(ascii "d", .bool true)])) = some .recordKeyPresent
      ∧ faultOf (exec .bmTempHi (forSlot (tempSlot .high (ascii "d") f64One) 0 [(ascii "d", .bool true)]))
        = some .recordNotNum := by decide +kernel

/-- Of RecordClashFaults, BM.OUTBITS: output 1 twice (bits 0 and 7), and a taken key of bit 7. -/
theorem witness_outbitsClash :
    controlByte (outbitsSlot (ascii "o") #v[1, 0, 0, 0, 0, 0, 0, 1]) = 0x01
      ∧ ¬(([1, 0, 0, 0, 0, 0, 0, 1] : List Byte).filter fun o => o != 0).Nodup
      ∧ ascii "o" ++ decByte 1 ∈ ([(ascii "o1", .bool true)] : Record).map Prod.fst
      ∧ faultOf (exec .bmOutbits (forSlot (outbitsSlot (ascii "o") #v[0, 0, 0, 0, 0, 0, 0, 1]) 0 [(ascii "o1", .bool true)]))
        = some .recordKeyPresent := by decide +kernel

/-- Of EdgeRunsThePseudocode and of the other statements whose premise is Ready: unsynced, awaiting a start bit, in a byte, awaiting a
stop bit. -/
theorem witness_ready :
    Ready fresh ∧ Ready (syncedAt 0 [] 0) ∧ Ready (syncedAt 1 [0] 0) ∧ Ready (syncedAt 8 [0x7F] 0) ∧ Ready (syncedAt 9 [0xFF] 0) :=
  ⟨by decide +kernel, by decide +kernel, by decide +kernel, by decide +kernel, by decide +kernel⟩

/-- Of MarkerEdgeOnlyFinalizes. -/
theorem witness_marker : Ready { fresh with run := 15 } ∧ classify 9001 = .short ∧ classify 10999 = .short := by decide +kernel

/-- Of EdgeOffBoundaryDecodesNothing: unsynced; synced at the intervals 18000 and 22000; neither a marker. -/
theorem witness_offBoundary :
    (Ready fresh ∧ fresh.synced = false) ∧ Ready (syncedAt 0 [] 0) ∧ classify (18000 - (syncedAt 0 [] 0).lastBitTs) ≠ .long
      ∧ classify (22000 - (syncedAt 0 [] 0).lastBitTs) ≠ .long ∧ (syncedAt 0 [] 0).run ≠ 15 := by decide +kernel

/-- Of EdgeUpdatesRunByTable and FsmFollowsTransitionTable: a boundary at 18001 and at 21999 in each FSM state. -/
theorem witness_fsm :
    classify (18001 - (syncedAt 0 [] 0).lastBitTs) = .long ∧ classify (21999 - (syncedAt 0 [] 0).lastBitTs) = .long
      ∧ fsmState (syncedAt 0 [] 0) = some .awaitingStart ∧ fsmState (syncedAt 1 [0] 0) = some (.inByte 1)
      ∧ fsmState (syncedAt 7 [0] 0) = some (.inByte 7) ∧ fsmState (syncedAt 8 [0] 0) = some (.inByte 8)
      ∧ fsmState (syncedAt 9 [0] 0) = some .awaitingStop := by decide +kernel

/-- Of EdgeEventsKeepTheirOrder, EdgeTouchesAtMostOneByte and SyncIsLostOnlyByFailedCheck: edges that complete from a synced state and lose
sync, at a start bit and at a stop bit, and one with an Invalid duration that does not (R142). -/
theorem witness_edgeNext :
    (∃ t, exec (if false then .edgeRise 5000 120000 else .edgeFall 5000 120000) (syncedAt 0 [0x20] 100000) = .next t)
      ∧ (∃ t, exec (if true then .edgeRise 20000 20000 else .edgeFall 20000 20000) (syncedAt 9 [0x7F] 0) = .next t)
      ∧ (∃ t, exec (if false then .edgeRise 5000 5000 else .edgeFall 5000 5000) (syncedAt 1 [0] 0) = .next t)
      ∧ (syncedAt 0 [0x20] 100000).synced = true ∧ (syncedAt 9 [0x7F] 0).synced = true ∧ (syncedAt 1 [0] 0).synced = true :=
  ⟨next_of_after (by decide +kernel), next_of_after (by decide +kernel), next_of_after (by decide +kernel), rfl, rfl, rfl⟩

/-- Of SixteenShortRisesFinalizeOnce: 16 rising Short edges from RUN = 15, a falling Long one among them; and 32. -/
theorem witness_sixteen :
    Ready { fresh with run := 15 } ∧ CapBelowSaturation fresh
      ∧ (∀ e ∈ (false, (21999 : U32), (1 : U32)) :: List.replicate 16 (true, 9001, 2),
          (e.1 = true → classify e.2.1 = .short) ∧ (e.1 = false → classify e.2.1 ≠ .invalid))
      ∧ (((false, (21999 : U32), (1 : U32)) :: List.replicate 16 (true, 9001, 2)).filter fun e => e.1).length = 16
      ∧ ((List.replicate 32 (true, (9001 : U32), (2 : U32))).filter fun e => e.1).length = 32 := by
  refine ⟨by decide +kernel, by decide +kernel, fun e he => ?_, by decide, by decide⟩
  rcases List.mem_cons.mp he with rfl | he
  · decide
  · rw [List.eq_of_mem_replicate he]
    decide

/-- Nine boundaries 18001 ticks apart, each edge of Short duration (V-BIT-1), a falling edge of Short interval (V-BIT-8) before the second. -/
def byteEdges : List (Bool × U32 × U32) :=
  [(true, 10000, 18001), (false, 10000, 28001), (true, 10000, 36002), (false, 10000, 54003), (true, 10000, 72004),
    (false, 10000, 90005), (true, 10000, 108006), (false, 10000, 126007), (true, 10000, 144008), (false, 10000, 162009)]

/-- Of ByteIsAssembledLsbFirstInverted: one byte below `BUF_CAP`; Short durations at boundaries and an edge between two of them. -/
theorem witness_byte :
    let s := syncedAt 0 (List.replicate 31 0) 0
    Ready s ∧ s.synced = true ∧ s.bitIndex = 0 ∧ s.frameLen.toNat < s.cfg.bufCap ∧ CapBelowSaturation s
      ∧ markerFree s.run byteEdges = true
      ∧ boundaryLevels s.lastBitTs byteEdges = true :: List.ofFn fun j : Fin 8 => j.val % 2 == 0 := by decide +kernel

/-- The byte of those edges, by R137: level 1 adds nothing, level 0 its weight. -/
theorem test_byte :
    ((runEdges byteEdges (syncedAt 0 [0x20] 0) []).map fun r => view r.1)
      = some ⟨5, true, 9, [0x20, 0xAA], 2, 162009, []⟩ := by decide +kernel

/-- Of EveryStepKeepsSoundness, NoStepFromSoundStateFaults and RunningInstanceTakesEveryWord: sound states in both phases, with a word waiting, and a step that
completes. -/
theorem witness_sound :
    Sound { fresh with inbox := [.ev 0] } ∧ Sound { fresh with inbox := [.ctl 1] } ∧ Sound { fresh with phase := .tornDown }
      ∧ ∃ t, step { fresh with inbox := [.ev 0] } = .next t :=
  ⟨by decide +kernel, by decide +kernel, by decide +kernel, next_of_after (by decide +kernel)⟩

/-- Of BrokenRegistersFault. -/
theorem witness_broken :
    ¬RegInv { fresh with run := 16 } ∧ fresh.phase = .running ∧ configOk fresh.cfg = true ∧ Instr.syncInc ≠ .reset := by
  decide +kernel

/-- Of NoMoveOutsideOperation: each of the four phases. -/
theorem witness_noMove :
    ∀ p ∈ [Phase.configured, .unconfigured, .refused, .tornDown], ({ fresh with phase := p } : State).phase = p := by decide

/-- Of ConfigurationLoadIsChecked: a new instance, a good and a bad configuration, an image that is read with a good and with a bad `BUF_CAP`, one that
is not read, and a second load. -/
theorem witness_load :
    unconfiguredState.phase = .unconfigured ∧ unconfiguredState.sub = none ∧ configOk { testConfig with bufCap := 15 } = true
      ∧ configOk { testConfig with bufCap := 14 } = false
      ∧ configOk { registry := imageRegistry wRecords wNames, controllerId := ⟨7⟩, bufCap := 2 } = true
      ∧ configOk { registry := imageRegistry wRecords wNames, controllerId := ⟨7⟩, bufCap := 1 } = false
      ∧ parseImage wImage = .ok (imageRegistry wRecords wNames, wNames) ∧ parseImage (2 :: wImage.tail) = .error .version
      ∧ ({ fresh with inbox := [.configure testConfig] } : State).inbox = .configure testConfig :: [] := by decide +kernel

/-- Of ConfigurationChecksAreWf1ToWf9: a configuration that passes, one refused by WF7, one by R7, and the empty registry. -/
theorem witness_checks :
    configOk { testConfig with bufCap := 15 } = true
      ∧ configOk { testConfig with registry := [(5, defnOf [tempSlot .low (ascii "x") f64One])] } = false
      ∧ configOk { testConfig with registry := [(5, defnOf [tempSlot .low (ascii "x") f64One, tempSlot .high (ascii "x") f64One])] } = true
      ∧ configOk { testConfig with bufCap := 14 } = false
      ∧ configOk { testConfig with registry := [], bufCap := 1 } = true
      ∧ configOk { testConfig with registry := [], bufCap := 0 } = false := by decide +kernel

/-- Of RunsEndWithEveryStepsEvents: a checked configuration, and transactions of each kind. -/
theorem witness_runs :
    configOk testConfig = true ∧ testConfig.bufCap < 2 ^ 32 - 1
      ∧ (∀ i ∈ [Instr.edgeFall 5000 50000, .reset, .edgeRise 10000 500], (inputOf i).isSome = true)
      ∧ runTrace testConfig [.reset] = some (.ended (launchState testConfig) [])
      ∧ (runEdges [(false, 5000, 50000)] (launchState testConfig) []).isSome = true ∧ Instr.edgeRise 10000 500 ≠ .reset := by
  decide +kernel

/-- Of TeardownDiscardsWithoutEvents: a running and a configured instance. -/
theorem witness_teardown :
    ((after (step { syncedAt 1 [0] 0 with inbox := [.teardown] })).map fun s => (s.phase, s.events)) = some (.tornDown, [])
      ∧ ((after (step { configuredState testConfig with inbox := [.teardown] })).map fun s => (s.phase, s.events))
        = some (.tornDown, []) := by
  decide +kernel

/-- Of NoInstructionWritesConfiguration and LastEdgeTsIsNeverRead, and of the frames: each kind of row completes somewhere. -/
theorem witness_frames :
    (∃ t, exec (.syncClrRl true) (forSync 15 true 20000) = .next t) ∧ (∃ t, exec .bitStartFail (forBit 0 [] false) = .next t)
      ∧ (∃ t, exec .bitStart (forBit 0 [0x20] true) = .next t) ∧ (∃ t, exec (.bitDataK8 false) (forBit 8 [0] false) = .next t)
      ∧ (∃ t, exec .bitStopFail (forBit 9 [0] true) = .next t) ∧ (∃ t, exec .pcShort { forSync 0 true 9001 with run := 0 } = .next t)
      ∧ ∃ t, exec .bmIdent (forSlot (identSlot (ascii "d")) 0 []) = .next t :=
  ⟨next_of_after (by decide +kernel), next_of_after (by decide +kernel), next_of_after (by decide +kernel),
    next_of_after (by decide +kernel), next_of_after (by decide +kernel), next_of_after (by decide +kernel),
    next_of_after (by decide +kernel)⟩

/-- Of LastBitTsIsUnreadWhileUnsynced: an edge from an unsynced state. -/
theorem witness_unsynced : fresh.synced = false ∧ ∃ t, exec (if true then .edgeRise 9001 1 else .edgeFall 9001 1) fresh = .next t :=
  ⟨rfl, next_of_after (by decide +kernel)⟩

/-- Of BufferOperationsMoveOneByte and MemWriteReplacesStoredByte: an empty buffer, a full one, and one beyond its capacity. -/
theorem witness_buffer :
    (fresh.buf.wf = true ∧ fresh.buf.length = min fresh.frameLen.toNat fresh.cfg.bufCap)
      ∧ (let s := { syncedAt 0 (List.replicate 32 0) 0 with frameLen := 33 }
        s.buf.wf = true ∧ s.buf.length = min s.frameLen.toNat s.cfg.bufCap ∧ 31 < s.buf.length) := by decide +kernel

/-- Of DecodeChecksInOrder and WellFormedDefinitionFixesTheKeys: a known code with 14 bytes, with 13, and an unknown code. -/
theorem witness_decode :
    configOk testConfig = true ∧ regLookup testConfig.registry 32 = some uvr64 ∧ (cells w4).wf = true ∧ (cells w4).length = 14
      ∧ uvr64.expectedByteCount.toNat = 14 ∧ (cells w4).read 0 = some 32 ∧ (13 : U32).toNat ≠ 14
      ∧ regLookup testConfig.registry 200 = none := by decide +kernel

/-- Of SumOfHalvesIsOrderIndependent and HighTermIsExact: 0.1, and the greatest values whose High term is finite. -/
theorem witness_floats :
    fIsNan f64Tenth = false ∧ fIsInf f64Tenth = false ∧ fIsFinite 0x7F6FFFFFFFFFFFFF = true
      ∧ fIsFinite (highTerm 0x7F6FFFFFFFFFFFFF) = true := by decide +kernel

/-- Of DecodeOfEncodeIsIdentity and EveryWordHasOneMeaning. -/
theorem witness_encode :
    Instr.wf (.bitDataK4_7 7 true) = true ∧ decode (encode (.bitDataK4_7 7 true)) = .ok (.bitDataK4_7 7 true)
      ∧ decode (encode (.edgeRise 0xFFFFFFFF 0)) = .ok (.edgeRise 0xFFFFFFFF 0) := by decide

/-- Of RomImageIsReadExactly: the W registry keeps every "must"; V-ENC-5's entry of UVR64 slot 2, with name index 2. -/
theorem witness_romImage :
    ImageMusts wRecords wNames
      ∧ encodeEntry { kind := .temperature, wordPosition := .high, fieldNameId := 2, bitToOutputIndex := noOutputs, scale := f64Tenth }
        = [0x0A, 2, 0, 0, 0, 0, 0, 0, 0, 0, 0x9A, 0x99, 0x99, 0x99, 0x99, 0x99, 0xB9, 0x3F] := by decide +kernel

/-- Of StepRunsTheDecodedInstruction: each of its cases. -/
theorem witness_step :
    ({ fresh with inbox := [.ev 0] } : State).sub = none ∧ decode (.ev 0) = .ok (.edgeFall 0 0) ∧ decode (.ctl 1) = .ok .reset
      ∧ ({ fresh with sub := some (.sync 0b1010) } : State).sub = some (.sync 0b1010)
      ∧ decode (.sel (.sync 0b1010)) = .ok .syncInc := by decide

/-- Of UnformedSelectorFaults: SYNC.INC at a full count, BIT.START off a boundary, BIT.STOP with `BIT_INDEX` 8, BM.TEMP.HI with no slot and on a
Low slot. -/
theorem witness_unformed :
    (Ready (forSync 15 true 9001) ∧ encode .syncInc = .sel (.sync 0b1010) ∧ syncSel (forSync 15 true 9001) ≠ 0b1010)
      ∧ (encode .bitStart = .sel (.bit 0b00001) ∧ atBoundary fresh = false)
      ∧ (Ready (forBit 8 [0] false) ∧ bitSel (forBit 8 [0] false) ≠ 0b10010)
      ∧ (encode .bmTempHi = .sel (.mapping 0x0A) ∧ fresh.work.slot = none
        ∧ controlByte (tempSlot .low (ascii "d") f64One) ≠ 0x0A) := by decide +kernel

end Sys2Proof.Tests
end

section
/-! What one step takes and runs (00_scope.md R14, 20_memory.md R65, 30_encoding.md R84): the three cases of `fetch`, what each decoded word
comes to, and from these the obligation on the step. -/

namespace Sys2Proof.Proofs.Step

open Sys2Proof.Machine Sys2Proof.Laws

/-! A step is what `fetch` answers. -/

theorem step_of_fetch_run {s t : State} {i : Instr} (h : fetch s = .run i t) : step s = exec i t := by
  simp [step, h]

theorem step_of_fetch_done {s : State} {o : Outcome} (h : fetch s = .done o) : step s = o := by
  simp [step, h]

/-! `fetch` reads the selector word placed alone first, and the inbox only without one (notes/assumptions/1.md). -/

theorem fetch_of_sub {s : State} {x : Sel} (hsub : s.sub = some x) :
    fetch s = fetchedOr (decodeSel x) { s with sub := none, events := [] } fun r => .fault (rejectFault r) := by
  simp [fetch, hsub]

theorem fetch_of_inbox_cons {s : State} {x : Input} {rest : List Input} (hsub : s.sub = none) (hin : s.inbox = x :: rest) :
    fetch s = fetchInput x (taken s rest) := by
  simp [fetch, hsub, hin]

theorem fetch_of_inbox_nil {s : State} (hsub : s.sub = none) (hin : s.inbox = []) :
    fetch s = .done (.next { s with events := [] }) := by
  simp [fetch, hsub, hin]

/-! A word that decodes is fetched as its instruction; the one rejected `CTL` word is fetched as no instruction at all (R84). -/

@[simp] theorem fetchedOr_ok (i : Instr) (s : State) (otherwise : Reject → Outcome) :
    fetchedOr (.ok i) s otherwise = .run i s := rfl

theorem fetchInput_ev_of_decode {w : BitVec 65} {i : Instr} (s : State) (hdec : decode (.ev w) = .ok i) :
    fetchInput (.ev w) s = .run i s := by
  cases hdec
  rfl

theorem fetchInput_ctl_of_decode {w : BitVec 1} {i : Instr} (s : State) (hdec : decode (.ctl w) = .ok i) :
    fetchInput (.ctl w) s = .run i s := by
  have hctl : decodeCtl w = .ok i := hdec
  simp [fetchInput, hctl]

theorem fetchInput_ctl_zero (s : State) : fetchInput (.ctl 0) s = .done (.next s) := rfl

theorem fetch_of_sub_decode {s : State} {x : Sel} {i : Instr} (hsub : s.sub = some x) (hdec : decode (.sel x) = .ok i) :
    fetch s = .run i { s with sub := none, events := [] } := by
  have hsel : decodeSel x = .ok i := hdec
  rw [fetch_of_sub hsub, hsel, fetchedOr_ok]

/-- Settles O58: in each case `fetch` answers the instruction and the state it runs on, or the state the core rests in. -/
theorem stepRunsTheDecodedInstruction : Obligations.StepRunsTheDecodedInstruction := by
  intro s rest
  refine ⟨fun hsub => ⟨?ev, ?ctl, ?ctlZero, ?idle⟩, ?selector⟩
  case ev =>
    intro w i hin hdec
    exact step_of_fetch_run ((fetch_of_inbox_cons hsub hin).trans (fetchInput_ev_of_decode _ hdec))
  case ctl =>
    intro w i hin hdec
    exact step_of_fetch_run ((fetch_of_inbox_cons hsub hin).trans (fetchInput_ctl_of_decode _ hdec))
  case ctlZero =>
    rintro w hin rfl
    exact step_of_fetch_done ((fetch_of_inbox_cons hsub hin).trans (fetchInput_ctl_zero _))
  case idle =>
    exact fun hin => step_of_fetch_done (fetch_of_inbox_nil hsub hin)
  case selector =>
    exact fun x i hsub hdec => step_of_fetch_run (fetch_of_sub_decode hsub hdec)

end Sys2Proof.Proofs.Step
end

section
/-! What an edge does (41_frame_assembler.md R120 to R140): it is the pseudocode of R120, whose two parts S2 and S3 each come to a few cases.
From these, the obligations on `RUN`, on losing sync and on `LAST_BIT_TS`. -/

namespace Sys2Proof.Proofs.Edge

open Sys2Proof.Machine Sys2Proof.Laws

/-! ## The step through selectors is the pseudocode -/

theorem exec_edge (level : Bool) (dur ts : U32) :
    exec (if level then .edgeRise dur ts else .edgeFall dur ts) = edgeStep level dur ts := by
  cases level <;> rfl

/-- R120 completes in a ready state; with `BUF_CAP` below the saturation of `FRAME_LEN` it leaves a ready state. -/
theorem r120_ready {s : State} (level : Bool) (dur ts : U32) (hr : Ready s) :
    ∃ t, r120 level dur ts s = .ok t ∧ (CapBelowSaturation s → Ready t) ∧ SameOutside s t := by
  obtain ⟨u, hu, hur, ⟨hcfg, hphase, hinbox, hsub⟩, _⟩ :=
    r120S2_ready (s := { s with events := [] }) level (classify dur) dur ts hr
  obtain ⟨v, hv, hvr, ⟨hcfg', hphase', hinbox', hsub'⟩, _, _⟩ := r120S3_ready level ts hur
  refine ⟨{ v with lastEdgeTs := ts }, by simp only [r120, hu, hv], fun hcap => hvr (.inl ?_), hcfg'.trans hcfg,
    hphase'.trans hphase, hinbox'.trans hinbox, hsub'.trans hsub⟩
  rw [CapBelowSaturation, hcfg]
  exact hcap

/-- The values of the step in progress after S1 (R80, R122). -/
def classified (level : Bool) (dur ts : U32) : Work :=
  { Work.idle with level := level, dur := dur, ts := ts, classIn := dur, classOut := classify dur }

/-- In a ready state the edge step is R120, and leaves no step-local value behind. -/
theorem edgeStep_ready {s : State} (level : Bool) (dur ts : U32) (hr : Ready s) :
    edgeStep level dur ts s = toOutcome (withWork Work.idle (r120 level dur ts s)) := by
  obtain ⟨u, hu, hur, _⟩ := r120S2_ready (s := { s with events := [] }) level (classify dur) dur ts hr
  obtain ⟨v, hv, _⟩ := r120S3_ready level ts hur
  have hsync : syncStep { s with events := [], work := classified level dur ts }
      = .next { u with work := classified level dur ts } := by
    refine (syncStep_ready (s := { s with events := [], work := classified level dur ts }) hr).trans ?_
    have h := r120S2_work level (classify dur) dur ts { s with events := [] } (classified level dur ts)
    rw [hu] at h
    exact congrArg toOutcome h
  have hbit : ∃ w', bitStep ts { u with work := classified level dur ts } = .next { v with work := w' } := by
    obtain ⟨w', h⟩ := bitStep_ready (s := { u with work := classified level dur ts }) (ts := ts) hur rfl
    have h' := r120S3_work level ts u w'
    rw [hv] at h'
    exact ⟨w', h.trans (congrArg toOutcome h')⟩
  obtain ⟨w', hbit⟩ := hbit
  have hclassify : classifyStep dur (beginEdge level dur ts s)
      = .next { s with events := [], work := classified level dur ts } := classifyStep_eq _ _
  simp only [edgeStep, accept_ready hr, hclassify, hsync, hbit, andThen_next, r120, hu, hv]
  rfl

/-- An edge completes only in a ready state, as R120 says. -/
theorem edgeStep_next {s t : State} {level : Bool} {dur ts : U32} (h : edgeStep level dur ts s = .next t) :
    Ready s ∧ ∃ u, r120 level dur ts s = .ok u ∧ t = { u with work := Work.idle } := by
  have hr : Ready s := (accept_next h).1
  obtain ⟨u, hu, _⟩ := r120_ready level dur ts hr
  rw [edgeStep_ready level dur ts hr, hu] at h
  cases h
  exact ⟨hr, u, hu, rfl⟩

/-! ## S2 -/

/-- This edge completes a sync marker (R125). -/
abbrev CompletesMarker (level : Bool) (dur : U32) (s : State) : Prop :=
  level = true ∧ classify dur = .short ∧ s.run = 15

/-- INVALID_PULSE, if the edge's own duration is Invalid (R124). -/
def pulseEvents (level : Bool) (dur ts : U32) : List Event :=
  if classify dur = .invalid then [.invalidPulse level dur ts] else []

/-- The state after S2 of an edge that completes no marker: the count by the table of R123, and INVALID_PULSE. -/
def counted (level : Bool) (dur ts : U32) (s : State) : State :=
  { s with run := runAfter s.run level (classify dur), events := pulseEvents level dur ts }

/-- The state after a marker edge whose frame decodes to `r` (R126). -/
def marked (ts : U32) (r : DecodeResult) (s : State) : State :=
  { s with
    run := 0, synced := true, bitIndex := 0, buf := [], frameLen := 0, lastEdgeTs := ts, lastBitTs := ts
    events := [finalEvent s.cfg.controllerId r] }

theorem runAfter_marker : runAfter 15 true .short = 0 := rfl

theorem r120S2_marker {s : State} {dur ts : U32} (h : s.run = 15) : r120S2 true .short dur ts s = syncMarker ts s := by
  simp only [r120S2, h, and_self, if_true, reduceCtorEq, if_false]
  cases syncMarker ts s <;> rfl

theorem r120S2_counted {s : State} {level : Bool} {dur : U32} (ts : U32) (h : ¬CompletesMarker level dur s) :
    r120S2 level (classify dur) dur ts { s with events := [] } = .ok (counted level dur ts s) := by
  unfold counted pulseEvents CompletesMarker at *
  cases level <;> cases hc : classify dur
  case true.short =>
    have hrun : s.run ≠ 15 := fun h' => h ⟨rfl, hc, h'⟩
    simp only [r120S2, runAfter, and_self, if_true, if_neg hrun, reduceCtorEq, if_false]
  all_goals rfl

/-- A bit interval measured from the marker's own edge is 0, which is Invalid: no bit is decoded (R128). -/
theorem classify_self_sub (ts : U32) : classify (ts - ts) = .invalid := by
  rw [BitVec.sub_self]
  rfl

/-! ## S3 -/

/-- S3 decodes a bit (R131, R133). -/
abbrev AtBoundary (ts : U32) (s : State) : Prop := s.synced = true ∧ classify (ts - s.lastBitTs) = .long

theorem r120S3_offBoundary {s : State} {level : Bool} {ts : U32} (h : ¬AtBoundary ts s) : r120S3 level ts s = .ok s :=
  if_neg h

theorem r120S3_startBit {s : State} {level : Bool} {ts : U32} (h : AtBoundary ts s) (hb : s.bitIndex = 0) :
    r120S3 level ts s
      = .ok (if level then startOk { s with lastBitTs := ts } else startFail ts { s with lastBitTs := ts }) := by
  rw [r120S3, if_pos h]
  cases level <;> simp [hb]

theorem r120S3_dataBit {s : State} {level : Bool} {ts : U32} (h : AtBoundary ts s) (h0 : s.bitIndex ≠ 0)
    (h8 : s.bitIndex.toNat ≤ 8) : r120S3 level ts s = dataBit (s.bitIndex + 1) level { s with lastBitTs := ts } := by
  have h1 : s.bitIndex + 1 ≠ 1 := fun h => h0 (by simpa using h)
  have h9 : (s.bitIndex + 1).toNat ≤ 9 := by bv_omega
  rw [r120S3, if_pos h]
  simp only [h1, h9, if_true, if_false]

theorem r120S3_stopBit {s : State} {level : Bool} {ts : U32} (h : AtBoundary ts s) (hb : s.bitIndex = 9) :
    r120S3 level ts s
      = .ok (if level then stopFail ts { s with lastBitTs := ts } else stopOk { s with lastBitTs := ts }) := by
  rw [r120S3, if_pos h]
  cases level <;> simp [hb]

/-- Under R30 (c) the next bit is a start bit, a data bit or a stop bit. -/
theorem bitIndex_cases {s : State} (hi : RegInv s) :
    s.bitIndex = 0 ∨ (s.bitIndex ≠ 0 ∧ s.bitIndex ≠ 9 ∧ s.bitIndex.toNat ≤ 8) ∨ s.bitIndex = 9 := by
  obtain ⟨_, _, h9, _⟩ := hi
  by_cases h0 : s.bitIndex = 0
  · exact .inl h0
  by_cases hs : s.bitIndex = 9
  · exact .inr (.inr hs)
  · exact .inr (.inl ⟨h0, hs, by bv_omega⟩)

/-- DATA_BIT writes the buffer and `BIT_INDEX` alone. -/
theorem dataBit_ok {s t : State} {n : BitVec 8} {level : Bool} (h : dataBit n level s = .ok t) :
    ∃ buf, t = { s with buf := buf, bitIndex := n } := by
  unfold dataBit at h
  split at h
  · split at h
    · cases h
      exact ⟨_, rfl⟩
    · cases h
  · cases h
    exact ⟨_, rfl⟩

/-! ## S2 and S3 together -/

theorem counted_ready {s : State} {level : Bool} {dur ts : U32} (hr : Ready s) (h : ¬CompletesMarker level dur s) :
    Ready (counted level dur ts s) := by
  obtain ⟨u, hu, hur, _⟩ := r120S2_ready (s := { s with events := [] }) level (classify dur) dur ts hr
  rw [r120S2_counted ts h] at hu
  cases hu
  exact hur

theorem r120_marker {s : State} {level : Bool} {dur : U32} (ts : U32) (hr : Ready s) (h : CompletesMarker level dur s) :
    ∃ r, decodeFrame s.cfg.registry s.buf s.frameLen = .ok r ∧ r120 level dur ts s = .ok (marked ts r s) := by
  obtain ⟨rfl, hc, hrun⟩ := h
  obtain ⟨r, hdec, hm⟩ := syncMarker_ready (s := { s with events := [] }) ts hr
  have hs2 := r120S2_marker (s := { s with events := [] }) (dur := dur) (ts := ts) hrun
  refine ⟨r, hdec, ?_⟩
  rw [r120, hc, hs2, hm]
  dsimp only
  rw [r120S3_offBoundary (by rw [AtBoundary, classify_self_sub]; simp)]
  rfl

/-- Off a marker, R120 is S3 after the count. -/
theorem r120_counted {s t : State} {level : Bool} {dur ts : U32} (h : ¬CompletesMarker level dur s) :
    r120 level dur ts s = .ok t ↔
      ∃ u, r120S3 level ts (counted level dur ts s) = .ok u ∧ t = { u with lastEdgeTs := ts } := by
  rw [r120, r120S2_counted ts h]
  dsimp only
  cases r120S3 level ts (counted level dur ts s) <;> simp [eq_comm]

/-! ## `RUN` -/

/-- R123: `RUN` after R120. -/
theorem r120_run {s t : State} {level : Bool} {dur ts : U32} (hr : Ready s) (h : r120 level dur ts s = .ok t) :
    t.run = runAfter s.run level (classify dur) := by
  by_cases hm : CompletesMarker level dur s
  · obtain ⟨r, _, ht⟩ := r120_marker ts hr hm
    rw [ht] at h
    cases h
    obtain ⟨rfl, hc, hrun⟩ := hm
    rw [hrun, hc, runAfter_marker]
    rfl
  · obtain ⟨u, hu, rfl⟩ := (r120_counted hm).mp h
    obtain ⟨u', hu', _, _, hrun, _⟩ := r120S3_ready level ts (counted_ready (ts := ts) hr hm)
    rw [hu'] at hu
    cases hu
    exact hrun

/-- Settles O21: the table of R123 is S2's, and S3 leaves `RUN`. -/
theorem edgeUpdatesRunByTable : Obligations.EdgeUpdatesRunByTable := by
  intro s level dur ts hr
  obtain ⟨u, hu, _⟩ := r120_ready level dur ts hr
  refine ⟨{ u with work := Work.idle }, ?_, (r120_run hr hu : u.run = _)⟩
  rw [exec_edge, edgeStep_ready level dur ts hr, hu]
  rfl

/-! ## `SYNCED` -/

/-- The edge stands at a bit boundary and is a start bit of level 0 or a stop bit of level 1 (R136, R139). -/
abbrev FailsFramingCheck (level : Bool) (ts : U32) (s : State) : Prop :=
  classify (ts - s.lastBitTs) = .long ∧ ((s.bitIndex = 0 ∧ level = false) ∨ (s.bitIndex = 9 ∧ level = true))

/-- From a synced state, S3 keeps SYNCED and raises nothing, or a framing check fails, and it clears SYNCED and raises SYNC_LOSS. -/
theorem r120S3_synced {s u : State} {level : Bool} {ts : U32} (hi : RegInv s) (hs : s.synced = true)
    (h : r120S3 level ts s = .ok u) :
    (¬FailsFramingCheck level ts s ∧ u.synced = true ∧ u.events = s.events)
      ∨ (FailsFramingCheck level ts s ∧ u.synced = false ∧ ∃ which, u.events = s.events ++ [.syncLoss which ts]
          ∧ (which = .start ↔ s.bitIndex = 0) ∧ (which = .stop ↔ s.bitIndex = 9)) := by
  by_cases hlong : classify (ts - s.lastBitTs) = .long
  · have hat : AtBoundary ts s := ⟨hs, hlong⟩
    obtain hb | ⟨h0, h9, h8⟩ | hb := bitIndex_cases hi
    · rw [r120S3_startBit hat hb] at h
      cases h
      cases level
      · exact .inr ⟨⟨hlong, .inl ⟨hb, rfl⟩⟩, rfl, .start, rfl, by simp [hb]⟩
      · exact .inl ⟨by simp [hb], hs, rfl⟩
    · rw [r120S3_dataBit hat h0 h8] at h
      obtain ⟨buf, rfl⟩ := dataBit_ok h
      exact .inl ⟨by simp only [FailsFramingCheck, h0, h9, false_and, or_self, and_false, not_false_iff], hs, rfl⟩
    · rw [r120S3_stopBit hat hb] at h
      cases h
      cases level
      · exact .inl ⟨by simp [hb], hs, rfl⟩
      · exact .inr ⟨⟨hlong, .inr ⟨hb, rfl⟩⟩, stopFail_synced _ _, .stop, stopFail_events _ _, by simp [hb]⟩
  · rw [r120S3_offBoundary fun hat => hlong hat.2] at h
    cases h
    exact .inl ⟨fun hf => hlong hf.1, hs, rfl⟩

theorem isSyncLoss_finalEvent (id : ControllerId) (r : DecodeResult) : (finalEvent id r).isSyncLoss = false := by
  cases r <;> rfl

theorem isSyncLoss_of_mem_pulseEvents {level : Bool} {dur ts : U32} {e : Event} (h : e ∈ pulseEvents level dur ts) :
    e.isSyncLoss = false := by
  unfold pulseEvents at h
  split at h
  · rw [List.mem_singleton.mp h]
    rfl
  · cases h

/-- From a synced state, R120 keeps SYNCED and raises no SYNC_LOSS, or it completes no marker, a framing check fails, and it clears SYNCED and
raises SYNC_LOSS last. -/
theorem r120_synced {s t : State} {level : Bool} {dur ts : U32} (hr : Ready s) (hs : s.synced = true)
    (h : r120 level dur ts s = .ok t) :
    (¬(¬CompletesMarker level dur s ∧ FailsFramingCheck level ts s) ∧ t.synced = true
        ∧ ∀ e ∈ t.events, e.isSyncLoss = false)
      ∨ ((¬CompletesMarker level dur s ∧ FailsFramingCheck level ts s) ∧ t.synced = false
          ∧ ∃ which, t.events = pulseEvents level dur ts ++ [.syncLoss which ts]
            ∧ (which = .start ↔ s.bitIndex = 0) ∧ (which = .stop ↔ s.bitIndex = 9)) := by
  by_cases hm : CompletesMarker level dur s
  · obtain ⟨r, _, ht⟩ := r120_marker ts hr hm
    rw [ht] at h
    cases h
    refine .inl ⟨fun h => h.1 hm, rfl, fun e he => ?_⟩
    rw [List.mem_singleton.mp he]
    exact isSyncLoss_finalEvent _ r
  · obtain ⟨u, hu, rfl⟩ := (r120_counted hm).mp h
    obtain ⟨_, _, hregs⟩ := counted_ready (ts := ts) hr hm
    obtain ⟨hok, hsync, hev⟩ | ⟨hfail, hsync, hloss⟩ := r120S3_synced hregs hs hu
    · refine .inl ⟨fun h => hok h.2, hsync, fun e he => ?_⟩
      rw [show ({ u with lastEdgeTs := ts } : State).events = _ from hev] at he
      exact isSyncLoss_of_mem_pulseEvents he
    · exact .inr ⟨⟨hm, hfail⟩, hsync, hloss⟩

/-- Settles O24, by the two cases of `r120_synced`. -/
theorem syncIsLostOnlyByFailedCheck : Obligations.SyncIsLostOnlyByFailedCheck := by
  intro s t level dur ts hs h
  rw [exec_edge] at h
  obtain ⟨hr, u, hu, rfl⟩ := edgeStep_next h
  obtain ⟨hok, hsync, hev⟩ | ⟨hfail, hsync, which, hev, hwhich⟩ := r120_synced hr hs hu
  · have hkept : u.synced ≠ false := by simp [hsync]
    have hnone : ¬∃ e ∈ u.events, Event.isSyncLoss e = true := fun ⟨e, he, hl⟩ => by cases (hev e he).symm.trans hl
    exact ⟨iff_of_false hkept hok, iff_of_false hkept hnone, fun _ _ he => absurd ⟨_, he, rfl⟩ hnone⟩
  · have hmem : Event.syncLoss which ts ∈ u.events := by simp [hev]
    refine ⟨iff_of_true hsync hfail, iff_of_true hsync ⟨_, hmem, rfl⟩, fun which' at' he => ?_⟩
    obtain hp | hl := List.mem_append.mp (hev ▸ he : _ ∈ pulseEvents level dur ts ++ [.syncLoss which ts])
    · cases isSyncLoss_of_mem_pulseEvents hp
    · cases List.mem_singleton.mp hl
      exact ⟨rfl, hwhich⟩

/-! ## `LAST_BIT_TS` -/

/-- While unsynced, R120 leaves or overwrites `LAST_BIT_TS` and does not read it. -/
theorem r120_lastBitTs_of_unsynced {s t : State} {level : Bool} {dur ts : U32} (x : U32) (hr : Ready s)
    (hs : s.synced = false) (h : r120 level dur ts s = .ok t) :
    ∃ y, r120 level dur ts { s with lastBitTs := x } = .ok { t with lastBitTs := y } := by
  by_cases hm : CompletesMarker level dur s
  · obtain ⟨r, hdec, ht⟩ := r120_marker ts hr hm
    obtain ⟨r', hdec', ht'⟩ := r120_marker (s := { s with lastBitTs := x }) ts hr hm
    cases hdec.symm.trans hdec'
    rw [ht] at h
    cases h
    exact ⟨ts, ht'⟩
  · have hoff : ∀ z, ¬AtBoundary ts (counted level dur ts { s with lastBitTs := z }) := fun z hat => by
      cases hs.symm.trans hat.1
    obtain ⟨u, hu, rfl⟩ := (r120_counted hm).mp h
    rw [r120S3_offBoundary (hoff s.lastBitTs)] at hu
    cases hu
    exact ⟨x, (r120_counted (s := { s with lastBitTs := x }) hm).mpr ⟨_, r120S3_offBoundary (hoff x), rfl⟩⟩

/-- Settles O43: an edge is R120, which overwrites `LAST_BIT_TS` at a marker and, while unsynced, does not look at it elsewhere. -/
theorem lastBitTsIsUnreadWhileUnsynced : Obligations.LastBitTsIsUnreadWhileUnsynced := by
  intro s t level dur ts x hs h
  rw [exec_edge] at h ⊢
  obtain ⟨hr, u, hu, rfl⟩ := edgeStep_next h
  obtain ⟨y, hy⟩ := r120_lastBitTs_of_unsynced x hr hs hu
  refine ⟨y, ?_⟩
  rw [edgeStep_ready (s := { s with lastBitTs := x }) level dur ts hr, hy]
  rfl

end Sys2Proof.Proofs.Edge
end

section
/-! The meaning of every row of the opcode table by its format, said once (`exec_meaning`); from it the obligations on what instructions leave
unchanged, on broken registers and on `LAST_EDGE_TS`. -/

namespace Sys2Proof.Proofs.Instructions

open Sys2Proof.Machine Sys2Proof.Laws Sys2Proof.Proofs.Edge

/-- The operations of the frame assembler's rows (R123 to R126, R135 to R139). -/
inductive AssemblerOp : (State → Except Fault State) → Prop
  | countUp : AssemblerOp fun s => .ok { s with run := s.run + 1 }
  | mark : AssemblerOp fun s => syncMarker s.work.ts s
  | clear : AssemblerOp fun s => .ok { s with run := 0 }
  | clearInvalid : AssemblerOp fun s => .ok (raiseInvalid { s with run := 0 })
  | hold : AssemblerOp fun s => .ok s
  | startBit : AssemblerOp fun s => .ok (startOk s)
  | startBitFailed : AssemblerOp fun s => .ok (startFail s.work.ts s)
  | bit (n : BitVec 8) (level : Bool) : AssemblerOp (dataBit n level)
  | stopBit : AssemblerOp fun s => .ok (stopOk s)
  | stopBitFailed : AssemblerOp fun s => .ok (stopFail s.work.ts s)

/-- What an instruction of each format does: an edge, RESET, or a row of sub-operations with its own selector word. -/
inductive Meaning : Instr → (State → Outcome) → Prop
  | rise (dur ts : U32) : Meaning (.edgeRise dur ts) (edgeStep true dur ts)
  | fall (dur ts : U32) : Meaning (.edgeFall dur ts) (edgeStep false dur ts)
  | reset : Meaning .reset execReset
  | category {i : Instr} {w : BitVec 2} (c : PulseCategory) : encode i = .sel (.category w) → Meaning i (giveCategory c)
  | sync {i : Instr} {w : BitVec 4} {op : State → Except Fault State} :
      encode i = .sel (.sync w) → AssemblerOp op → Meaning i (onSyncSel w op)
  | bit {i : Instr} {k : BitVec 4} {level : Bool} {op : State → Except Fault State} :
      encode i = .sel (.bit (encodeBit k level)) → AssemblerOp op → Meaning i (onBitSel k level op)
  /-- A BIT.DATA row with a `k` outside its pattern (R92). -/
  | noSelector {i : Instr} {w : BitVec 5} : encode i = .sel (.bit w) → Meaning i fun _ => .fault .selectorNotFormed
  | mapping {i : Instr} {w : Byte} (op : Slot → Except Fault Record) :
      encode i = .sel (.mapping w) → Meaning i (onSlot w op)

/-- A BIT.DATA row whose `k` has a range of its own. -/
theorem meaning_guarded {i : Instr} {k : BitVec 4} {level : Bool} {op : State → Except Fault State} (p : Prop) [Decidable p]
    (hi : encode i = .sel (.bit (encodeBit k level))) (hop : AssemblerOp op) :
    Meaning i fun s => if p then onBitSel k level op s else .fault .selectorNotFormed := by
  by_cases hp : p
  · simpa only [hp, if_true] using Meaning.bit hi hop
  · simpa only [hp, if_false] using Meaning.noSelector hi

/-- The one case split over the rows of the opcode table. -/
theorem exec_meaning (i : Instr) : Meaning i (exec i) := by
  cases i with
  | edgeRise dur ts => exact .rise dur ts
  | edgeFall dur ts => exact .fall dur ts
  | reset => exact .reset
  | pcShort => exact .category .short rfl
  | pcLong => exact .category .long rfl
  | pcInvalid => exact .category .invalid rfl
  | syncInc => exact .sync rfl .countUp
  | syncMark => exact .sync rfl .mark
  | syncClrRl z => exact .sync rfl .clear
  | syncClrRi z => exact .sync rfl .clearInvalid
  | syncClrFi z => exact .sync rfl .clearInvalid
  | syncHoldFs z => exact .sync rfl .hold
  | syncHoldFl z => exact .sync rfl .hold
  | bitStart => exact .bit rfl .startBit
  | bitStartFail => exact .bit rfl .startBitFailed
  | bitDataK1 level => exact .bit rfl (.bit 2 level)
  | bitDataK2_3 k level => exact meaning_guarded _ rfl (.bit (nextIndex k) level)
  | bitDataK4_7 k level => exact meaning_guarded _ rfl (.bit (nextIndex k) level)
  | bitDataK8 level => exact .bit rfl (.bit 9 level)
  | bitStop => exact .bit rfl .stopBit
  | bitStopFail => exact .bit rfl .stopBitFailed
  | bmIdent => exact .mapping (fun c => identOp c.defn c.mapping c.record) rfl
  | bmOutbits => exact .mapping (fun c => outbitsOp c.mapping c.byte c.record) rfl
  | bmTemp => exact .mapping (fun c => tempOp c.mapping c.byte c.record) rfl
  | bmTempLo => exact .mapping (fun c => tempLoOp c.mapping c.byte c.record) rfl
  | bmTempHi => exact .mapping (fun c => tempHiOp c.mapping c.byte c.record) rfl

/-! ## The classifier and the unpacker -/

/-- A category or mapping row writes the values of the step in progress alone. -/
theorem Meaning.writes_work {i : Instr} {f : State → Outcome} {s t : State} (hm : Meaning i f)
    (hi : (∃ w, encode i = .sel (.category w)) ∨ ∃ w, encode i = .sel (.mapping w)) (h : f s = .next t) :
    ∃ w, t = { s with work := w } := by
  cases hm with
  | category c _ =>
    obtain ⟨_, rfl⟩ := giveCategory_next.mp h
    exact ⟨_, rfl⟩
  | mapping op _ =>
    obtain ⟨_, _, _, _, _, rfl⟩ := onSlot_next h
    exact ⟨_, rfl⟩
  | noSelector _ => cases h
  | rise | fall | reset => simp [encode] at hi
  | sync he _ | bit he _ => simp [he] at hi

/-- Settles O38: these rows write `work` alone. -/
theorem classifierAndUnpackerWriteNoRegister : Obligations.ClassifierAndUnpackerWriteNoRegister := by
  intro i s t hi h
  have hsel : (∃ w, encode i = .sel (.category w)) ∨ ∃ w, encode i = .sel (.mapping w) := by
    simp only [List.mem_cons, List.not_mem_nil, or_false] at hi
    rcases hi with rfl | rfl | rfl | rfl | rfl | rfl | rfl | rfl <;> simp [encode]
  obtain ⟨w, rfl⟩ := (exec_meaning i).writes_work hsel h
  exact ⟨⟨rfl, rfl, rfl, rfl, rfl, rfl, rfl⟩, ⟨rfl, rfl, rfl, rfl⟩, rfl, fun _ => rfl⟩

/-! ## What stays outside the registers -/

theorem sameOutside_refl (s : State) : SameOutside s s := ⟨rfl, rfl, rfl, rfl⟩

theorem syncMarker_ok {s t : State} {ts : U32} (h : syncMarker ts s = .ok t) :
    ∃ r, decodeFrame s.cfg.registry s.buf s.frameLen = .ok r
      ∧ t = markRegisters ts (s.raise (finalEvent s.cfg.controllerId r)) := by
  unfold syncMarker finalize at h
  cases hr : decodeFrame s.cfg.registry s.buf s.frameLen with
  | ok r =>
    rw [hr] at h
    cases h
    exact ⟨r, rfl, rfl⟩
  | error f =>
    rw [hr] at h
    cases h

theorem AssemblerOp.sameOutside {op : State → Except Fault State} {s t : State} (hop : AssemblerOp op)
    (h : op s = .ok t) : SameOutside s t := by
  cases hop with
  | mark =>
    obtain ⟨r, _, rfl⟩ := syncMarker_ok h
    exact sameOutside_refl s
  | bit n level =>
    obtain ⟨buf, rfl⟩ := dataBit_ok h
    exact sameOutside_refl s
  | stopBitFailed =>
    cases h
    exact ⟨stopFail_cfg _ _, stopFail_phase _ _, stopFail_inbox _ _, stopFail_sub _ _⟩
  | countUp | clear | clearInvalid | hold | startBit | startBitFailed | stopBit =>
    cases h
    exact sameOutside_refl s

theorem edgeStep_sameOutside {s t : State} {level : Bool} {dur ts : U32} (h : edgeStep level dur ts s = .next t) :
    SameOutside s t := by
  obtain ⟨hr, u, hu, rfl⟩ := edgeStep_next h
  obtain ⟨u', hu', _, hsame⟩ := r120_ready level dur ts hr
  rw [hu'] at hu
  cases hu
  exact hsame

/-- A RESET that completes writes the reset values and begins operation (R240, R244). -/
theorem execReset_next {s t : State} (h : execReset s = .next t) :
    configOk s.cfg = true ∧ t = { s.resetRegisters with phase := .running, work := Work.idle } := by
  unfold execReset at h
  split at h
  case h_4 | h_5 =>
    split at h
    · cases h
      exact ⟨‹_›, rfl⟩
    · cases h
  all_goals cases h

theorem Meaning.sameOutside {i : Instr} {f : State → Outcome} {s t : State} (hm : Meaning i f) (h : f s = .next t)
    (hi : i ≠ .reset) : SameOutside s t := by
  cases hm with
  | rise dur ts | fall dur ts => exact edgeStep_sameOutside h
  | reset => exact absurd rfl hi
  | category c he =>
    obtain ⟨_, rfl⟩ := (Meaning.category c he).writes_work (.inl ⟨_, he⟩) h
    exact sameOutside_refl s
  | sync _ hop =>
    obtain ⟨_, _, ht⟩ := onSyncSel_next h
    exact hop.sameOutside ht
  | bit _ hop =>
    obtain ⟨_, _, _, ht⟩ := onBitSel_next h
    exact hop.sameOutside ht
  | noSelector _ => cases h
  | mapping op he =>
    obtain ⟨_, rfl⟩ := (Meaning.mapping op he).writes_work (.inr ⟨_, he⟩) h
    exact sameOutside_refl s

/-- Settles O37: RESET by its own writes, every other instruction by `Meaning.sameOutside`. -/
theorem noInstructionWritesConfiguration : Obligations.NoInstructionWritesConfiguration := by
  intro i s t h
  by_cases hi : i = .reset
  · subst hi
    obtain ⟨_, rfl⟩ := execReset_next h
    exact ⟨rfl, rfl, rfl, .inr rfl⟩
  · obtain ⟨hcfg, hphase, hinbox, hsub⟩ := (exec_meaning i).sameOutside h hi
    exact ⟨hcfg, hinbox, hsub, .inl hphase⟩

/-! ## Broken registers -/

/-- accept faults on registers that break R30 (93 item 2). -/
theorem accept_broken {s : State} (hphase : s.phase = .running) (hcfg : configOk s.cfg = true) (hbroken : ¬RegInv s)
    (k : State → Outcome) : ∃ f, accept s k = .fault f := by
  obtain ⟨f, hf⟩ := Option.ne_none_iff_exists'.mp (mt (broken_eq_none_iff s).mp hbroken)
  exact ⟨f, by simp [accept, hphase, hcfg, hf]⟩

/-- Settles O31: the edges and the assembler's rows begin with `accept`. -/
theorem brokenRegistersFault : Obligations.BrokenRegistersFault := by
  intro s i hphase hcfg hbroken hreset hcategory hmapping
  have hm := exec_meaning i
  generalize exec i = f at hm ⊢
  cases hm with
  | rise | fall => exact accept_broken hphase hcfg hbroken _
  | reset => exact absurd rfl hreset
  | category c he => exact absurd he (hcategory _)
  | sync _ _ => exact accept_broken hphase hcfg hbroken _
  | bit _ _ => exact accept_broken hphase hcfg hbroken _
  | noSelector _ => exact ⟨_, rfl⟩
  | mapping op he => exact absurd he (hmapping _)

/-! ## `LAST_EDGE_TS` -/

/-- The state with another `LAST_EDGE_TS`. -/
def withLastEdgeTs (x : U32) (s : State) : State := { s with lastEdgeTs := x }

theorem dataBit_withLastEdgeTs (n : BitVec 8) (level : Bool) (x : U32) (s : State) :
    dataBit n level (withLastEdgeTs x s) = (dataBit n level s).map (withLastEdgeTs x) := by
  by_cases h : s.frameLen.toNat ≤ s.cfg.bufCap
  · simp only [dataBit, withLastEdgeTs, h, if_true, State.memRead]
    cases s.buf.read (s.frameLen.toNat - 1) <;> rfl
  · simp only [dataBit, withLastEdgeTs, h, if_false]
    rfl

theorem stopFail_withLastEdgeTs (ts x : U32) (s : State) :
    stopFail ts (withLastEdgeTs x s) = withLastEdgeTs x (stopFail ts s) := by
  have hdrop : (withLastEdgeTs x s).bufDropLast = withLastEdgeTs x s.bufDropLast := by
    by_cases h : s.frameLen = 0
    · simp only [State.bufDropLast, withLastEdgeTs, h, if_true]
    · simp only [State.bufDropLast, withLastEdgeTs, h, if_false]
      rfl
  rw [stopFail, hdrop]
  rfl

theorem syncMarker_withLastEdgeTs (ts x : U32) (s : State) :
    syncMarker ts (withLastEdgeTs x s) = (syncMarker ts s).map (withLastEdgeTs x) := by
  simp only [syncMarker, finalize, withLastEdgeTs]
  cases decodeFrame s.cfg.registry s.buf s.frameLen <;> rfl

theorem AssemblerOp.commutes_withLastEdgeTs {op : State → Except Fault State} (hop : AssemblerOp op) (x : U32) (s : State) :
    op (withLastEdgeTs x s) = (op s).map (withLastEdgeTs x) := by
  cases hop with
  | mark => exact syncMarker_withLastEdgeTs _ x s
  | bit n level => exact dataBit_withLastEdgeTs n level x s
  | stopBitFailed => exact congrArg Except.ok (stopFail_withLastEdgeTs _ x s)
  | countUp | clear | clearInvalid | hold | startBit | startBitFailed | stopBit => rfl

theorem r120S3_withLastEdgeTs {s : State} (level : Bool) (ts x : U32) (hi : RegInv s) :
    r120S3 level ts (withLastEdgeTs x s) = (r120S3 level ts s).map (withLastEdgeTs x) := by
  by_cases hat : AtBoundary ts s
  · obtain hb | ⟨h0, _, h8⟩ | hb := bitIndex_cases hi
    · rw [r120S3_startBit hat hb, r120S3_startBit (s := withLastEdgeTs x s) hat hb]
      cases level <;> rfl
    · rw [r120S3_dataBit hat h0 h8, r120S3_dataBit (s := withLastEdgeTs x s) hat h0 h8]
      exact dataBit_withLastEdgeTs _ level x { s with lastBitTs := ts }
    · rw [r120S3_stopBit hat hb, r120S3_stopBit (s := withLastEdgeTs x s) hat hb]
      cases level
      · rfl
      · exact congrArg Except.ok (stopFail_withLastEdgeTs ts x { s with lastBitTs := ts })
  · rw [r120S3_offBoundary hat, r120S3_offBoundary (s := withLastEdgeTs x s) hat]
    rfl

/-- R120 overwrites `LAST_EDGE_TS` (R129) and does not read it. -/
theorem r120_withLastEdgeTs {s t : State} {level : Bool} {dur ts : U32} (x : U32) (hr : Ready s)
    (h : r120 level dur ts s = .ok t) : r120 level dur ts (withLastEdgeTs x s) = .ok t := by
  by_cases hm : CompletesMarker level dur s
  · obtain ⟨r, hdec, ht⟩ := r120_marker ts hr hm
    obtain ⟨r', hdec', ht'⟩ := r120_marker (s := withLastEdgeTs x s) ts hr hm
    cases hdec.symm.trans hdec'
    exact ht'.trans (ht.symm.trans h)
  · obtain ⟨u, hu, rfl⟩ := (r120_counted hm).mp h
    obtain ⟨_, _, hregs⟩ := counted_ready (ts := ts) hr hm
    have hu' := r120S3_withLastEdgeTs level ts x hregs
    rw [hu] at hu'
    exact (r120_counted (s := withLastEdgeTs x s) hm).mpr ⟨_, hu', rfl⟩

theorem edgeStep_withLastEdgeTs {s t : State} {level : Bool} {dur ts : U32} (x : U32) (h : edgeStep level dur ts s = .next t) :
    edgeStep level dur ts (withLastEdgeTs x s) = .next t := by
  obtain ⟨hr, u, hu, rfl⟩ := edgeStep_next h
  rw [edgeStep_ready (s := withLastEdgeTs x s) level dur ts hr, r120_withLastEdgeTs x hr hu]
  rfl

theorem execReset_withLastEdgeTs (x : U32) (s : State) : execReset (withLastEdgeTs x s) = execReset s := rfl

theorem Meaning.ignores_lastEdgeTs {i : Instr} {f : State → Outcome} {s t : State} (hm : Meaning i f) (x : U32)
    (h : f s = .next t) : ∃ y, f (withLastEdgeTs x s) = .next (withLastEdgeTs y t) := by
  cases hm with
  | rise dur ts | fall dur ts => exact ⟨t.lastEdgeTs, edgeStep_withLastEdgeTs x h⟩
  | reset => exact ⟨t.lastEdgeTs, (execReset_withLastEdgeTs x s).trans h⟩
  | category c _ =>
    obtain ⟨hc, rfl⟩ := giveCategory_next.mp h
    exact ⟨x, giveCategory_next.mpr ⟨hc, rfl⟩⟩
  | sync _ hop =>
    obtain ⟨hr, hsel, ht⟩ := onSyncSel_next h
    exact ⟨x, onSyncSel_ready (s := withLastEdgeTs x s) hr hsel (by rw [hop.commutes_withLastEdgeTs, ht]; rfl)⟩
  | bit _ hop =>
    obtain ⟨hr, hat, hsel, ht⟩ := onBitSel_next h
    exact ⟨x, onBitSel_ready (s := withLastEdgeTs x s) hr hat hsel (by rw [hop.commutes_withLastEdgeTs, ht]; rfl)⟩
  | noSelector _ => cases h
  | mapping op _ =>
    obtain ⟨c, r, hslot, hcode, hop, rfl⟩ := onSlot_next h
    exact ⟨x, onSlot_some hslot hcode hop⟩

/-- Settles O42, by the meaning of each format: edges and RESET overwrite the register, the other rows carry it along. -/
theorem lastEdgeTsIsNeverRead : Obligations.LastEdgeTsIsNeverRead :=
  fun i _ _ x h => (exec_meaning i).ignores_lastEdgeTs x h

end Sys2Proof.Proofs.Instructions
end

section
/-! The configuration load (70_reset_and_hazards.md R243): what `startWith` answers in each phase, for both forms of the load. -/

namespace Sys2Proof.Proofs.Load

open Sys2Proof.Machine Sys2Proof.Laws Sys2Proof.Proofs.Step

/-! What a load comes to: a new core starts or is refused, and no second load is taken. -/

theorem startWith_ok {s : State} {c : Config} (hphase : s.phase = .unconfigured) (hc : configOk c = true) :
    startWith (some c) s = .next { s.resetRegisters with cfg := c, phase := .configured } := by
  simp [startWith, hphase, hc]

theorem startWith_checkFailed {s : State} {c : Config} (hphase : s.phase = .unconfigured) (hc : configOk c = false) :
    startWith (some c) s = .next { s.resetRegisters with phase := .refused } := by
  simp [startWith, hphase, hc]

theorem startWith_none {s : State} (hphase : s.phase = .unconfigured) :
    startWith none s = .next { s.resetRegisters with phase := .refused } := by
  simp [startWith, hphase]

theorem startWith_again {s : State} (c : Option Config) (hphase : s.phase = .configured ∨ s.phase = .running) :
    startWith c s = .refused .configurationChange := by
  obtain h | h := hphase <;> simp [startWith, h]

theorem startWith_tornDown {s : State} (c : Option Config) (hphase : s.phase = .tornDown) :
    startWith c s = .refused .afterTeardown := by
  simp [startWith, hphase]

/-! The configuration of a ROM image. -/

theorem imageConfig_ok {image : List Byte} {reg : Registry} {names : List Name} (id : ControllerId) (cap : Nat)
    (h : parseImage image = .ok (reg, names)) :
    imageConfig image id cap = some { registry := reg, controllerId := id, bufCap := cap } := by
  simp [imageConfig, h]

theorem imageConfig_error {image : List Byte} {e : ImageReject} (id : ControllerId) (cap : Nat)
    (h : parseImage image = .error e) : imageConfig image id cap = none := by
  simp [imageConfig, h]

/-! A step that takes a load is `startWith`. -/

theorem step_configure {s : State} {rest : List Input} {c : Config} (hsub : s.sub = none)
    (hin : s.inbox = .configure c :: rest) : step s = startWith (some c) (taken s rest) :=
  step_of_fetch_done (fetch_of_inbox_cons hsub hin)

theorem step_loadImage {s : State} {rest : List Input} {image : List Byte} {id : ControllerId} {cap : Nat}
    (hsub : s.sub = none) (hin : s.inbox = .loadImage image id cap :: rest) :
    step s = startWith (imageConfig image id cap) (taken s rest) :=
  step_of_fetch_done (fetch_of_inbox_cons hsub hin)

/-- Settles O33: the step is `startWith` on the configuration given or read from the image, case by case. -/
theorem configurationLoadIsChecked : Obligations.ConfigurationLoadIsChecked := by
  intro s rest hsub
  refine ⟨fun c hin => ?abstract, fun image id cap hin => ?image⟩
  case abstract =>
    rw [step_configure hsub hin]
    exact ⟨fun hphase => ⟨fun hc => ⟨_, startWith_ok hphase hc, rfl, rfl, rfl, rfl⟩,
        fun hc => ⟨_, startWith_checkFailed hphase hc, rfl, rfl, rfl⟩⟩,
      startWith_again (s := taken s rest) _⟩
  case image =>
    rw [step_loadImage hsub hin]
    refine ⟨fun hphase => ⟨fun reg names himage => ?_, fun e himage => ?_⟩, startWith_again (s := taken s rest) _⟩
    · rw [imageConfig_ok id cap himage]
      exact ⟨fun hc => ⟨_, startWith_ok hphase hc, rfl, rfl, rfl, rfl⟩,
        fun hc => ⟨_, startWith_checkFailed hphase hc, rfl, rfl, rfl⟩⟩
    · rw [imageConfig_error id cap himage]
      exact ⟨_, startWith_none hphase, rfl, rfl, rfl⟩

end Sys2Proof.Proofs.Load
end

section
/-! Soundness (10_state.md R30): the reset state has it, and every step from a sound state stays sound or is refused, so no such step faults. -/

namespace Sys2Proof.Proofs.Soundness

open Sys2Proof.Machine Sys2Proof.Laws Sys2Proof.Proofs.Step Sys2Proof.Proofs.Edge Sys2Proof.Proofs.Load

/-! ## Reset -/

/-- Settles O1: each value is a field of `State.reset`. -/
theorem resetStateHasSpecValues : Obligations.ResetStateHasSpecValues :=
  ⟨rfl, rfl, rfl, rfl, rfl, rfl, rfl, rfl, (fsm_unsynced State.reset).mpr ⟨rfl, rfl⟩⟩

/-- The reset values keep R30, whatever the configuration. -/
theorem resetRegisters_regInv (s : State) : RegInv s.resetRegisters :=
  ⟨Nat.zero_le _, fun _ => rfl, Nat.zero_le _, fun h => absurd rfl h, fun h => absurd rfl h, wf_nil, (Nat.zero_min _).symm⟩

theorem configOk_defaultConfig : configOk defaultConfig = true := by decide +kernel

/-- Settles O27. The registers are those RESET writes. -/
theorem resetStateIsSound : Obligations.ResetStateIsSound :=
  ⟨⟨rfl, rfl⟩, .inl rfl, configOk_defaultConfig, (by decide : (32 : Nat) < 2 ^ 32 - 1), resetRegisters_regInv State.reset⟩

/-! ## One step -/

/-- A step ends in a sound state with this configuration, or is refused. -/
def EndsSound (c : Config) : Outcome → Prop
  | .next t => Sound t ∧ t.cfg = c
  | .fault _ => False
  | .refused _ => True

/-- RESET and teardown leave the reset values, an idle step and one of the two phases. -/
theorem cleared_sound {s : State} {p : Phase} (hs : Sound s) (hp : p = .running ∨ p = .tornDown) :
    Sound { s.resetRegisters with phase := p, work := Work.idle } :=
  have ⟨⟨hsub, _⟩, _, hcfg, hcap, _⟩ := hs
  ⟨⟨hsub, rfl⟩, hp, hcfg, hcap, resetRegisters_regInv s⟩

theorem edgeStep_endsSound {s : State} (level : Bool) (dur ts : U32) (hs : Sound s) :
    EndsSound s.cfg (edgeStep level dur ts s) := by
  obtain ⟨⟨hsub, _⟩, hrun | htorn, hcfg, hcap, hregs⟩ := hs
  · have hr : Ready s := ⟨hrun, hcfg, hregs⟩
    obtain ⟨t, ht, hready, hcfg', _, _, hsub'⟩ := r120_ready level dur ts hr
    obtain ⟨hphase, hok, hregs'⟩ := hready hcap
    rw [edgeStep_ready level dur ts hr, ht]
    have hcap' : CapBelowSaturation t := by
      rw [CapBelowSaturation, hcfg']
      exact hcap
    exact ⟨⟨⟨hsub'.trans hsub, rfl⟩, .inl hphase, hok, hcap', hregs'⟩, hcfg'⟩
  · rw [edgeStep, accept, htorn]
    trivial

theorem execReset_endsSound {s : State} (hs : Sound s) : EndsSound s.cfg (execReset s) := by
  obtain ⟨_, hrun | htorn, hcfg, _⟩ := id hs
  · rw [execReset, hrun]
    simp only [hcfg, if_true]
    exact ⟨cleared_sound hs (.inl rfl), rfl⟩
  · rw [execReset, htorn]
    trivial

theorem teardown_endsSound {s : State} (hs : Sound s) : EndsSound s.cfg (teardown s) := by
  obtain ⟨_, hrun | htorn, _⟩ := id hs
  · rw [teardown, hrun]
    exact ⟨cleared_sound hs (.inr rfl), rfl⟩
  · rw [teardown, htorn]
    trivial

/-- A configuration load finds the core running or torn down, and is refused (R255). -/
theorem startWith_endsSound {s : State} (c : Option Config) (hs : Sound s) : EndsSound s.cfg (startWith c s) := by
  obtain ⟨_, hrun | htorn, _⟩ := hs
  · rw [startWith_again c (.inr hrun)]
    trivial
  · rw [startWith_tornDown c htorn]
    trivial

/-- An `EV` word is an edge of the level in bit 64 (R80, R83). -/
theorem exec_decodeEv (w : BitVec 65) :
    exec (decodeEv w) = edgeStep (w.getLsbD 64) (w.extractLsb' 32 32) (w.extractLsb' 0 32) :=
  exec_edge _ _ _

/-- The one case analysis behind O28 and O29: by the transaction that waits. -/
theorem step_endsSound {s : State} (hs : Sound s) : EndsSound s.cfg (step s) := by
  obtain ⟨⟨hsub, _⟩, _⟩ := id hs
  cases hin : s.inbox with
  | nil =>
    rw [step_of_fetch_done (fetch_of_inbox_nil hsub hin)]
    exact ⟨hs, rfl⟩
  | cons x rest =>
    have htaken : Sound (taken s rest) := hs
    have hfetch := fetch_of_inbox_cons hsub hin
    cases x with
    | ev w =>
      rw [step_of_fetch_run hfetch]
      rw [exec_decodeEv]
      exact edgeStep_endsSound _ _ _ htaken
    | ctl w =>
      by_cases hw : w = 1
      · subst hw
        rw [step_of_fetch_run hfetch]
        exact execReset_endsSound htaken
      · have hreject : decodeCtl w = .error .noTransaction := if_neg hw
        rw [step_of_fetch_done (hfetch.trans (by rw [fetchInput, hreject]; rfl))]
        exact ⟨htaken, rfl⟩
    | configure c =>
      rw [step_of_fetch_done hfetch]
      exact startWith_endsSound _ htaken
    | loadImage image id bufCap =>
      rw [step_of_fetch_done hfetch]
      exact startWith_endsSound _ htaken
    | teardown =>
      rw [step_of_fetch_done hfetch]
      exact teardown_endsSound htaken

/-- Settles O28: the step ends in a next state, of which `step_endsSound` speaks. -/
theorem everyStepKeepsSoundness : Obligations.EveryStepKeepsSoundness := by
  intro s t hs h
  have hend := step_endsSound hs
  rw [h] at hend
  exact hend

/-- Settles O29: by `step_endsSound` a fault is no end of the step. -/
theorem noStepFromSoundStateFaults : Obligations.NoStepFromSoundStateFaults := by
  intro s f hs h
  have hend := step_endsSound hs
  rw [h] at hend
  exact hend

end Sys2Proof.Proofs.Soundness
end

section
/-! Reserved words (30_encoding.md R20, R84, R89, R91, R92): the decoder of each format rejects them by name and reads every other word. -/

namespace Sys2Proof.Proofs.Reserved

open Sys2Proof.Machine

theorem ok_of_isOk {d : Except Reject Instr} (h : d.isOk = true) : ∃ i, d = .ok i := by
  cases d with
  | ok i => exact ⟨i, rfl⟩
  | error r => cases h

theorem decodeCtl_of_ne_zero (w : BitVec 1) (h : w ≠ 0) : ∃ i, decodeCtl w = .ok i := by
  have h1 : w = 1 := by bv_omega
  exact ⟨.reset, if_pos h1⟩

/-! The short formats have few enough words to look at each. -/

theorem decodeCategory_isOk : ∀ w : BitVec 2, w ≠ 0b11 → (decodeCategory w).isOk = true := by decide

theorem decodeSync_unused : ∀ w : BitVec 4, w.extractLsb' 1 2 = 0b11 → decodeSync w = .error .syncSelUnused := by decide

theorem decodeSync_isOk : ∀ w : BitVec 4, w.extractLsb' 1 2 ≠ 0b11 → (decodeSync w).isOk = true := by decide

theorem decodeBit_unused : ∀ w : BitVec 5, 10 ≤ (w.extractLsb' 1 4).toNat → decodeBit w = .error .bitSelUnused := by decide

theorem decodeBit_isOk : ∀ w : BitVec 5, (w.extractLsb' 1 4).toNat < 10 → (decodeBit w).isOk = true := by decide

theorem decodeMapping_reserved {w : Byte} (h : w ∉ [(0x00 : Byte), 0x01, 0x02, 0x06, 0x0A]) :
    decodeMapping w = .error .controlByteReserved := by
  simp only [List.mem_cons, List.not_mem_nil, or_false, not_or] at h
  obtain ⟨h0, h1, h2, h6, hA⟩ := h
  simp only [decodeMapping, h0, h1, h2, h6, hA, if_false]

theorem decodeMapping_isOk : ∀ w ∈ [(0x00 : Byte), 0x01, 0x02, 0x06, 0x0A], (decodeMapping w).isOk = true := by decide

/-- Settles O54, format by format. -/
theorem reservedWordsAreRejected : Obligations.ReservedWordsAreRejected := by
  refine ⟨fun w => ⟨decodeEv w, rfl⟩, fun w => ⟨?_, decodeCtl_of_ne_zero w⟩,
    fun w => ⟨?_, fun h => ok_of_isOk (decodeCategory_isOk w h)⟩,
    fun w => ⟨decodeSync_unused w, fun h => ok_of_isOk (decodeSync_isOk w h)⟩,
    fun w => ⟨decodeBit_unused w, fun h => ok_of_isOk (decodeBit_isOk w h)⟩,
    fun w => ⟨decodeMapping_reserved, fun h => ok_of_isOk (decodeMapping_isOk w h)⟩⟩
  · rintro rfl
    rfl
  · rintro rfl
    rfl

end Sys2Proof.Proofs.Reserved
end

section
/-! The byte buffer (20_memory.md R51 to R54): what each operation on it, each row that stores and each edge leaves of its bytes. -/

namespace Sys2Proof.Proofs.Buffer

open Sys2Proof.Machine Sys2Proof.Laws Sys2Proof.Proofs.Edge

/-! ## MemWrite -/

theorem index_lt_of_mem {m : Memory} (hw : m.wf = true) {c : Host.Cell} (hc : c ∈ m) : c.1 < m.length := by
  have h : c.1 ∈ m.map Prod.fst := List.mem_map_of_mem hc
  rw [(wf_iff m).mp hw] at h
  exact List.mem_range.mp h

theorem write_of_length_le {m : Memory} (hw : m.wf = true) {i : Nat} (hi : m.length ≤ i) (v : Byte) : m.write i v = m := by
  refine (List.map_congr_left fun c hc => ?_).trans (List.map_id m)
  have := index_lt_of_mem hw hc
  exact if_neg (by omega)

/-- Settles O45, from the laws of `Memory.write`. -/
theorem memWriteReplacesStoredByte : Obligations.MemWriteReplacesStoredByte := by
  intro s i v hw
  refine ⟨fun hi => ?_, fun hi => write_of_length_le hw hi v, fun _ ha => read_write_other _ v ha, wf_write _ hw i v, rfl⟩
  obtain ⟨b, hb⟩ := read_isSome s.buf hw hi
  exact read_write_same _ v hb

/-! ## BufAppend and BufDropLast -/

theorem bufDropLast_of_empty {s : State} (h : s.frameLen = 0) : s.bufDropLast = s := if_pos h

/-- R54 on a canonical buffer that keeps R30 (f), an empty one among them. -/
theorem bufDropLast_wf {s : State} (hw : s.buf.wf = true) (hl : s.buf.length = min s.frameLen.toNat s.cfg.bufCap) :
    s.bufDropLast.buf.wf = true := by
  by_cases h0 : s.frameLen = 0
  · rw [bufDropLast_of_empty h0]
    exact hw
  · obtain ⟨_, hw', _, _⟩ := bufDropLast_spec h0 hw hl
    exact hw'

theorem memRead_bufDropLast_other {s : State} (hw : s.buf.wf = true) (hl : s.buf.length = min s.frameLen.toNat s.cfg.bufCap)
    {a : Nat} (ha : a ≠ s.frameLen.toNat - 1) : s.bufDropLast.memRead a = s.memRead a := by
  by_cases h0 : s.frameLen = 0
  · rw [bufDropLast_of_empty h0]
  · obtain ⟨_, _, _, hother⟩ := bufDropLast_spec h0 hw hl
    exact hother a ha

theorem bufDropLast_buf_of_unstored {s : State} (h : s.cfg.bufCap < s.frameLen.toNat) : s.bufDropLast.buf = s.buf := by
  unfold State.bufDropLast
  split
  · rfl
  · exact if_neg (by omega)

/-- Settles O44, from the laws of BufAppend and BufDropLast; the dropped index is past the end of the shorter buffer. -/
theorem bufferOperationsMoveOneByte : Obligations.BufferOperationsMoveOneByte := by
  intro s v hw hl
  obtain ⟨hw', hl', hnew, hfull, hother⟩ := bufAppend_spec v hw hl
  refine ⟨hw', bufDropLast_wf hw hl, fun h => ⟨hnew h, by omega⟩, hfull, hother, toNat_frameLenSucc _, fun h1 => ?_,
    fun _ ha => memRead_bufDropLast_other hw hl ha⟩
  have h0 : s.frameLen ≠ 0 := by bv_omega
  obtain ⟨hdrop, hw'', hl'', _⟩ := bufDropLast_spec h0 hw hl
  exact ⟨by rw [hdrop]; exact toNat_sub_one h0, read_none _ hw'' (by omega)⟩

/-! ## The rows that store -/

theorem memRead_startOk_other {s : State} (hi : RegInv s) {a : Nat} (ha : a ≠ s.frameLen.toNat) :
    (startOk s).memRead a = s.memRead a := by
  obtain ⟨_, _, _, _, _, hw, hl⟩ := hi
  obtain ⟨_, _, _, _, hother⟩ := bufAppend_spec 0 hw hl
  exact hother a ha

theorem memRead_stopFail_other {s : State} (ts : U32) (hi : RegInv s) {a : Nat} (ha : a ≠ s.frameLen.toNat - 1) :
    (stopFail ts s).memRead a = s.memRead a := by
  obtain ⟨_, _, _, _, _, hw, hl⟩ := hi
  exact memRead_bufDropLast_other hw hl ha

/-- R137: DATA_BIT writes `BIT_INDEX` and, if it is stored, the byte under assembly. -/
theorem dataBit_writes {s t : State} {n : BitVec 8} {level : Bool} (h : dataBit n level s = .ok t) :
    ∃ buf, t = { s with buf := buf, bitIndex := n } ∧ (∀ a, a ≠ s.frameLen.toNat - 1 → buf.read a = s.buf.read a)
      ∧ (s.cfg.bufCap < s.frameLen.toNat → buf = s.buf) := by
  unfold dataBit at h
  split at h
  · split at h
    · cases h
      exact ⟨_, rfl, fun _ ha => read_write_other _ _ ha, fun _ => by omega⟩
    · cases h
  · cases h
    exact ⟨_, rfl, fun _ _ => rfl, fun _ => rfl⟩

theorem exec_bitStart_next {s t : State} (h : exec .bitStart s = .next t) : RegInv s ∧ t = startOk s := by
  rw [exec, execBitStart] at h
  obtain ⟨⟨_, _, hi⟩, _, _, hop⟩ := onBitSel_next h
  cases hop
  exact ⟨hi, rfl⟩

theorem exec_bitStopFail_next {s t : State} (h : exec .bitStopFail s = .next t) : RegInv s ∧ t = stopFail s.work.ts s := by
  rw [exec, execBitStopFail] at h
  obtain ⟨⟨_, _, hi⟩, _, _, hop⟩ := onBitSel_next h
  cases hop
  exact ⟨hi, rfl⟩

/-- Every BIT.DATA row is DATA_BIT. -/
theorem exec_bitData_next {i : Instr} {s t : State} {k : BitVec 4} {level : Bool}
    (hi : i ∈ [Instr.bitDataK1 level, .bitDataK2_3 k level, .bitDataK4_7 k level, .bitDataK8 level])
    (h : exec i s = .next t) : ∃ n, dataBit n level s = .ok t := by
  have onRow {k n} (h : onBitSel k level (dataBit n level) s = .next t) : ∃ n, dataBit n level s = .ok t := by
    obtain ⟨_, _, _, hop⟩ := onBitSel_next h
    exact ⟨n, hop⟩
  simp only [List.mem_cons, List.not_mem_nil, or_false] at hi
  rcases hi with rfl | rfl | rfl | rfl
  · exact onRow h
  · simp only [exec, execBitDataK2_3] at h
    split at h
    · exact onRow h
    · cases h
  · simp only [exec, execBitDataK4_7] at h
    split at h
    · exact onRow h
    · cases h
  · exact onRow h

/-- Settles O40: BIT.START is BufAppend, the BIT.DATA rows are DATA_BIT, and BIT.STOP.FAIL is BufDropLast. -/
theorem storingRowsTouchOneByte : Obligations.StoringRowsTouchOneByte := by
  intro i s t k level h
  refine ⟨?start, ?data, ?stopFail⟩
  case start =>
    rintro rfl
    obtain ⟨hi, rfl⟩ := exec_bitStart_next h
    exact ⟨fun _ ha => memRead_startOk_other hi ha, fun hfull => if_neg (by omega), rfl, rfl, rfl, rfl, rfl, rfl,
      rfl, rfl, rfl, rfl⟩
  case data =>
    intro hi
    obtain ⟨n, hop⟩ := exec_bitData_next hi h
    obtain ⟨buf, rfl, hother, hfull⟩ := dataBit_writes hop
    exact ⟨hother, hfull, rfl, rfl, rfl, rfl, rfl, rfl, rfl, rfl, rfl, rfl, rfl⟩
  case stopFail =>
    rintro rfl
    obtain ⟨hi, rfl⟩ := exec_bitStopFail_next h
    exact ⟨fun _ ha => memRead_stopFail_other _ hi ha, bufDropLast_buf_of_unstored, stopFail_run _ _, stopFail_lastEdgeTs _ _,
      stopFail_lastBitTs _ _, stopFail_work _ _, stopFail_cfg _ _, stopFail_phase _ _, stopFail_inbox _ _, stopFail_sub _ _⟩

/-! ## Edges -/

/-- The byte an edge's bit can touch: at a start bit the next one, at a data or stop bit the one under assembly (R52 to R54). -/
def touchedIndex (s : State) : Nat := if s.bitIndex = 0 then s.frameLen.toNat else s.frameLen.toNat - 1

theorem r120S3_memRead_other {s u : State} {level : Bool} {ts : U32} (hi : RegInv s) (h : r120S3 level ts s = .ok u)
    {a : Nat} (ha : a ≠ touchedIndex s) : u.memRead a = s.memRead a := by
  have hi' : RegInv { s with lastBitTs := ts } := hi
  by_cases hat : AtBoundary ts s
  · obtain hb | ⟨h0, _, h8⟩ | hb := bitIndex_cases hi
    · rw [touchedIndex, if_pos hb] at ha
      rw [r120S3_startBit hat hb] at h
      cases h
      cases level
      · rfl
      · exact memRead_startOk_other hi' ha
    · rw [touchedIndex, if_neg h0] at ha
      rw [r120S3_dataBit hat h0 h8] at h
      obtain ⟨_, rfl, hother, _⟩ := dataBit_writes h
      exact hother a ha
    · rw [touchedIndex, if_neg (by simp [hb])] at ha
      rw [r120S3_stopBit hat hb] at h
      cases h
      cases level
      · rfl
      · exact memRead_stopFail_other ts hi' ha
  · rw [r120S3_offBoundary hat] at h
    cases h
    rfl

/-- Settles O41: off a marker only S3 touches the buffer. -/
theorem edgeTouchesAtMostOneByte : Obligations.EdgeTouchesAtMostOneByte := by
  intro s t level dur ts h hm
  rw [exec_edge] at h
  obtain ⟨hr, v, hv, rfl⟩ := edgeStep_next h
  obtain ⟨_, hv', _, hsame⟩ := r120_ready level dur ts hr
  cases hv'.symm.trans hv
  obtain ⟨u, hu, rfl⟩ := (r120_counted hm).mp hv
  obtain ⟨_, _, hi⟩ := counted_ready (ts := ts) hr hm
  refine ⟨fun a ha => r120S3_memRead_other hi hu ha, fun hoff => ?_, hsame⟩
  have hat : ¬AtBoundary ts (counted level dur ts s) := by
    rintro ⟨hsync, hlong⟩
    rcases hoff with hs | hs
    · cases hs.symm.trans hsync
    · exact hs hlong
  rw [r120S3_offBoundary hat] at hu
  cases hu
  exact ⟨rfl, rfl⟩

end Sys2Proof.Proofs.Buffer
end

section
/-! How a byte is assembled (41_frame_assembler.md R141): what each edge adds to the byte, by induction over the edges. -/

namespace Sys2Proof.Proofs.Assembly

open Sys2Proof.Machine Sys2Proof.Laws Sys2Proof.Proofs.Edge Sys2Proof.Proofs.Buffer

/-! ## One data bit -/

/-- R137: a data bit sets its bit of the byte to the inverse of the level and leaves the others. -/
theorem getLsbD_add_dataContribution {b : Byte} {k : Nat} (level : Bool) (hb : b >>> k = 0) (hk : k < 8) (j : Nat) :
    (b + dataContribution (k + 2) level).getLsbD j = if j = k then !level else b.getLsbD j := by
  have hclear : b.getLsbD k = false := by simpa using congrArg (fun x => x.getLsbD 0) hb
  rw [dataContribution_eq]
  cases level
  · simp only [Bool.false_eq_true, if_false, Nat.add_sub_cancel]
    rw [add_twoPow_eq_or b k hb, BitVec.getLsbD_or, BitVec.getLsbD_twoPow]
    by_cases hj : j = k
    · simp [hj, hk]
    · simp [hj, Ne.symm hj]
  · by_cases hj : j = k
    · simp [hj, hclear]
    · simp [hj]

/-- DATA_BIT on a stored byte (R137). -/
theorem dataBit_stored {s : State} {b : Byte} {n : BitVec 8} {level : Bool} (hcap : s.frameLen.toNat ≤ s.cfg.bufCap)
    (hb : s.memRead (s.frameLen.toNat - 1) = some b) :
    dataBit n level s
      = .ok { s.memWrite (s.frameLen.toNat - 1) (b + dataContribution n.toNat level) with bitIndex := n } := by
  simp only [dataBit, hcap, if_true, hb]

/-! ## Edges off a marker -/

/-- In a ready state, an edge off a marker is S3 after the count. -/
theorem edgeStep_counted {s u : State} {level : Bool} {dur ts : U32} (hr : Ready s) (hm : ¬CompletesMarker level dur s)
    (hu : r120S3 level ts (counted level dur ts s) = .ok u) : edgeStep level dur ts s = .next (endEdge ts u) := by
  rw [edgeStep_ready level dur ts hr, (r120_counted hm).mpr ⟨u, hu, rfl⟩]
  rfl

theorem runEdges_cons_next {level : Bool} {dur ts : U32} {s t : State} (rest : List (Bool × U32 × U32)) (es : List Event)
    (h : edgeStep level dur ts s = .next t) : runEdges ((level, dur, ts) :: rest) s es = runEdges rest t (es ++ t.events) := by
  rw [runEdges, exec_edge, h]

/-! ## The byte under assembly -/

/-- `t` is reached from `s`, which awaited a start bit, by boundaries of the levels `seen`: none yet, or the start bit and then data bits. -/
structure Assembling (s : State) (seen : List Bool) (t : State) : Prop where
  ready : Ready t
  cfg : t.cfg = s.cfg
  synced : t.synced = true
  bitIndex : t.bitIndex.toNat = seen.length
  frameLen : t.frameLen.toNat = s.frameLen.toNat + min seen.length 1
  others : ∀ a, a ≠ s.frameLen.toNat → t.memRead a = s.memRead a
  byte : ∀ start data, seen = start :: data →
    ∃ b, t.memRead s.frameLen.toNat = some b ∧ ∀ j (h : j < data.length), b.getLsbD j = !data[j]

theorem Assembling.refl {s : State} (hr : Ready s) (hs : s.synced = true) (hb : s.bitIndex = 0) : Assembling s [] s where
  ready := hr
  cfg := rfl
  synced := hs
  bitIndex := by simp [hb]
  frameLen := rfl
  others _ _ := rfl
  byte _ _ h := by cases h

/-- The count of S2 and the end of an edge touch none of what `Assembling` says. -/
theorem Assembling.congr {s t u : State} {seen : List Bool} (h : Assembling s seen t) (hr : Ready u) (hcfg : u.cfg = t.cfg)
    (hsync : u.synced = t.synced) (hb : u.bitIndex = t.bitIndex) (hf : u.frameLen = t.frameLen) (hbuf : u.buf = t.buf) :
    Assembling s seen u where
  ready := hr
  cfg := hcfg.trans h.cfg
  synced := hsync.trans h.synced
  bitIndex := hb ▸ h.bitIndex
  frameLen := hf ▸ h.frameLen
  others := by
    unfold State.memRead
    rw [hbuf]
    exact h.others
  byte := by
    unfold State.memRead
    rw [hbuf]
    exact h.byte

/-- R135: the start bit appends the byte, all bits clear. -/
theorem Assembling.startBit {s t : State} (h : Assembling s [] t) (hroom : s.frameLen.toNat < s.cfg.bufCap)
    (hcap : CapBelowSaturation s) : Assembling s [true] (startOk t) := by
  obtain ⟨hp, hok, hi⟩ := h.ready
  have hf : t.frameLen.toNat = s.frameLen.toNat := h.frameLen
  have hcfg := h.cfg
  have hcap' : CapBelowSaturation t := by
    rw [CapBelowSaturation, hcfg]
    exact hcap
  obtain ⟨_, _, _, _, _, hw, hl⟩ := hi
  obtain ⟨_, _, hnew, _, hother⟩ := bufAppend_spec 0 hw hl
  rw [hf, hcfg] at hnew
  rw [hf] at hother
  refine ⟨⟨hp, hok, startOk_regInv h.ready.2.2 (.inl hcap') h.synced⟩, hcfg, h.synced, rfl, ?_,
    fun a ha => (hother a ha).trans (h.others a ha), fun start data hseen => ?_⟩
  · rw [startOk_frameLen, toNat_frameLenSucc, hf]
    simp only [CapBelowSaturation] at hcap
    simp
    omega
  · obtain ⟨-, rfl⟩ := List.cons.inj hseen
    exact ⟨0, hnew hroom, fun j hj => by simp at hj⟩

/-- R137: a data bit sets its bit of the byte, which is clear before (R30 (e)). -/
theorem Assembling.dataBit {s t : State} {start : Bool} {data : List Bool} (level : Bool)
    (h : Assembling s (start :: data) t) (hroom : s.frameLen.toNat < s.cfg.bufCap) (hlen : data.length < 8) :
    ∃ u, Machine.dataBit (t.bitIndex + 1) level t = .ok u ∧ u.run = t.run ∧ u.lastBitTs = t.lastBitTs
      ∧ Assembling s (start :: (data ++ [level])) u := by
  obtain ⟨hp, hok, hi⟩ := h.ready
  have hk : t.bitIndex.toNat = data.length + 1 := h.bitIndex
  have hf : t.frameLen.toNat = s.frameLen.toNat + 1 := by simpa using h.frameLen
  have hidx : t.frameLen.toNat - 1 = s.frameLen.toNat := by omega
  have hcap : t.frameLen.toNat ≤ t.cfg.bufCap := by rw [hf, h.cfg]; omega
  have hk0 : t.bitIndex ≠ 0 := fun h0 => by simp [h0] at hk
  have hn : (t.bitIndex + 1).toNat = data.length + 2 := by bv_omega
  obtain ⟨b, hb, hbits⟩ := h.byte _ _ rfl
  obtain ⟨b', hb', hclear⟩ := partial_byte hi hk0 hcap
  rw [hidx, hb] at hb'
  cases hb'
  rw [show t.bitIndex.toNat - 1 = data.length by omega] at hclear
  have hstep := dataBit_stored (n := t.bitIndex + 1) (level := level) hcap (hidx ▸ hb)
  rw [hn, hidx] at hstep
  refine ⟨_, hstep, rfl, rfl, ⟨hp, hok, dataBit_regInv hi hk0 (by omega) hstep⟩, h.cfg, h.synced, ?_, ?_, fun a ha => ?_, ?_⟩
  · simpa using hn
  · simpa using hf
  · exact (read_write_other _ _ ha).trans (h.others a ha)
  · intro start' data' hseen
    obtain ⟨-, rfl⟩ := List.cons.inj hseen
    refine ⟨_, read_write_same _ _ hb, fun j hj => ?_⟩
    rw [getLsbD_add_dataContribution level hclear hlen]
    split
    · simp [*]
    · have hj' : j < data.length := by simp at hj; omega
      rw [hbits j hj', List.getElem_append_left hj']

/-! ## One edge -/

theorem Assembling.counted {s t : State} {seen : List Bool} {level : Bool} {dur : U32} (ts lastBit : U32)
    (h : Assembling s seen t) (hm : ¬CompletesMarker level dur t) :
    Assembling s seen { counted level dur ts t with lastBitTs := lastBit } :=
  h.congr (counted_ready (ts := ts) h.ready hm) rfl rfl rfl rfl rfl

theorem Assembling.endEdge {s t : State} {seen : List Bool} (ts : U32) (h : Assembling s seen t) :
    Assembling s seen (endEdge ts t) :=
  h.congr h.ready rfl rfl rfl rfl rfl

theorem Assembling.edge_offBoundary {s t : State} {seen : List Bool} {level : Bool} {dur ts : U32} (h : Assembling s seen t)
    (hm : ¬CompletesMarker level dur t) (hoff : classify (ts - t.lastBitTs) ≠ .long) :
    ∃ u, edgeStep level dur ts t = .next u ∧ u.run = runAfter t.run level (classify dur) ∧ u.lastBitTs = t.lastBitTs
      ∧ Assembling s seen u := by
  have hat : ¬AtBoundary ts (Edge.counted level dur ts t) := fun hat => hoff hat.2
  exact ⟨_, edgeStep_counted h.ready hm (r120S3_offBoundary hat), rfl, rfl, (h.counted ts t.lastBitTs hm).endEdge ts⟩

theorem Assembling.edge_boundary {s t : State} {seen : List Bool} {level : Bool} {dur ts : U32} (h : Assembling s seen t)
    (hm : ¬CompletesMarker level dur t) (hlong : classify (ts - t.lastBitTs) = .long)
    (hroom : s.frameLen.toNat < s.cfg.bufCap) (hcap : CapBelowSaturation s) (hlen : seen.length ≤ 8)
    (hstart : seen = [] → level = true) :
    ∃ u, edgeStep level dur ts t = .next u ∧ u.run = runAfter t.run level (classify dur) ∧ u.lastBitTs = ts
      ∧ Assembling s (seen ++ [level]) u := by
  have hat : AtBoundary ts (Edge.counted level dur ts t) := ⟨h.synced, hlong⟩
  have hc := h.counted ts ts hm
  cases seen with
  | nil =>
    obtain rfl := hstart rfl
    have hb : t.bitIndex = 0 := BitVec.eq_of_toNat_eq h.bitIndex
    exact ⟨_, edgeStep_counted h.ready hm (r120S3_startBit hat hb), rfl, rfl, (hc.startBit hroom hcap).endEdge ts⟩
  | cons start data =>
    have hk : t.bitIndex.toNat = data.length + 1 := h.bitIndex
    simp only [List.length_cons] at hlen
    have h0 : t.bitIndex ≠ 0 := fun h0 => by simp [h0] at hk
    obtain ⟨u, hu, hrun, hlast, hass⟩ := hc.dataBit level hroom (by omega)
    exact ⟨_, edgeStep_counted h.ready hm ((r120S3_dataBit hat h0 (by show t.bitIndex.toNat ≤ 8; omega)).trans hu), hrun,
      hlast, hass.endEdge ts⟩

/-! ## All edges -/

theorem not_completesMarker_of_markerFree {level : Bool} {dur ts : U32} {rest : List (Bool × U32 × U32)} {s : State}
    (h : markerFree s.run ((level, dur, ts) :: rest) = true) :
    ¬CompletesMarker level dur s ∧ markerFree (runAfter s.run level (classify dur)) rest = true := by
  rw [markerFree, Bool.and_eq_true] at h
  exact ⟨by simpa [CompletesMarker, imp_iff_not_or, or_assoc] using h.1, h.2⟩

theorem Assembling.edges {s : State} {data : List Bool} (hroom : s.frameLen.toNat < s.cfg.bufCap) (hcap : CapBelowSaturation s)
    (hlen : data.length ≤ 8) (edges : List (Bool × U32 × U32)) {seen : List Bool} {t : State} (h : Assembling s seen t)
    (es : List Event) (hfree : markerFree t.run edges = true)
    (hlevels : seen ++ boundaryLevels t.lastBitTs edges = true :: data) :
    ∃ u es', runEdges edges t es = some (u, es') ∧ Assembling s (true :: data) u := by
  induction edges generalizing seen t es with
  | nil =>
    rw [boundaryLevels, List.append_nil] at hlevels
    exact ⟨t, es, rfl, hlevels ▸ h⟩
  | cons e rest ih =>
    obtain ⟨level, dur, ts⟩ := e
    obtain ⟨hm, hfree⟩ := not_completesMarker_of_markerFree hfree
    rw [boundaryLevels] at hlevels
    by_cases hlong : classify (ts - t.lastBitTs) = .long
    · rw [if_pos hlong] at hlevels
      have hlen' := congrArg List.length hlevels
      simp only [List.length_append, List.length_cons] at hlen'
      have hstart : seen = [] → level = true := by
        rintro rfl
        exact (List.cons.inj hlevels).1
      obtain ⟨u, hu, hrun, hlast, hass⟩ := h.edge_boundary hm hlong hroom hcap (by omega) hstart
      rw [runEdges_cons_next rest es hu]
      exact ih hass _ (hrun ▸ hfree) (by rw [hlast, List.append_assoc]; exact hlevels)
    · rw [if_neg hlong] at hlevels
      obtain ⟨u, hu, hrun, hlast, hass⟩ := h.edge_offBoundary hm hlong
      rw [runEdges_cons_next rest es hu]
      exact ih hass _ (hrun ▸ hfree) (hlast ▸ hlevels)

/-- Settles O26: after the nine boundaries `Assembling` says what the byte is. -/
theorem byteIsAssembledLsbFirstInverted : Obligations.ByteIsAssembledLsbFirstInverted := by
  intro s edges levels hr hs hb hroom hcap hfree hlevels
  obtain ⟨t, es, hrun, ht⟩ :=
    (Assembling.refl hr hs hb).edges hroom hcap (List.length_ofFn (f := levels)).le edges [] hfree hlevels
  obtain ⟨b, hread, hbits⟩ := ht.byte _ _ rfl
  refine ⟨t, es, hrun, ⟨b, hread, fun j => ?_⟩, ht.others, ?_, (fsm_awaitingStop t).mpr ⟨ht.synced, ?_⟩⟩
  · have hj : j.val < (List.ofFn levels).length := by rw [List.length_ofFn]; exact j.isLt
    rw [hbits j hj, List.getElem_ofFn hj]
  · simpa using ht.frameLen
  · exact BitVec.eq_of_toNat_eq (by simpa using ht.bitIndex)

end Sys2Proof.Proofs.Assembly
end

section
/-! The ROM image (30_encoding.md R86 to R90): each reader of the parser accepts exactly the bytes its encoder writes. -/

namespace Sys2Proof.Proofs.RomImage

open Sys2Proof.Machine Sys2Proof.Laws

/-! ## A mapping entry -/

/-- The bytes of a binary64, least significant first (R60, R88). -/
def scaleBytes (x : F64) : List Byte :=
  [x.extractLsb' 0 8, x.extractLsb' 8 8, x.extractLsb' 16 8, x.extractLsb' 24 8, x.extractLsb' 32 8, x.extractLsb' 40 8,
    x.extractLsb' 48 8, x.extractLsb' 56 8]

theorem natOfBytes_scaleBytes (x : F64) : natOfBytes (scaleBytes x) = x.toNat := by
  simp only [scaleBytes, natOfBytes, BitVec.extractLsb'_toNat, Nat.shiftRight_eq_div_pow]
  omega

theorem scaleBytes_natOfBytes (a b c d e f g h : Byte) :
    scaleBytes (BitVec.ofNat 64 (natOfBytes [a, b, c, d, e, f, g, h])) = [a, b, c, d, e, f, g, h] := by
  simp only [scaleBytes, natOfBytes, List.cons.injEq, and_true, ← BitVec.toNat_inj, BitVec.extractLsb'_toNat,
    BitVec.toNat_ofNat, Nat.shiftRight_eq_div_pow]
  omega

theorem exists_scaleBytes {bs : List Byte} (h : bs.length = 8) : ∃ x, bs = scaleBytes x := by
  match bs, h with
  | [a, b, c, d, e, f, g, h], _ => exact ⟨_, (scaleBytes_natOfBytes a b c d e f g h).symm⟩

/-- The bytes of an entry with this control byte (R88). -/
def entryBytes (control id : Byte) (outs : Vector Byte 8) (scale : F64) : List Byte :=
  [control, id] ++ outs.toList ++ scaleBytes scale

theorem encodeEntry_eq (m : RomEntry) :
    encodeEntry m = entryBytes (entryControl m) m.fieldNameId m.bitToOutputIndex m.scale := rfl

theorem length_entryBytes (control id : Byte) (outs : Vector Byte 8) (scale : F64) :
    (entryBytes control id outs scale).length = 18 := by
  simp [entryBytes, scaleBytes]

/-- Any 18 bytes have the four fields of an entry. -/
theorem exists_entryBytes {bs : List Byte} (h : bs.length = 18) : ∃ control id outs scale, bs = entryBytes control id outs scale := by
  match bs, h with
  | control :: id :: tail, h =>
    simp only [List.length_cons, Nat.reduceEqDiff] at h
    obtain ⟨scale, hscale⟩ := exists_scaleBytes (bs := tail.drop 8) (by simp [h])
    refine ⟨control, id, ⟨(tail.take 8).toArray, by simp [h]⟩, scale, ?_⟩
    rw [entryBytes, ← hscale]
    simp

/-- The fields of an entry are read back from its bytes. -/
theorem entryBytes_fields (control id : Byte) (outs : Vector Byte 8) (scale : F64) :
    byteAt (entryBytes control id outs scale) 0 = control ∧ byteAt (entryBytes control id outs scale) 1 = id
      ∧ (Vector.ofFn fun i : Fin 8 => byteAt (entryBytes control id outs scale) (2 + i.val)) = outs
      ∧ BitVec.ofNat 64 (natOfBytes (((entryBytes control id outs scale).drop 10).take 8)) = scale := by
  refine ⟨rfl, rfl, ?_, ?_⟩
  · refine Vector.ext fun i hi => ?_
    have hget : (outs.toList ++ scaleBytes scale)[i]? = some outs[i] := by
      rw [List.getElem?_append_left (by simpa using hi)]
      simp [hi]
    simp [byteAt, entryBytes, Nat.add_comm 2 i, hget]
  · have hdrop : ((entryBytes control id outs scale).drop 10).take 8 = scaleBytes scale := by
      simp [entryBytes, scaleBytes]
    rw [hdrop, natOfBytes_scaleBytes, BitVec.ofNat_toNat, BitVec.setWidth_eq]

theorem parseEntry_entryBytes {control : Byte} {k : MappingKind} {p : WordPosition} (h : controlFields control = some (k, p))
    (id : Byte) (outs : Vector Byte 8) (scale : F64) (rest : List Byte) :
    parseEntry (entryBytes control id outs scale ++ rest)
      = .ok ({ kind := k, wordPosition := p, fieldNameId := id, bitToOutputIndex := outs, scale := scale }, rest) := by
  obtain ⟨hcontrol, hid, houts, hscale⟩ := entryBytes_fields control id outs scale
  have hcut := (cut_eq_ok_iff 18 _ _ rest).mpr ⟨rfl, length_entryBytes control id outs scale⟩
  simp only [parseEntry, hcut, hcontrol, h, hid, houts, hscale]

theorem parseEntry_entryBytes_reserved {control : Byte} (h : controlFields control = none)
    (id : Byte) (outs : Vector Byte 8) (scale : F64) (rest : List Byte) :
    parseEntry (entryBytes control id outs scale ++ rest) = .error .controlByte := by
  obtain ⟨hcontrol, _, _, _⟩ := entryBytes_fields control id outs scale
  have hcut := (cut_eq_ok_iff 18 _ _ rest).mpr ⟨rfl, length_entryBytes control id outs scale⟩
  simp only [parseEntry, hcut, hcontrol, h]

/-- R89: only Temperature has a word position. -/
abbrev PositionFits (m : RomEntry) : Prop := m.kind = .temperature ∨ m.wordPosition = .none

/-- R88, R89. -/
theorem parseEntry_eq_ok_iff (bs rest : List Byte) (m : RomEntry) :
    parseEntry bs = .ok (m, rest) ↔ bs = encodeEntry m ++ rest ∧ PositionFits m := by
  constructor
  · intro h
    rcases hcut : cut 18 bs with e | ⟨b, rest'⟩
    · simp only [parseEntry, hcut, reduceCtorEq] at h
    obtain ⟨rfl, hlen⟩ := (cut_eq_ok_iff _ _ _ _).mp hcut
    obtain ⟨control, id, outs, scale, rfl⟩ := exists_entryBytes hlen
    rcases hfields : controlFields control with _ | ⟨k, p⟩
    · rw [parseEntry_entryBytes_reserved hfields] at h
      cases h
    · rw [parseEntry_entryBytes hfields] at h
      cases h
      obtain ⟨hcontrol, hfits⟩ := controlFields_eq_some hfields
      exact ⟨by rw [encodeEntry_eq, entryControl, hcontrol], hfits⟩
  · rintro ⟨rfl, hfits⟩
    rw [encodeEntry_eq, entryControl, parseEntry_entryBytes (controlFields_bits m.kind m.wordPosition hfits)]

/-! ## Lists of parts -/

/-- A reader of `n` parts, each read by `one`, accepts exactly `n` parts one after another. -/
theorem parts_eq_ok_iff {α : Type} {one : List Byte → Except ImageReject (α × List Byte)}
    {many : Nat → List Byte → Except ImageReject (List α × List Byte)} {encode : α → List Byte} {Fits : α → Prop}
    (hone : ∀ bs rest a, one bs = .ok (a, rest) ↔ bs = encode a ++ rest ∧ Fits a)
    (hzero : ∀ bs, many 0 bs = .ok ([], bs))
    (hsucc : ∀ n bs rest as, many (n + 1) bs = .ok (as, rest) ↔
      ∃ a as' mid, one bs = .ok (a, mid) ∧ many n mid = .ok (as', rest) ∧ as = a :: as')
    (n : Nat) (bs rest : List Byte) (as : List α) :
    many n bs = .ok (as, rest) ↔ as.length = n ∧ bs = as.flatMap encode ++ rest ∧ ∀ a ∈ as, Fits a := by
  induction n generalizing bs as with
  | zero =>
    rw [hzero, List.length_eq_zero_iff]
    constructor
    · rintro h
      cases h
      simp
    · rintro ⟨rfl, rfl, -⟩
      rfl
  | succ n ih =>
    rw [hsucc]
    constructor
    · rintro ⟨a, as', mid, ha, has, rfl⟩
      obtain ⟨rfl, hfits⟩ := (hone _ _ _).mp ha
      obtain ⟨rfl, rfl, hall⟩ := (ih _ _).mp has
      exact ⟨rfl, by simp, List.forall_mem_cons.mpr ⟨hfits, hall⟩⟩
    · rintro ⟨hlen, rfl, hall⟩
      obtain ⟨a, as', rfl⟩ := List.exists_cons_of_length_eq_add_one hlen
      obtain ⟨hfits, hall⟩ := List.forall_mem_cons.mp hall
      exact ⟨a, as', _, (hone _ _ _).mpr ⟨by rw [List.flatMap_cons, List.append_assoc], hfits⟩,
        (ih _ _).mpr ⟨Nat.succ.inj hlen, rfl, hall⟩, rfl⟩

theorem parseEntries_succ (n : Nat) (bs rest : List Byte) (ms : List RomEntry) :
    parseEntries (n + 1) bs = .ok (ms, rest) ↔
      ∃ m ms' mid, parseEntry bs = .ok (m, mid) ∧ parseEntries n mid = .ok (ms', rest) ∧ ms = m :: ms' := by
  rw [parseEntries]
  rcases parseEntry bs with e | ⟨m, mid⟩
  · simp
  · rcases h : parseEntries n mid with e | ⟨ms', rest'⟩ <;> simp [h, eq_comm, and_comm]

theorem parseRecords_succ (n : Nat) (bs rest : List Byte) (rs : List RomRecord) :
    parseRecords (n + 1) bs = .ok (rs, rest) ↔
      ∃ r rs' mid, parseRecord bs = .ok (r, mid) ∧ parseRecords n mid = .ok (rs', rest) ∧ rs = r :: rs' := by
  rw [parseRecords]
  rcases parseRecord bs with e | ⟨r, mid⟩
  · simp
  · rcases h : parseRecords n mid with e | ⟨rs', rest'⟩ <;> simp [h, eq_comm, and_comm]

theorem parseEntries_eq_ok_iff (n : Nat) (bs rest : List Byte) (ms : List RomEntry) :
    parseEntries n bs = .ok (ms, rest) ↔ ms.length = n ∧ bs = ms.flatMap encodeEntry ++ rest ∧ ∀ m ∈ ms, PositionFits m :=
  parts_eq_ok_iff parseEntry_eq_ok_iff (fun _ => rfl) parseEntries_succ n bs rest ms

/-! ## A device record -/

/-- R87: what a record's own bytes must keep. -/
abbrev RecordFits (r : RomRecord) : Prop :=
  r.expectedByteCount ≠ 0 ∧ r.entries.length = r.expectedByteCount.toNat ∧ ∀ m ∈ r.entries, PositionFits m

theorem parseRecord_eq_ok_iff (bs rest : List Byte) (r : RomRecord) :
    parseRecord bs = .ok (r, rest) ↔ bs = encodeRecord r ++ rest ∧ RecordFits r := by
  constructor
  · intro h
    rw [parseRecord] at h
    split at h
    · cases h
    rename_i b rest' hcut
    obtain ⟨rfl, hlen⟩ := (cut_eq_ok_iff _ _ _ _).mp hcut
    match b, hlen with
    | [code, count, name, reserved], _ =>
      split at h
      · cases h
      rename_i hcount
      split at h
      · cases h
      rename_i hreserved
      split at h
      · cases h
      rename_i ms rest'' hentries
      cases h
      obtain ⟨hlen, rfl, hfits⟩ := (parseEntries_eq_ok_iff _ _ _ _).mp hentries
      obtain rfl : reserved = 0 := Decidable.not_not.mp hreserved
      exact ⟨by simp [encodeRecord, byteAt], hcount, hlen, hfits⟩
  · rintro ⟨rfl, hcount, hlen, hfits⟩
    have hcut := (cut_eq_ok_iff 4 (encodeRecord r ++ rest) [r.code, r.expectedByteCount, r.typeNameId, 0] _).mpr
      ⟨by rw [encodeRecord, List.append_assoc], rfl⟩
    have hentries := (parseEntries_eq_ok_iff _ _ rest r.entries).mpr ⟨hlen, rfl, hfits⟩
    simp only [parseRecord, hcut, byteAt, List.getD_cons_zero, List.getD_cons_succ, hcount, hentries, ne_eq, not_true,
      if_false]

theorem parseRecords_eq_ok_iff (n : Nat) (bs rest : List Byte) (rs : List RomRecord) :
    parseRecords n bs = .ok (rs, rest) ↔ rs.length = n ∧ bs = rs.flatMap encodeRecord ++ rest ∧ ∀ r ∈ rs, RecordFits r :=
  parts_eq_ok_iff parseRecord_eq_ok_iff (fun _ => rfl) parseRecords_succ n bs rest rs

/-! ## The name table -/

/-- R90. -/
theorem parseNameTable_eq_ok_iff (bs rest : List Byte) (names : List Name) :
    parseNameTable bs = .ok (names, rest) ↔
      names.length ≤ 256 ∧ (∀ s ∈ names, PrintableName s)
        ∧ bs = twoBytes names.length ++ (names.flatMap encodeName ++ rest) := by
  constructor
  · intro h
    rw [parseNameTable] at h
    split at h
    · cases h
    rename_i m rest' hcut
    obtain ⟨rfl, hlen⟩ := (cut_eq_ok_iff _ _ _ _).mp hcut
    match m, hlen with
    | [lo, hi], _ =>
      split at h
      · cases h
      rename_i hmany
      obtain ⟨hcount, rfl, hnames⟩ := (parseNames_eq_ok_iff _ _ _ _).mp h
      exact ⟨by omega, hnames, by rw [hcount, twoBytes_natOfBytes]⟩
  · rintro ⟨hmany, hnames, rfl⟩
    have hcut := (cut_eq_ok_iff 2 _ (twoBytes names.length) (names.flatMap encodeName ++ rest)).mpr ⟨rfl, rfl⟩
    have hcount := natOfBytes_twoBytes names.length (by omega)
    simp only [parseNameTable, hcut, hcount, Nat.not_lt.mpr hmany, if_false]
    exact (parseNames_eq_ok_iff _ _ _ _).mpr ⟨rfl, rfl, hnames⟩

/-! ## The registry -/

/-- R90: the name indexes of a record lie in the table. -/
abbrev NamesResolve (names : List Name) (r : RomRecord) : Prop :=
  r.typeNameId.toNat < names.length ∧ ∀ m ∈ r.entries, m.fieldNameId.toNat < names.length

/-- The definition of a record whose names resolve (R34, R90). -/
def recordDefinition (names : List Name) (r : RomRecord) : DeviceDefinition :=
  { code := r.code, deviceTypeName := names.getD r.typeNameId.toNat [], expectedByteCount := r.expectedByteCount
    byteMappings := r.entries.map (entryMapping names) }

theorem imageRegistry_eq (records : List RomRecord) (names : List Name) :
    imageRegistry records names = records.map fun r => (r.code, recordDefinition names r) := rfl

theorem resolveRecord_eq_ok_iff (names : List Name) (r : RomRecord) (d : DeviceDefinition) :
    resolveRecord names r = .ok d ↔ NamesResolve names r ∧ d = recordDefinition names r := by
  rw [resolveRecord]
  by_cases hname : r.typeNameId.toNat < names.length
  · rw [List.getElem?_eq_getElem hname]
    constructor
    · intro h
      dsimp only at h
      split at h
      · cases h
      rename_i ms hms
      cases h
      obtain ⟨hentries, rfl⟩ := (resolveEntries_eq_ok_iff _ _ _).mp hms
      exact ⟨⟨hname, hentries⟩, by simp [recordDefinition, hname]⟩
    · rintro ⟨⟨_, hentries⟩, rfl⟩
      simp [(resolveEntries_eq_ok_iff names r.entries _).mpr ⟨hentries, rfl⟩, recordDefinition, hname]
  · simp [hname]

theorem resolveRecords_eq_ok_iff (names : List Name) (records : List RomRecord) (reg : Registry) :
    resolveRecords names records = .ok reg ↔
      (∀ r ∈ records, NamesResolve names r) ∧ reg = imageRegistry records names := by
  induction records generalizing reg with
  | nil => simp [resolveRecords, imageRegistry, eq_comm]
  | cons r rs ih =>
    rw [resolveRecords, List.forall_mem_cons]
    constructor
    · intro h
      split at h
      · cases h
      rename_i d hd
      split at h
      · cases h
      rename_i reg' hreg
      cases h
      obtain ⟨hr, rfl⟩ := (resolveRecord_eq_ok_iff _ _ _).mp hd
      obtain ⟨hrs, rfl⟩ := (ih _).mp hreg
      exact ⟨⟨hr, hrs⟩, rfl⟩
    · rintro ⟨⟨hr, hrs⟩, rfl⟩
      rw [(resolveRecord_eq_ok_iff names r _).mpr ⟨hr, rfl⟩, (ih _).mpr ⟨hrs, rfl⟩]
      rfl

/-! ## The image -/

/-- The "must"s of an image, as its parts keep them. -/
theorem imageMusts_iff (records : List RomRecord) (names : List Name) :
    ImageMusts records names ↔
      records.length ≤ 256 ∧ (records.map RomRecord.code).Nodup ∧ names.length ≤ 256 ∧ (∀ s ∈ names, PrintableName s)
        ∧ (∀ r ∈ records, RecordFits r) ∧ ∀ r ∈ records, NamesResolve names r := by
  constructor
  · rintro ⟨hmany, hcodes, hmanyNames, hnames, hrecords⟩
    refine ⟨hmany, hcodes, hmanyNames, hnames, fun r hr => ?_, fun r hr => ?_⟩
    · obtain ⟨hcount, hlen, _, hentries⟩ := hrecords r hr
      exact ⟨hcount, hlen, fun m hm => (hentries m hm).1⟩
    · obtain ⟨_, _, hname, hentries⟩ := hrecords r hr
      exact ⟨hname, fun m hm => (hentries m hm).2⟩
  · rintro ⟨hmany, hcodes, hmanyNames, hnames, hfits, hresolve⟩
    refine ⟨hmany, hcodes, hmanyNames, hnames, fun r hr => ?_⟩
    obtain ⟨hcount, hlen, hpositions⟩ := hfits r hr
    obtain ⟨hname, hindexes⟩ := hresolve r hr
    exact ⟨hcount, hlen, hname, fun m hm => ⟨hpositions m hm, hindexes m hm⟩⟩

theorem encodeImage_append (records : List RomRecord) (names : List Name) (tail : List Byte) :
    encodeImage records names ++ tail
      = ([1, 0] ++ twoBytes records.length)
        ++ (records.flatMap encodeRecord ++ (twoBytes names.length ++ (names.flatMap encodeName ++ tail))) := by
  simp only [encodeImage, List.append_assoc]

theorem parseImage_ok {bs : List Byte} {reg : Registry} {names : List Name} (h : parseImage bs = .ok (reg, names)) :
    ∃ records tail, ImageMusts records names ∧ bs = encodeImage records names ++ tail ∧ reg = imageRegistry records names := by
  rw [parseImage] at h
  split at h
  · cases h
  rename_i b rest hcut
  obtain ⟨rfl, hlen⟩ := (cut_eq_ok_iff _ _ _ _).mp hcut
  match b, hlen with
  | [version, reserved, lo, hi], _ =>
    split at h
    · cases h
    rename_i hversion
    split at h
    · cases h
    rename_i hreserved
    split at h
    · cases h
    rename_i hmany
    split at h
    · cases h
    rename_i records rest' hrecords
    split at h
    case isFalse => cases h
    rename_i hcodes
    split at h
    · cases h
    rename_i names' tail htable
    split at h
    · cases h
    rename_i reg' hreg
    cases h
    obtain ⟨hcount, rfl, hfits⟩ := (parseRecords_eq_ok_iff _ _ _ _).mp hrecords
    obtain ⟨hmanyNames, hnames, rfl⟩ := (parseNameTable_eq_ok_iff _ _ _).mp htable
    obtain ⟨hresolve, rfl⟩ := (resolveRecords_eq_ok_iff _ _ _).mp hreg
    obtain rfl : version = 1 := Decidable.not_not.mp hversion
    obtain rfl : reserved = 0 := Decidable.not_not.mp hreserved
    refine ⟨records, tail, (imageMusts_iff _ _).mpr ⟨by omega, hcodes, hmanyNames, hnames, hfits, hresolve⟩, ?_, rfl⟩
    rw [encodeImage_append, hcount]
    exact congrArg (fun n => [1, 0] ++ n ++ _) (twoBytes_natOfBytes lo hi).symm

theorem parseImage_encodeImage {records : List RomRecord} {names : List Name} (h : ImageMusts records names) (tail : List Byte) :
    parseImage (encodeImage records names ++ tail) = .ok (imageRegistry records names, names) := by
  obtain ⟨hmany, hcodes, hmanyNames, hnames, hfits, hresolve⟩ := (imageMusts_iff _ _).mp h
  have hcut := (cut_eq_ok_iff 4 _ _ _).mpr ⟨encodeImage_append records names tail, rfl⟩
  have hcount : natOfBytes (([1, 0] ++ twoBytes records.length).drop 2) = records.length :=
    natOfBytes_twoBytes _ (by omega)
  have hrecords := (parseRecords_eq_ok_iff _ _ (twoBytes names.length ++ (names.flatMap encodeName ++ tail)) records).mpr
    ⟨rfl, rfl, hfits⟩
  have htable := (parseNameTable_eq_ok_iff _ tail names).mpr ⟨hmanyNames, hnames, rfl⟩
  have hreg := (resolveRecords_eq_ok_iff names records _).mpr ⟨hresolve, rfl⟩
  have hversion : byteAt ([1, 0] ++ twoBytes records.length) 0 = 1 := rfl
  have hreserved : byteAt ([1, 0] ++ twoBytes records.length) 1 = 0 := rfl
  simp only [parseImage, hcut, hversion, hreserved, hcount, Nat.not_lt.mpr hmany, ne_eq, not_true, if_false, hrecords, hcodes,
    if_true, htable, hreg]

/-- Settles O56: what the parser accepts is an image by `parseImage_ok`, and it accepts every image; the entry by `parseEntry_eq_ok_iff`. -/
theorem romImageIsReadExactly : Obligations.RomImageIsReadExactly := by
  refine ⟨fun bs reg names => ⟨parseImage_ok, ?_⟩, fun m rest hfits => (parseEntry_eq_ok_iff _ _ _).mpr ⟨rfl, hfits⟩⟩
  rintro ⟨records, tail, hmusts, rfl, rfl⟩
  exact parseImage_encodeImage hmusts tail

end Sys2Proof.Proofs.RomImage
end

section
/-! The encoding (30_encoding.md R80 to R92): `decode` and `encode` are inverse, the decoder on words the spec writes out, the `LOG` beats (R95)
and the `CELLS` pseudo-instruction (R97). -/

namespace Sys2Proof.Proofs.Encoding

open Sys2Proof.Machine Sys2Proof.Laws Sys2Proof.Proofs.Reserved

/-! ## Every instruction is read back from its word -/

/-- R92: `K` is read back from the word of a BIT.DATA row, within the row's own range of `K`. -/
theorem decodeBit_bitDataK2_3 : ∀ (k : BitVec 4) (level : Bool), (Instr.bitDataK2_3 k level).wf = true →
    decodeBit (encodeBit k level) = .ok (.bitDataK2_3 k level) := by decide

theorem decodeBit_bitDataK4_7 : ∀ (k : BitVec 4) (level : Bool), (Instr.bitDataK4_7 k level).wf = true →
    decodeBit (encodeBit k level) = .ok (.bitDataK4_7 k level) := by decide

/-- Settles O52, row by row of the opcode table: an `EV` word by its fields, a selector with one free bit at both values of that bit, and the two rows
with a `K` of their own within its range. -/
theorem decodeOfEncodeIsIdentity : Obligations.DecodeOfEncodeIsIdentity := by
  intro i hwf
  cases i with
  | edgeRise dur ts => exact congrArg Except.ok (decodeEv_encodeEv true dur ts)
  | edgeFall dur ts => exact congrArg Except.ok (decodeEv_encodeEv false dur ts)
  | reset | pcShort | pcLong | pcInvalid | syncInc | syncMark => rfl
  | syncClrRl z | syncClrRi z | syncClrFi z | syncHoldFs z | syncHoldFl z => cases z <;> rfl
  | bitDataK1 level | bitDataK8 level => cases level <;> rfl
  | bitDataK2_3 k level => exact decodeBit_bitDataK2_3 k level hwf
  | bitDataK4_7 k level => exact decodeBit_bitDataK4_7 k level hwf
  | bitStart | bitStartFail | bitStop | bitStopFail => rfl
  | bmIdent | bmOutbits | bmTemp | bmTempLo | bmTempHi => rfl

/-! ## Every word that decodes is its instruction's -/

/-- If the word decodes, it is the word of its instruction, which is well-formed. -/
def hasOneMeaning (w : Word) : Bool :=
  (decode w).toOption.all fun i => decide (encode i = w) && i.wf

theorem hasOneMeaning_iff (w : Word) :
    hasOneMeaning w = true ↔ ∀ i, decode w = .ok i → encode i = w ∧ i.wf = true := by
  unfold hasOneMeaning
  cases decode w <;> simp [Except.toOption]

/-- R80, R83: an `EV` word is its three fields, and bit 64 chooses the row. -/
theorem encode_decodeEv (w : BitVec 65) : encode (decodeEv w) = .ev w ∧ (decodeEv w).wf = true := by
  have hfields := encodeEv_fields w
  unfold decodeEv
  cases hlevel : w.getLsbD 64 with
  | false => exact ⟨congrArg Word.ev (hlevel ▸ hfields), rfl⟩
  | true => exact ⟨congrArg Word.ev (hlevel ▸ hfields), rfl⟩

/-! The short formats have few enough words to look at each; a control byte that decodes is one of five (R89). -/

theorem hasOneMeaning_ctl : ∀ w : BitVec 1, hasOneMeaning (.ctl w) = true := by decide

theorem hasOneMeaning_category : ∀ w : BitVec 2, hasOneMeaning (.sel (.category w)) = true := by decide

theorem hasOneMeaning_sync : ∀ w : BitVec 4, hasOneMeaning (.sel (.sync w)) = true := by decide

theorem hasOneMeaning_bit : ∀ w : BitVec 5, hasOneMeaning (.sel (.bit w)) = true := by decide

theorem hasOneMeaning_definedMapping :
    ∀ w ∈ [(0x00 : Byte), 0x01, 0x02, 0x06, 0x0A], hasOneMeaning (.sel (.mapping w)) = true := by decide

theorem hasOneMeaning_mapping (w : Byte) : hasOneMeaning (.sel (.mapping w)) = true := by
  by_cases hdefined : w ∈ [(0x00 : Byte), 0x01, 0x02, 0x06, 0x0A]
  · exact hasOneMeaning_definedMapping w hdefined
  · have hreject : decode (.sel (.mapping w)) = .error .controlByteReserved := decodeMapping_reserved hdefined
    rw [hasOneMeaning, hreject]
    rfl

/-- Settles O53, format by format. -/
theorem everyWordHasOneMeaning : Obligations.EveryWordHasOneMeaning := by
  intro w
  cases w with
  | ev w =>
    rintro i ⟨⟩
    exact encode_decodeEv w
  | ctl w => exact (hasOneMeaning_iff _).mp (hasOneMeaning_ctl w)
  | sel x =>
    cases x with
    | category w => exact (hasOneMeaning_iff _).mp (hasOneMeaning_category w)
    | sync w => exact (hasOneMeaning_iff _).mp (hasOneMeaning_sync w)
    | bit w => exact (hasOneMeaning_iff _).mp (hasOneMeaning_bit w)
    | mapping w => exact (hasOneMeaning_iff _).mp (hasOneMeaning_mapping w)

/-! ## Words, beats and cells the spec writes out -/

theorem decode_of_encode_eq {i : Instr} {w : Word} (hwf : i.wf = true) (hw : encode i = w) : decode w = .ok i :=
  hw ▸ decodeOfEncodeIsIdentity i hwf

/-- Settles O55: each word is the one `encode` gives its instruction. -/
theorem specWordsDecodeAsWritten : Obligations.SpecWordsDecodeAsWritten := by
  refine ⟨?_, ?_, ?_, ?_, ?_, ?_, ?_, ?_, ?_, ?_, ?_⟩ <;> exact decode_of_encode_eq rfl rfl

/-- Settles O57: each beat is the arm of `logBeat` for its event. -/
theorem logBeatsCarryTheirCodes : Obligations.LogBeatsCarryTheirCodes :=
  fun _ _ _ _ _ _ _ _ => ⟨rfl, rfl, rfl, rfl, rfl, rfl, rfl⟩

/-- R97: the levels and times of the edges of `"0 0 1"` from time 0 on; the repeated 0 brings an edge of its own at the start of its cell. -/
theorem cellEdges_001 :
    cellEdges none 0 [false, false, true] = [(false, 10000), (true, 20000), (false, 30000), (true, 50000)] := rfl

/-- Settles O60: the first edge takes `d0` for its duration, each later one the time since the edge before. -/
theorem cellsExpandAsWritten : Obligations.CellsExpandAsWritten := by
  rw [Obligations.CellsExpandAsWritten, expandCells, cellEdges_001]
  rfl

end Sys2Proof.Proofs.Encoding
end

section
/-! The rows of sync detection run alone (41_frame_assembler.md R123, R124), the rows whose selector the state does not form, and that the running core
takes every word. -/

namespace Sys2Proof.Proofs.Selected

open Sys2Proof.Machine Sys2Proof.Laws Sys2Proof.Proofs.Step Sys2Proof.Proofs.Edge Sys2Proof.Proofs.Instructions
  Sys2Proof.Proofs.Soundness

/-! ## The rows of sync detection -/

/-- Settles O5: the selector 1010 says that `RUN` is not full, and R30 that it is at most 15. -/
theorem syncIncCountsOneMore : Obligations.SyncIncCountsOneMore := by
  intro s hr hsel
  have hsel' : syncSel s = encodeSync true 0b01 false := hsel
  have hnotFull : s.run ≠ 15 := by
    obtain ⟨_, _, hfull⟩ := (syncSel_eq_iff s _ _ _).mp hsel'
    simpa [hfull] using runIsFull_iff s
  obtain ⟨_, _, hrun, _⟩ := id hr
  refine ⟨onSyncSel_ready (op := fun s => .ok { s with run := s.run + 1 }) hr hsel' rfl, ?_, run_succ_le hrun hnotFull⟩
  exact BitVec.toNat_add_of_lt (by simp; omega)

/-- R123, R124: an Invalid edge of either level clears the count and raises INVALID_PULSE with its own fields. -/
theorem clearInvalid_ready {s : State} {level z : Bool} (hr : Ready s) (hsel : syncSel s = encodeSync level 0b00 z) :
    onSyncSel (encodeSync level 0b00 z) (fun s => .ok (raiseInvalid { s with run := 0 })) s
      = .next { s with run := 0, events := s.events ++ [.invalidPulse level s.work.dur s.work.ts] } := by
  obtain ⟨hlevel, _, _⟩ := (syncSel_eq_iff s _ _ _).mp hsel
  refine onSyncSel_ready hr hsel ?_
  rw [← hlevel]
  rfl

/-- Settles O6: each row completes on its own selector. -/
theorem syncRowsClearOrHold : Obligations.SyncRowsClearOrHold := fun _ _ hr =>
  ⟨fun hsel => onSyncSel_ready (op := fun s => .ok { s with run := 0 }) hr hsel rfl, clearInvalid_ready hr, clearInvalid_ready hr,
    fun hsel => onSyncSel_ready hr hsel rfl, fun hsel => onSyncSel_ready hr hsel rfl⟩

/-! ## Rows whose selector the state does not form (notes/assumptions/21.md) -/

theorem onSyncSel_unformed {s : State} {sel : BitVec 4} (op : State → Except Fault State) (hr : Ready s)
    (hs : syncSel s ≠ sel) : onSyncSel sel op s = .fault .selectorNotFormed := by
  rw [onSyncSel, accept_ready hr, if_neg hs]

theorem onBitSel_unformed {s : State} {k : BitVec 4} {level : Bool} (op : State → Except Fault State) (hr : Ready s)
    (hs : atBoundary s = false ∨ bitSel s ≠ encodeBit k level) : onBitSel k level op s = .fault .selectorNotFormed := by
  rw [onBitSel, accept_ready hr, if_neg]
  rintro ⟨hb, hsel⟩
  rcases hs with hs | hs
  · simp [hb] at hs
  · exact hs hsel

theorem onSlot_unformed {s : State} {code : Byte} (op : Slot → Except Fault Record)
    (hs : ∀ c, s.work.slot = some c → controlByte c.mapping ≠ code) : onSlot code op s = .fault .selectorNotFormed := by
  unfold onSlot
  cases hslot : s.work.slot with
  | none => rfl
  | some c => exact if_neg (hs c hslot)

/-- The state does not form this `SYNC-SEL`, `BIT-SEL` or control-byte word, in the terms O59 gives for each format; it says nothing of category words. -/
def Unformed (s : State) : Sel → Prop
  | .category _ => False
  | .sync w => Ready s ∧ syncSel s ≠ w
  | .bit w => Ready s ∧ (atBoundary s = false ∨ bitSel s ≠ w)
  | .mapping w => ∀ c, s.work.slot = some c → controlByte c.mapping ≠ w

/-- Each row's meaning begins with the test of its own selector word. -/
theorem exec_unformed {i : Instr} {s : State} {x : Sel} (hx : encode i = .sel x) (hu : Unformed s x) :
    exec i s = .fault .selectorNotFormed := by
  have hm := exec_meaning i
  generalize exec i = f at hm ⊢
  cases hm with
  | rise | fall | reset => cases hx
  | category _ he =>
    cases he.symm.trans hx
    exact hu.elim
  | sync he _ =>
    cases he.symm.trans hx
    obtain ⟨hr, hs⟩ := hu
    exact onSyncSel_unformed _ hr hs
  | bit he _ =>
    cases he.symm.trans hx
    obtain ⟨hr, hs⟩ := hu
    exact onBitSel_unformed _ hr hs
  | noSelector _ => rfl
  | mapping op he =>
    cases he.symm.trans hx
    exact onSlot_unformed op hu

/-- Settles O59: its three clauses are `exec_unformed` for the words of the three formats. -/
theorem unformedSelectorFaults : Obligations.UnformedSelectorFaults := fun _ _ =>
  ⟨fun hr => ⟨fun _ hw hs => exec_unformed hw ⟨hr, hs⟩, fun _ hw hs => exec_unformed hw ⟨hr, hs⟩⟩,
    fun _ hw hs => exec_unformed hw hs⟩

/-! ## The running core takes every word -/

/-- In a ready state every edge completes, and leaves what is neither a register nor a step-local value. -/
theorem edgeStep_completes {s : State} (level : Bool) (dur ts : U32) (hr : Ready s) :
    ∃ t, edgeStep level dur ts s = .next t ∧ SameOutside s t := by
  obtain ⟨u, hu, _, hout⟩ := r120_ready level dur ts hr
  exact ⟨{ u with work := Work.idle }, by rw [edgeStep_ready level dur ts hr, hu]; rfl, hout⟩

/-- R240, R244. -/
theorem execReset_running {s : State} (hphase : s.phase = .running) (hcfg : configOk s.cfg = true) :
    execReset s = .next { s.resetRegisters with phase := .running, work := Work.idle } := by
  simp [execReset, hphase, hcfg]

/-- Settles O30: the step is an edge in a ready state, RESET in a running one, or `CTL` 0. -/
theorem runningInstanceTakesEveryWord : Obligations.RunningInstanceTakesEveryWord := by
  rintro s rest ⟨⟨hsub, _⟩, _, hcfg, _, hregs⟩ hphase
  obtain ⟨runs, _⟩ := stepRunsTheDecodedInstruction s rest
  obtain ⟨ev, ctl, ctlZero, _⟩ := runs hsub
  refine ⟨fun w hin => ?_, fun w hin => ?_⟩
  · have hr : Ready { s with inbox := rest, events := [] } := ⟨hphase, hcfg, hregs⟩
    obtain ⟨t, ht, _, hphase', hinbox, _⟩ := edgeStep_completes (w.getLsbD 64) (w.extractLsb' 32 32) (w.extractLsb' 0 32) hr
    exact ⟨t, by rw [ev w _ hin rfl, exec_decodeEv, ht], hinbox, hphase'.trans hphase⟩
  · by_cases hw : w = 0
    · exact ⟨_, ctlZero w hin hw, rfl, hphase⟩
    · obtain rfl : w = 1 := by bv_omega
      exact ⟨_, (ctl 1 .reset hin rfl).trans (execReset_running hphase hcfg), rfl, rfl⟩

end Sys2Proof.Proofs.Selected
end

section
/-! The Pulse Classifier (40_pulse_classifier.md R110, R111): the windows of CLASSIFY and what its three rows do. -/

namespace Sys2Proof.Proofs.Classifier

open Sys2Proof.Machine Sys2Proof.Laws

/-! ## The windows -/

/-- R110: the duration of each category lies in that category's own window. -/
theorem classify_cases (d : U32) :
    (classify d = .short ∧ 9000 < d.toNat ∧ d.toNat < 11000)
      ∨ (classify d = .long ∧ 18000 < d.toNat ∧ d.toNat < 22000)
      ∨ (classify d = .invalid ∧ ¬(9000 < d.toNat ∧ d.toNat < 11000) ∧ ¬(18000 < d.toNat ∧ d.toNat < 22000)) := by
  unfold classify
  split
  case isTrue hshort => exact .inl ⟨rfl, hshort⟩
  case isFalse hshort =>
    split
    case isTrue hlong => exact .inr (.inl ⟨rfl, hlong⟩)
    case isFalse hlong => exact .inr (.inr ⟨rfl, hshort, hlong⟩)

/-- R20: the code 11 is no category's. -/
theorem categoryCode_ne_unused (c : PulseCategory) : categoryCode c ≠ 0b11 := by
  cases c <;> decide

/-- Settles O3: the converse of `classify_cases` holds because the windows are disjoint. -/
theorem classifyHasExclusiveBounds : Obligations.ClassifyHasExclusiveBounds := by
  intro d
  simp only [ne_eq, categoryCode_ne_unused, not_false_eq_true, and_true]
  obtain ⟨hd, hwindow⟩ | ⟨hd, hwindow⟩ | ⟨hd, hwindow⟩ := classify_cases d <;>
  · simp only [hd, reduceCtorEq, true_iff, false_iff]
    omega

/-! ## The rows -/

/-- Which row leaves which category (R20). -/
theorem exec_eq_giveCategory {i : Instr} {c : PulseCategory}
    (hrow : (i = .pcShort ∧ c = .short) ∨ (i = .pcLong ∧ c = .long) ∨ (i = .pcInvalid ∧ c = .invalid)) (s : State) :
    exec i s = giveCategory c s := by
  obtain ⟨rfl, rfl⟩ | ⟨rfl, rfl⟩ | ⟨rfl, rfl⟩ := hrow <;> rfl

/-- Settles O4: a row is `giveCategory` of its own category, which tests that CLASSIFY gives it. -/
theorem categoryRowsLeaveTheCategory : Obligations.CategoryRowsLeaveTheCategory := by
  intro s i c hrow
  rw [exec_eq_giveCategory hrow]
  exact ⟨fun hgiven => giveCategory_next.mpr ⟨hgiven, rfl⟩, fun hother => if_neg hother⟩

end Sys2Proof.Proofs.Classifier
end

section
/-! SYNC.MARK, the rows of bit decoding run alone (41_frame_assembler.md R126, R135 to R140), and the frame of the rows that store no byte. -/

namespace Sys2Proof.Proofs.AssemblerRows

open Sys2Proof.Machine Sys2Proof.Laws Sys2Proof.Proofs.Assembly

/-! ## What each row does to the state that forms its selector -/

/-- Settles O7: the row is SYNC_MARKER, which completes in a ready state. -/
theorem syncMarkFinalizesThenAligns : Obligations.SyncMarkFinalizesThenAligns := by
  intro s hr hsel
  obtain ⟨r, hdecode, hmark⟩ := syncMarker_ready s.work.ts hr
  exact ⟨r, hdecode, onSyncSel_ready (op := fun s => syncMarker s.work.ts s) hr hsel hmark⟩

theorem frameLenSucc_eq (n : U32) : frameLenSucc n = if n.toNat = 2 ^ 32 - 1 then n else n + 1 := by
  have hmax : n = 0xFFFFFFFF ↔ n.toNat = 2 ^ 32 - 1 := by bv_omega
  simp only [frameLenSucc, hmax]

/-- Settles O8: the row is START_OK, which is BufAppend of a zero byte. -/
theorem bitStartAppendsZeroByte : Obligations.BitStartAppendsZeroByte := by
  intro s hr hat hsel
  rw [← frameLenSucc_eq]
  exact onBitSel_ready (op := fun s => .ok (startOk s)) hr hat hsel rfl

/-- Settles O9: the row is START_FAIL, which does not touch the buffer. -/
theorem bitStartFailLosesSync : Obligations.BitStartFailLosesSync := fun _ hr hat hsel =>
  onBitSel_ready (op := fun s => .ok (startFail s.work.ts s)) hr hat hsel rfl

/-- Settles O11: the row is STOP_OK. -/
theorem bitStopCompletesTheByte : Obligations.BitStopCompletesTheByte := fun _ hr hat hsel =>
  onBitSel_ready (op := fun s => .ok (stopOk s)) hr hat hsel rfl

/-- In a ready state the selector's `K` is `BIT_INDEX`. -/
theorem bitIndex_of_bitSel {s : State} {k : BitVec 4} {level : Bool} (hr : Ready s) (hsel : bitSel s = encodeBit k level) :
    s.bitIndex = k.setWidth 8 := by
  obtain ⟨_, _, hi⟩ := hr
  obtain ⟨hfield, _⟩ := (bitSel_eq_iff s k level).mp hsel
  exact bitIndex_of_ready hi hfield

theorem stopFail_eq {s : State} (ts : U32) (hf : s.frameLen ≠ 0) :
    stopFail ts s = { s with
      buf := if s.frameLen.toNat ≤ s.cfg.bufCap then s.buf.dropLast else s.buf
      frameLen := s.frameLen - 1, synced := false, bitIndex := 0, events := s.events ++ [.syncLoss .stop ts] } := by
  rw [stopFail, State.bufDropLast, if_neg hf]
  rfl

/-- Settles O12: a byte is under assembly, so `FRAME_LEN` is not 0 (R30 (d)) and BufDropLast takes that byte off. -/
theorem bitStopFailDropsTheByte : Obligations.BitStopFailDropsTheByte := by
  intro s hr hat hsel
  have hindex : s.bitIndex = 9 := bitIndex_of_bitSel (k := 9) (level := true) hr hsel
  obtain ⟨_, _, _, _, _, hpartial, _⟩ := id hr
  obtain ⟨_, hf⟩ := hpartial (by simp [hindex])
  rw [← stopFail_eq _ hf]
  exact onBitSel_ready (op := fun s => .ok (stopFail s.work.ts s)) hr hat hsel rfl

/-! ## The BIT.DATA rows -/

/-- Which row decodes which data bits (R92). -/
abbrev IsDataRow (i : Instr) (k : BitVec 4) (level : Bool) : Prop :=
  (i = .bitDataK1 level ∧ k = 1) ∨ (i = .bitDataK2_3 k level ∧ 2 ≤ k ∧ k ≤ 3)
    ∨ (i = .bitDataK4_7 k level ∧ 4 ≤ k ∧ k ≤ 7) ∨ (i = .bitDataK8 level ∧ k = 8)

/-- Each of the four rows is DATA_BIT with `n = K + 1`, run on its own selector. -/
theorem IsDataRow.exec_eq {i : Instr} {k : BitVec 4} {level : Bool} (hrow : IsDataRow i k level) (s : State) :
    exec i s = onBitSel k level (dataBit (nextIndex k) level) s := by
  obtain ⟨rfl, rfl⟩ | ⟨rfl, hk⟩ | ⟨rfl, hk⟩ | ⟨rfl, rfl⟩ := hrow
  · rfl
  · exact if_pos hk
  · exact if_pos hk
  · rfl

theorem IsDataRow.ne_zero {i : Instr} {k : BitVec 4} {level : Bool} (hrow : IsDataRow i k level) : k ≠ 0 := by
  obtain ⟨_, rfl⟩ | ⟨_, hk, _⟩ | ⟨_, hk, _⟩ | ⟨_, rfl⟩ := hrow
  · decide
  · bv_omega
  · bv_omega
  · decide

theorem toNat_nextIndex (k : BitVec 4) : (nextIndex k).toNat = k.toNat + 1 := by
  unfold nextIndex
  bv_omega

/-- Where the byte's bits from the next data bit up are clear, adding the contribution is setting it. -/
theorem add_dataContribution_eq_or {b : Byte} {k : Nat} (level : Bool) (hclear : b >>> (k - 1) = 0) :
    b + dataContribution (k + 1) level = b ||| dataContribution (k + 1) level := by
  rw [dataContribution_eq]
  cases level
  · exact add_twoPow_eq_or b (k - 1) hclear
  · simp

theorem dataBit_unstored {s : State} (n : BitVec 8) (level : Bool) (hcap : s.cfg.bufCap < s.frameLen.toNat) :
    dataBit n level s = .ok { s with bitIndex := n } :=
  if_neg (by omega)

/-- Settles O10: a byte under assembly that is stored can be read, and its bits from the next data bit up are clear (R30 (e)). -/
theorem dataBitAddsItsWeight : Obligations.DataBitAddsItsWeight := by
  intro s i k level hrow hr hat hsel
  have hexec {t} (hop : dataBit (nextIndex k) level s = .ok t) : exec i s = .next t :=
    (IsDataRow.exec_eq hrow s).trans (onBitSel_ready hr hat hsel hop)
  refine ⟨fun hcap => ?stored, fun hcap => hexec (dataBit_unstored _ level hcap)⟩
  case stored =>
    have hk : k ≠ 0 := IsDataRow.ne_zero hrow
    have hindex := bitIndex_of_bitSel hr hsel
    have hindex0 : s.bitIndex ≠ 0 := by bv_omega
    obtain ⟨_, _, hi⟩ := hr
    obtain ⟨b, hb, hclear⟩ := partial_byte hi hindex0 hcap
    have hindexNat : s.bitIndex.toNat = k.toNat := by bv_omega
    rw [hindexNat] at hclear
    have hstored := dataBit_stored (n := nextIndex k) (level := level) hcap hb
    rw [toNat_nextIndex] at hstored
    exact ⟨b, hb, add_dataContribution_eq_or level hclear, dataContribution_eq _ level, hexec hstored⟩

/-! ## The rows that store no byte -/

/-- The rows of sync detection without SYNC.MARK write `RUN` and the events alone. -/
theorem exec_syncRow_next {i : Instr} {s t : State} {z : Bool}
    (hi : i ∈ [Instr.syncInc, .syncClrRl z, .syncClrRi z, .syncClrFi z, .syncHoldFs z, .syncHoldFl z])
    (h : exec i s = .next t) : ∃ n es, t = { s with run := n, events := es } := by
  simp only [List.mem_cons, List.not_mem_nil, or_false] at hi
  rcases hi with rfl | rfl | rfl | rfl | rfl | rfl <;>
  · simp only [exec, execSyncInc, execSyncClrRl, execSyncClrRi, execSyncClrFi, execSyncHoldFs, execSyncHoldFl] at h
    obtain ⟨_, _, hop⟩ := onSyncSel_next h
    cases hop
    exact ⟨_, _, rfl⟩

theorem exec_bitStartFail_next {s t : State} (h : exec .bitStartFail s = .next t) : t = startFail s.work.ts s := by
  rw [exec, execBitStartFail] at h
  obtain ⟨_, _, _, hop⟩ := onBitSel_next h
  cases hop
  rfl

theorem exec_bitStop_next {s t : State} (h : exec .bitStop s = .next t) : t = stopOk s := by
  rw [exec, execBitStop] at h
  obtain ⟨_, _, _, hop⟩ := onBitSel_next h
  cases hop
  rfl

/-- Settles O39: the sync rows write `RUN` and the events, START_FAIL and STOP_OK the flags and the events. -/
theorem rowsThatStoreNothingKeepTheBuffer : Obligations.RowsThatStoreNothingKeepTheBuffer := by
  intro i s t z h
  refine ⟨fun hi => ?syncRow, fun hi => ?bitRow⟩
  case syncRow =>
    obtain ⟨n, es, rfl⟩ := exec_syncRow_next hi h
    exact ⟨fun _ => rfl, rfl, rfl, rfl, rfl, rfl, rfl, rfl, rfl, rfl, rfl⟩
  case bitRow =>
    simp only [List.mem_cons, List.not_mem_nil, or_false] at hi
    rcases hi with rfl | rfl
    · obtain rfl := exec_bitStartFail_next h
      exact ⟨fun _ => rfl, rfl, rfl, rfl, rfl, rfl, ⟨rfl, rfl, rfl, rfl⟩, by simp⟩
    · obtain rfl := exec_bitStop_next h
      exact ⟨fun _ => rfl, rfl, rfl, rfl, rfl, rfl, ⟨rfl, rfl, rfl, rfl⟩, fun _ => ⟨rfl, rfl⟩⟩

end Sys2Proof.Proofs.AssemblerRows
end

section
/-! Whole edges (41_frame_assembler.md R120, R125 to R131, R149): the pseudocode, a marker edge, an edge off a boundary, the FSM transition table, and how
often a run of Short rising edges finalizes. -/

namespace Sys2Proof.Proofs.WholeEdges

open Sys2Proof.Machine Sys2Proof.Laws Sys2Proof.Proofs.Edge Sys2Proof.Proofs.Assembly

/-! ## One edge -/

/-- R120 says where an edge of either level ends in a ready state. -/
theorem edgeStep_of_r120 {s t : State} {level : Bool} {dur ts : U32} (hr : Ready s) (h : r120 level dur ts s = .ok t) :
    edgeStep level dur ts s = .next { t with work := Work.idle } := by
  rw [edgeStep_ready level dur ts hr, h]
  rfl

/-- Settles O18: R120 completes in a ready state, for either level. -/
theorem edgeRunsThePseudocode : Obligations.EdgeRunsThePseudocode := by
  intro s dur ts hr
  have hlevel (level : Bool) :
      ∃ t, r120 level dur ts s = .ok t ∧ edgeStep level dur ts s = .next { t with work := Work.idle } := by
    obtain ⟨t, ht, _⟩ := r120_ready level dur ts hr
    exact ⟨t, ht, edgeStep_of_r120 hr ht⟩
  exact ⟨hlevel true, hlevel false⟩

/-- An edge that completes a marker, in any FSM state (R126). -/
theorem edgeStep_marker {s : State} {level : Bool} {dur : U32} (ts : U32) (hr : Ready s) (hm : CompletesMarker level dur s) :
    ∃ r, decodeFrame s.cfg.registry s.buf s.frameLen = .ok r
      ∧ edgeStep level dur ts s = .next { marked ts r s with work := Work.idle } := by
  obtain ⟨r, hdecode, hr120⟩ := r120_marker ts hr hm
  exact ⟨r, hdecode, edgeStep_of_r120 hr hr120⟩

/-- Settles O19: such an edge completes a marker. -/
theorem markerEdgeOnlyFinalizes : Obligations.MarkerEdgeOnlyFinalizes := fun _ _ ts hr hshort hrun =>
  edgeStep_marker ts hr ⟨rfl, hshort, hrun⟩

theorem runAfter_of_not_marker {s : State} {level : Bool} {dur : U32} (hm : ¬CompletesMarker level dur s) :
    runAfter s.run level (classify dur)
      = if level = true ∧ classify dur = .short then s.run + 1
        else if level = true ∨ classify dur = .invalid then 0 else s.run := by
  unfold runAfter
  by_cases hrise : level = true ∧ classify dur = .short
  · have hrun : s.run ≠ 15 := fun hrun => hm ⟨hrise.1, hrise.2, hrun⟩
    rw [if_pos hrise, if_pos hrise, if_neg hrun]
  · rw [if_neg hrise, if_neg hrise]

theorem not_atBoundary {s : State} {ts : U32} (hoff : s.synced = false ∨ classify (ts - s.lastBitTs) ≠ .long) :
    ¬AtBoundary ts s := by
  rintro ⟨hsync, hlong⟩
  rcases hoff with hs | hs
  · cases hs.symm.trans hsync
  · exact hs hlong

/-- Settles O20: S3 does nothing off a boundary, so the edge is the count of S2. -/
theorem edgeOffBoundaryDecodesNothing : Obligations.EdgeOffBoundaryDecodesNothing := by
  intro s level dur ts hr hoff hm
  have hat : ¬AtBoundary ts (counted level dur ts s) := not_atBoundary (s := counted level dur ts s) hoff
  rw [exec_edge, edgeStep_counted hr hm (r120S3_offBoundary hat), ← runAfter_of_not_marker hm]
  rfl

/-! ## The FSM transition table -/

/-- R130: where a bit boundary of this level leads; unsynced there is none. -/
def fsmAfterBit (level : Bool) : FsmState → FsmState
  | .unsynced => .unsynced
  | .awaitingStart => if level then .inByte 1 else .unsynced
  | .inByte k => if k ≤ 7 then .inByte (k + 1) else .awaitingStop
  | .awaitingStop => if level then .unsynced else .awaitingStart

/-- S3 at a bit boundary, from each FSM state. -/
theorem r120S3_fsm {s u : State} {level : Bool} {ts : U32} {q : FsmState} (hat : AtBoundary ts s)
    (h : r120S3 level ts s = .ok u) (hq : fsmState s = some q) : fsmState u = some (fsmAfterBit level q) := by
  cases q with
  | unsynced =>
    obtain ⟨hs, _⟩ := (fsm_unsynced s).mp hq
    cases hs.symm.trans hat.1
  | awaitingStart =>
    obtain ⟨hs, hb⟩ := (fsm_awaitingStart s).mp hq
    rw [r120S3_startBit hat hb] at h
    cases h
    cases level
    · exact (fsm_unsynced _).mpr ⟨rfl, rfl⟩
    · exact (fsm_inByte _ 1).mpr ⟨hs, rfl, le_rfl, by decide⟩
  | inByte k =>
    obtain ⟨hs, hb, hk1, hk8⟩ := (fsm_inByte s k).mp hq
    have h0 : s.bitIndex ≠ 0 := by bv_omega
    rw [r120S3_dataBit hat h0 (by omega)] at h
    obtain ⟨buf, rfl⟩ := dataBit_ok h
    have hnext : (s.bitIndex + 1).toNat = k + 1 := by bv_omega
    rw [fsmAfterBit]
    split
    · exact (fsm_inByte _ _).mpr ⟨hs, hnext, by omega, by omega⟩
    · obtain rfl : k = 8 := by omega
      exact (fsm_awaitingStop _).mpr ⟨hs, BitVec.eq_of_toNat_eq hnext⟩
  | awaitingStop =>
    obtain ⟨hs, hb⟩ := (fsm_awaitingStop s).mp hq
    rw [r120S3_stopBit hat hb] at h
    cases h
    cases level
    · exact (fsm_awaitingStart _).mpr ⟨hs, rfl⟩
    · exact (fsm_unsynced _).mpr ⟨stopFail_synced _ _, stopFail_bitIndex _ _⟩

/-- An edge that completes no marker is S3 after the count, and S3 completes in a ready state. -/
theorem edgeStep_counted_ready {s : State} {level : Bool} {dur : U32} (ts : U32) (hr : Ready s)
    (hm : ¬CompletesMarker level dur s) :
    ∃ u, r120S3 level ts (counted level dur ts s) = .ok u ∧ edgeStep level dur ts s = .next (endEdge ts u) := by
  obtain ⟨u, hu, _⟩ := r120S3_ready level ts (counted_ready (ts := ts) hr hm)
  exact ⟨u, hu, edgeStep_counted hr hm hu⟩

/-- Settles O22: a marker leads to Synced-AwaitingStart, a bit boundary by `fsmAfterBit`, and nothing else changes the FSM state. -/
theorem fsmFollowsTransitionTable : Obligations.FsmFollowsTransitionTable := by
  intro s level dur ts hr
  rw [exec_edge]
  by_cases hm : CompletesMarker level dur s
  · obtain ⟨r, _, hstep⟩ := edgeStep_marker ts hr hm
    exact ⟨_, hstep, fun _ => (fsm_awaitingStart _).mpr ⟨rfl, rfl⟩, fun hn => absurd hm hn⟩
  · obtain ⟨u, hu, hstep⟩ := edgeStep_counted_ready ts hr hm
    refine ⟨_, hstep, fun h => absurd h hm, fun _ => ⟨fun hoff => ?offBoundary, fun hlong => ?boundary⟩⟩
    case offBoundary =>
      rw [r120S3_offBoundary (not_atBoundary (s := counted level dur ts s) hoff)] at hu
      cases hu
      exact fsm_congr rfl rfl
    case boundary =>
      have hfsm {q : FsmState} (hs : s.synced = true) (hq : fsmState s = some q) :
          fsmState (endEdge ts u) = some (fsmAfterBit level q) := by
        have hat : AtBoundary ts (counted level dur ts s) := ⟨hs, hlong⟩
        exact (fsm_congr (s := u) rfl rfl).trans (r120S3_fsm hat hu hq)
      refine ⟨fun hq => hfsm ((fsm_awaitingStart s).mp hq).1 hq, fun k hk hq => ?_,
        fun hq => hfsm ((fsm_inByte s 8).mp hq).1 hq, fun hq => hfsm ((fsm_awaitingStop s).mp hq).1 hq⟩
      rw [hfsm ((fsm_inByte s k).mp hq).1 hq, fsmAfterBit, if_pos hk]

/-! ## How often edges finalize -/

/-- How many of these events a FINALIZE raised (R218). -/
def finalizations (es : List Event) : Nat := (es.filter Event.isFinalization).length

/-- How many of these edges are rising ones. -/
def rises (edges : List (Bool × U32 × U32)) : Nat := (edges.filter fun e => e.1).length

theorem finalizations_append (es es' : List Event) :
    finalizations (es ++ es') = finalizations es + finalizations es' := by
  simp [finalizations]

theorem rises_cons (level : Bool) (dur ts : U32) (rest : List (Bool × U32 × U32)) :
    rises ((level, dur, ts) :: rest) = level.toNat + rises rest := by
  cases level <;> simp [rises, Nat.add_comm]

theorem isFinalization_finalEvent (id : ControllerId) (r : DecodeResult) : (finalEvent id r).isFinalization = true := by
  cases r <;> rfl

theorem finalizations_finalEvent (id : ControllerId) (r : DecodeResult) : finalizations [finalEvent id r] = 1 := by
  simp [finalizations, isFinalization_finalEvent]

theorem finalizations_pulseEvents (level : Bool) (dur ts : U32) : finalizations (pulseEvents level dur ts) = 0 := by
  unfold pulseEvents
  split <;> rfl

/-- S3 finalizes nothing. -/
theorem r120S3_finalizations {s u : State} {level : Bool} {ts : U32} (hi : RegInv s) (h : r120S3 level ts s = .ok u) :
    finalizations u.events = finalizations s.events := by
  by_cases hs : s.synced = true
  · obtain ⟨_, _, hev⟩ | ⟨_, _, which, hev, _⟩ := r120S3_synced hi hs h
    · rw [hev]
    · rw [hev, finalizations_append]
      rfl
  · rw [r120S3_offBoundary fun hat => hs hat.1] at h
    cases h
    rfl

/-- An edge that is rising and Short, or falling and not Invalid: it does not clear `RUN` but by a marker (R123). -/
abbrev KeepsCount (level : Bool) (dur : U32) : Prop :=
  (level = true → classify dur = .short) ∧ (level = false → classify dur ≠ .invalid)

/-- R123, R125: off a marker, such an edge adds its rise to the count. -/
theorem runAfter_keepsCount {s : State} {level : Bool} {dur : U32} (hr : Ready s) (hk : KeepsCount level dur)
    (hm : ¬CompletesMarker level dur s) : (runAfter s.run level (classify dur)).toNat = s.run.toNat + level.toNat := by
  obtain ⟨_, _, hrun, _⟩ := hr
  obtain ⟨hrise, hfall⟩ := hk
  rw [runAfter_of_not_marker hm]
  cases level
  · simp [hfall rfl]
  · rw [if_pos ⟨rfl, hrise rfl⟩, Bool.toNat_true]
    bv_omega

/-- R123, R125: each rising edge of `KeepsCount` counts one more, and 16 of the count go into each finalization. -/
theorem edgeStep_keepsCount {s : State} {level : Bool} {dur : U32} (ts : U32) (hr : Ready s) (hcap : CapBelowSaturation s)
    (hk : KeepsCount level dur) :
    ∃ t, edgeStep level dur ts s = .next t ∧ Ready t ∧ CapBelowSaturation t
      ∧ 16 * finalizations t.events + t.run.toNat = s.run.toNat + level.toNat := by
  obtain ⟨v, hv, hready, hcfg, _⟩ := r120_ready level dur ts hr
  have hcap' : CapBelowSaturation { v with work := Work.idle } := by
    rw [CapBelowSaturation, hcfg]
    exact hcap
  refine ⟨_, edgeStep_of_r120 hr hv, hready hcap, hcap', ?_⟩
  by_cases hm : CompletesMarker level dur s
  · obtain ⟨r, _, hmarked⟩ := r120_marker ts hr hm
    cases hmarked.symm.trans hv
    obtain ⟨rfl, _, hrun⟩ := hm
    simp [marked, finalizations_finalEvent, hrun]
  · obtain ⟨u, hu, rfl⟩ := (r120_counted hm).mp hv
    obtain ⟨_, _, hregs⟩ := counted_ready (ts := ts) hr hm
    have hfinal : finalizations u.events = 0 :=
      (r120S3_finalizations hregs hu).trans (finalizations_pulseEvents level dur ts)
    have hrun := r120_run hr hv
    show 16 * finalizations u.events + u.run.toNat = _
    rw [hfinal, hrun, runAfter_keepsCount hr hk hm, Nat.mul_zero, Nat.zero_add]

theorem runEdges_keepsCount (edges : List (Bool × U32 × U32)) {s : State} (es : List Event) (hr : Ready s)
    (hcap : CapBelowSaturation s) (hk : ∀ e ∈ edges, KeepsCount e.1 e.2.1) :
    ∃ t es', runEdges edges s es = some (t, es') ∧ Ready t
      ∧ 16 * finalizations es' + t.run.toNat = 16 * finalizations es + s.run.toNat + rises edges := by
  induction edges generalizing s es with
  | nil => exact ⟨s, es, rfl, hr, rfl⟩
  | cons e rest ih =>
    obtain ⟨level, dur, ts⟩ := e
    obtain ⟨(hk : KeepsCount level dur), hkrest⟩ := List.forall_mem_cons.mp hk
    obtain ⟨t, hstep, hr', hcap', hcount⟩ := edgeStep_keepsCount ts hr hcap hk
    obtain ⟨u, es', hrest, hr'', hcount'⟩ := ih (es ++ t.events) hr' hcap' hkrest
    refine ⟨u, es', (runEdges_cons_next rest es hstep).trans hrest, hr'', ?_⟩
    rw [finalizations_append] at hcount'
    rw [rises_cons]
    omega

/-- Settles O25: `RUN` is below 16 before and after the edges, so 16 rises make one finalization and 32 make two. -/
theorem sixteenShortRisesFinalizeOnce : Obligations.SixteenShortRisesFinalizeOnce := by
  intro s edges hr hcap hk
  obtain ⟨t, es, hedges, ⟨_, _, hrun', _⟩, hcount⟩ := runEdges_keepsCount edges [] hr hcap hk
  obtain ⟨_, _, hrun, _⟩ := hr
  have hcount : 16 * (es.filter Event.isFinalization).length + t.run.toNat
      = s.run.toNat + (edges.filter fun e => e.1).length := by
    simpa [finalizations, rises] using hcount
  exact ⟨t, es, hedges, fun h16 => by omega, fun h32 => by omega⟩

end Sys2Proof.Proofs.WholeEdges
end

section
/-! The rows of the unpacker (42_record_unpacker.md R175 to R180, 93_implementation_defined.md item 29): what each of the five puts into the record of a
slot whose control byte selects it, and when it faults. -/

namespace Sys2Proof.Proofs.MappingRows

open Sys2Proof.Machine Sys2Proof.Laws

/-- The fault of a mapping operation is the fault of its row. -/
theorem onSlot_fault {s : State} {c : Slot} {code : Byte} {op : Slot → Except Fault Record} {f : Fault}
    (hc : s.work.slot = some c) (hb : controlByte c.mapping = code) (ho : op c = .error f) : onSlot code op s = .fault f := by
  simp [onSlot, hc, hb, ho]

/-! ## The rows that put -/

/-- Settles O13: the put of IDENT finds its key absent. -/
theorem identPutsTheTypeName : Obligations.IdentPutsTheTypeName := fun _ _ hslot hcode habsent =>
  onSlot_some (op := fun c => identOp c.defn c.mapping c.record) hslot hcode (putFresh_absent _ habsent)

/-- Settles O15: the put of TEMP finds its key absent. -/
theorem tempPutsTheScaledValue : Obligations.TempPutsTheScaledValue := fun _ _ hslot hcode habsent =>
  onSlot_some (op := fun c => tempOp c.mapping c.byte c.record) hslot hcode (putFresh_absent _ habsent)

/-- R176: the pairs OUTBITS appends are those of the used outputs, each taken with its bit number. -/
theorem outbitPairs_eq_filterMap (m : ByteMapping) (b : Byte) (bit : Nat) (os : List Byte) :
    outbitPairs m b bit os = (os.zipIdx bit).filterMap fun p =>
      if p.1 = 0 then none else some (m.fieldName ++ decByte p.1, Value.bool (b.getLsbD p.2)) := by
  induction os generalizing bit with
  | nil => rfl
  | cons o os ih =>
    rw [outbitPairs, ih, List.zipIdx_cons, List.filterMap_cons]
    by_cases hunused : o = 0
    · simp only [hunused, if_true, List.nil_append]
    · simp only [hunused, if_false, List.singleton_append, outputKey]

/-- Settles O14: OUTBITS over distinct outputs with absent keys appends their pairs. -/
theorem outbitsPutsUsedBitsInOrder : Obligations.OutbitsPutsUsedBitsInOrder := by
  intro s c hslot hcode hdistinct habsent
  have hop := outbitsFrom_fresh c.mapping c.byte c.mapping.bitToOutputIndex.toList 0 c.record hdistinct habsent
  rw [outbitPairs_eq_filterMap] at hop
  exact onSlot_some (op := fun c => outbitsOp c.mapping c.byte c.record) hslot hcode hop

/-! ## The rows that accumulate -/

theorem replace_of_absent {r : Record} {k : Name} (v : Value) (h : k ∉ keysOf r) : Record.replace r k v = r := by
  refine (List.map_congr_left fun e he => if_neg ?_).trans (List.map_id r)
  rintro rfl
  exact h (List.mem_map_of_mem he)

/-- R180: a term is added to the Num that its key has, which stays where it is. -/
theorem acc_inPlace {before after : Record} {k : Name} (x y : F64) (hbefore : k ∉ keysOf before) (hafter : k ∉ keysOf after) :
    Record.acc (before ++ [(k, .num y)] ++ after) k x = .ok (before ++ [(k, .num (fAdd y x))] ++ after) := by
  have hget : Record.get (before ++ [(k, .num y)] ++ after) k = some (.num y) := by
    have := get_append_same (.num y) hbefore
    rw [Record.get] at this ⊢
    rw [List.lookup_append, this]
    rfl
  have hreplace (v : Value) : Record.replace (before ++ [(k, .num y)] ++ after) k v = before ++ [(k, v)] ++ after := by
    have hleft := replace_append_same (.num y) v hbefore
    have hright := replace_of_absent v hafter
    rw [Record.replace] at hleft hright ⊢
    rw [List.map_append, hleft, hright]
  rw [Record.acc, hget]
  exact congrArg _ (hreplace _)

theorem acc_notNum {r : Record} {k : Name} {v : Value} (x : F64) (hget : Record.get r k = some v) (hv : ∀ y, v ≠ .num y) :
    Record.acc r k x = .error .recordNotNum := by
  rw [Record.acc, hget]
  cases v with
  | str s => rfl
  | bool b => rfl
  | num y => exact absurd rfl (hv y)

/-- R178, R179: the row `i` on the slot `c` adds the term `x` to the slot's field. -/
def AddsTerm (c : Slot) (i : Instr) (x : F64) : Prop :=
  (i = .bmTempLo ∧ controlByte c.mapping = 0x06 ∧ x = fMul (fOfByte c.byte) c.mapping.scale)
    ∨ (i = .bmTempHi ∧ controlByte c.mapping = 0x0A
        ∧ x = fMul (fMul (fOfByte c.byte) c.mapping.scale) 0x4070000000000000)

theorem AddsTerm.exec_eq {s : State} {c : Slot} {i : Instr} {x : F64} {r : Record} (h : AddsTerm c i x)
    (hslot : s.work.slot = some c) (hacc : Record.acc c.record c.mapping.fieldName x = .ok r) :
    exec i s = .next { s with work := { s.work with slot := some { c with record := r } } } := by
  obtain ⟨rfl, hcode, rfl⟩ | ⟨rfl, hcode, rfl⟩ := h
  · exact onSlot_some (op := fun c => tempLoOp c.mapping c.byte c.record) hslot hcode hacc
  · exact onSlot_some (op := fun c => tempHiOp c.mapping c.byte c.record) hslot hcode hacc

/-- Settles O16: either row is the accumulation of its term, on an absent key and on one with a Num. -/
theorem halfTemperatureRowsAccumulate : Obligations.HalfTemperatureRowsAccumulate := by
  intro s c i x hslot hrow
  have hadds : AddsTerm c i x := hrow
  refine ⟨fun habsent => hadds.exec_eq hslot (acc_absent x habsent), fun before after y hrecord hbefore hafter => ?_⟩
  exact hadds.exec_eq hslot (hrecord ▸ acc_inPlace x y hbefore hafter)

/-! ## Clashes -/

/-- Settles O17: a put on a taken key, an accumulation on a value that is no Num, and a clash among the keys of OUTBITS. -/
theorem recordClashFaults : Obligations.RecordClashFaults := by
  intro s c hslot
  refine ⟨fun htaken => ⟨fun hcode => ?_, fun hcode => ?_⟩, fun v hget hv => ⟨fun hcode => ?_, fun hcode => ?_⟩,
    fun hcode hclash => ?_⟩
  · exact onSlot_fault (op := fun c => identOp c.defn c.mapping c.record) hslot hcode (putFresh_present _ htaken)
  · exact onSlot_fault (op := fun c => tempOp c.mapping c.byte c.record) hslot hcode (putFresh_present _ htaken)
  · exact onSlot_fault (op := fun c => tempLoOp c.mapping c.byte c.record) hslot hcode (acc_notNum _ hget hv)
  · exact onSlot_fault (op := fun c => tempHiOp c.mapping c.byte c.record) hslot hcode (acc_notNum _ hget hv)
  · exact onSlot_fault (op := fun c => outbitsOp c.mapping c.byte c.record) hslot hcode
      (outbitsFrom_clash c.mapping c.byte c.mapping.bitToOutputIndex.toList 0 c.record hclash)

end Sys2Proof.Proofs.MappingRows
end

section
/-! The checks of a configuration (70_reset_and_hazards.md R243) are WF1 to WF9 in the words of 42_record_unpacker.md R184, and the bound of R7. -/

namespace Sys2Proof.Proofs.Registry

open Sys2Proof.Machine Sys2Proof.Laws

/-! ## WF7 -/

theorem halves_symm {m m' : ByteMapping} (h : Halves m m') : Halves m' m := by
  obtain ⟨hk, hk', hname, hpos⟩ := h
  exact ⟨hk', hk, hname.symm, hpos.symm.imp And.symm And.symm⟩

theorem halves_shareKey {m m' : ByteMapping} (h : Halves m m') : ∃ k ∈ slotKeys m, k ∈ slotKeys m' := by
  obtain ⟨hkeys, hkeys'⟩ := halves_slotKeys h
  exact ⟨m.fieldName, by simp [hkeys], by simp [hkeys']⟩

/-- The first clause of WF7: two slots that share a key are consecutive halves. -/
def SharingSlotsAreHalves (ms : List ByteMapping) : Prop :=
  ∀ (i j : Nat) (m m' : ByteMapping), i < j → ms[i]? = some m → ms[j]? = some m' →
    (∃ k ∈ slotKeys m, k ∈ slotKeys m') → j = i + 1 ∧ Halves m m'

/-- The second clause of WF7: no half stands alone. -/
def HalvesHaveNeighbours (ms : List ByteMapping) : Prop :=
  ∀ (i : Nat) (m : ByteMapping), ms[i]? = some m → m.wordPosition ≠ .none →
    ∃ (j : Nat) (m' : ByteMapping), (j = i + 1 ∨ i = j + 1) ∧ ms[j]? = some m' ∧ Halves m m'

/-- The first clause, slot by slot: a slot may share a key with the slot after it alone. -/
theorem sharingSlotsAreHalves_cons (m : ByteMapping) (ms : List ByteMapping) :
    SharingSlotsAreHalves (m :: ms) ↔
      (∀ (j : Nat) (m' : ByteMapping), ms[j]? = some m' → (∃ k ∈ slotKeys m, k ∈ slotKeys m') → j = 0 ∧ Halves m m')
        ∧ SharingSlotsAreHalves ms := by
  constructor
  · intro h
    refine ⟨fun j m' hj hshare => ?_, fun i j x x' hij hi hj hshare => ?_⟩
    · obtain ⟨hnext, hhalves⟩ := h 0 (j + 1) m m' (by omega) rfl hj hshare
      exact ⟨by omega, hhalves⟩
    · obtain ⟨hnext, hhalves⟩ := h (i + 1) (j + 1) x x' (by omega) hi hj hshare
      exact ⟨by omega, hhalves⟩
  · rintro ⟨hfirst, hlater⟩ i j x x' hij hi hj hshare
    obtain ⟨j, rfl⟩ : ∃ n, j = n + 1 := ⟨j - 1, by omega⟩
    cases i with
    | zero =>
      cases hi
      obtain ⟨rfl, hhalves⟩ := hfirst j x' hj hshare
      exact ⟨rfl, hhalves⟩
    | succ i =>
      obtain ⟨rfl, hhalves⟩ := hlater i j x x' (by omega) hi hj hshare
      exact ⟨rfl, hhalves⟩

/-- A slot apart from all later ones stands before any slots of which WF7's first clause holds. -/
theorem sharingSlotsAreHalves_of_apart {m : ByteMapping} {ms : List ByteMapping} (hapart : keysApart m ms = true)
    (h : SharingSlotsAreHalves ms) : SharingSlotsAreHalves (m :: ms) :=
  (sharingSlotsAreHalves_cons m ms).mpr
    ⟨fun j m' hj hshare => absurd hshare ((keysApart_iff_index m ms).mp hapart j m' hj), h⟩

/-- A slot that is no half shares no key (WF7). -/
theorem keysApart_of_noHalf {m : ByteMapping} {ms : List ByteMapping} (hm : m.wordPosition = .none)
    (h : SharingSlotsAreHalves (m :: ms)) : keysApart m ms = true := by
  obtain ⟨hfirst, _⟩ := (sharingSlotsAreHalves_cons m ms).mp h
  refine (keysApart_iff_index m ms).mpr fun j m' hj hshare => ?_
  obtain ⟨_, hhalves⟩ := hfirst j m' hj hshare
  exact (halves_wordPosition hhalves).1 hm

theorem halvesHaveNeighbours_cons_none {m : ByteMapping} (ms : List ByteMapping) (hm : m.wordPosition = .none) :
    HalvesHaveNeighbours (m :: ms) ↔ HalvesHaveNeighbours ms := by
  constructor
  · intro h i x hi hx
    obtain ⟨j, x', hnext, hj, hhalves⟩ := h (i + 1) x hi hx
    cases j with
    | zero =>
      cases hj
      exact absurd hm (halves_wordPosition hhalves).2
    | succ j => exact ⟨j, x', by omega, hj, hhalves⟩
  · intro h i x hi hx
    cases i with
    | zero =>
      cases hi
      exact absurd hm hx
    | succ i =>
      obtain ⟨j, x', hnext, hj, hhalves⟩ := h i x hi hx
      exact ⟨j + 1, x', by omega, hj, hhalves⟩

/-- A half at the head has its other half right after it. -/
theorem HalvesHaveNeighbours.head {m : ByteMapping} {ms : List ByteMapping} (h : HalvesHaveNeighbours (m :: ms))
    (hm : m.wordPosition ≠ .none) : ∃ m', ms[0]? = some m' ∧ Halves m m' := by
  obtain ⟨j, m', hnext, hj, hhalves⟩ := h 0 m rfl hm
  obtain rfl : j = 1 := by omega
  exact ⟨m', hj, hhalves⟩

theorem HalvesHaveNeighbours.cons_pair {m m' : ByteMapping} {ms : List ByteMapping} (hp : Halves m m')
    (h : HalvesHaveNeighbours ms) : HalvesHaveNeighbours (m :: m' :: ms)
  | 0, _, rfl, _ => ⟨1, m', by omega, rfl, hp⟩
  | 1, _, rfl, _ => ⟨0, m, by omega, rfl, halves_symm hp⟩
  | i + 2, x, hi, hx => by
    obtain ⟨j, x', hnext, hj, hhalves⟩ := h i x hi hx
    exact ⟨j + 2, x', by omega, hj, hhalves⟩

/-- The second half of a pair is no neighbour of a later half: the pair's first half would share that one's key too. -/
theorem HalvesHaveNeighbours.of_cons_pair {m m' : ByteMapping} {ms : List ByteMapping} (hp : Halves m m')
    (hapart : keysApart m ms = true) (h : HalvesHaveNeighbours (m :: m' :: ms)) : HalvesHaveNeighbours ms := by
  intro i x hi hx
  obtain ⟨j, x', hnext, hj, hhalves⟩ := h (i + 2) x hi hx
  match j, hj with
  | 0, _ => omega
  | 1, rfl =>
    refine absurd ?_ ((keysApart_iff_index m ms).mp hapart i x hi)
    obtain ⟨hkeys, hkeys'⟩ := halves_slotKeys hp
    have hshare := halves_shareKey (halves_symm hhalves)
    rwa [hkeys', ← hkeys] at hshare
  | j + 2, hj => exact ⟨j, x', by omega, hj, hhalves⟩

/-- A pair of halves shares no key with what follows exactly when its first half does not (WF7). -/
theorem sharingSlotsAreHalves_pair {m m' : ByteMapping} {ms : List ByteMapping} (hp : Halves m m') :
    SharingSlotsAreHalves (m :: m' :: ms) ↔ keysApart m ms = true ∧ SharingSlotsAreHalves ms := by
  have hkeys : slotKeys m = slotKeys m' := by
    obtain ⟨hm, hm'⟩ := halves_slotKeys hp
    rw [hm, hm']
  have hsame : keysApart m' ms = keysApart m ms := by rw [keysApart, keysApart, hkeys]
  rw [sharingSlotsAreHalves_cons]
  constructor
  · rintro ⟨hfirst, hrest⟩
    refine ⟨(keysApart_iff_index m ms).mpr fun j x hj hshare => ?_, ((sharingSlotsAreHalves_cons _ _).mp hrest).2⟩
    obtain ⟨hzero, _⟩ := hfirst (j + 1) x hj hshare
    omega
  · rintro ⟨hapart, hrest⟩
    refine ⟨fun j x hj hshare => ?_, sharingSlotsAreHalves_of_apart (hsame.trans hapart) hrest⟩
    cases j with
    | zero =>
      cases hj
      exact ⟨rfl, hp⟩
    | succ j => exact absurd hshare ((keysApart_iff_index m ms).mp hapart j x hj)

/-- The check of WF7 is WF7, along the recursion of the check. -/
theorem slotsApart_iff (ms : List ByteMapping) : slotsApart ms = true ↔ SharingSlotsAreHalves ms ∧ HalvesHaveNeighbours ms := by
  induction ms using slotsApart.induct with
  | case1 => simp [slotsApart, SharingSlotsAreHalves, HalvesHaveNeighbours]
  | case2 m =>
    rw [slotsApart, beq_iff_eq]
    constructor
    · intro hm
      exact ⟨sharingSlotsAreHalves_of_apart (by simp [keysApart]) (fun _ _ _ _ _ hi => by cases hi),
        (halvesHaveNeighbours_cons_none [] hm).mpr (fun _ _ hi => by cases hi)⟩
    · rintro ⟨_, hneighbours⟩
      by_contra hm
      obtain ⟨_, hnext, _⟩ := hneighbours.head hm
      cases hnext
  | case3 m m' rest hm ih =>
    rw [slotsApart, if_pos hm, Bool.and_eq_true, ih]
    have hm : m.wordPosition = .none := by simpa using hm
    rw [halvesHaveNeighbours_cons_none _ hm]
    constructor
    · rintro ⟨hapart, hsharing, hneighbours⟩
      exact ⟨sharingSlotsAreHalves_of_apart hapart hsharing, hneighbours⟩
    · rintro ⟨hsharing, hneighbours⟩
      exact ⟨keysApart_of_noHalf hm hsharing, ((sharingSlotsAreHalves_cons _ _).mp hsharing).2, hneighbours⟩
  | case4 m m' rest hm ih =>
    rw [slotsApart, if_neg hm, Bool.and_eq_true, Bool.and_eq_true, ih, isPair_iff]
    have hm : m.wordPosition ≠ .none := by simpa using hm
    constructor
    · rintro ⟨⟨hp, hapart⟩, hsharing, hneighbours⟩
      exact ⟨(sharingSlotsAreHalves_pair hp).mpr ⟨hapart, hsharing⟩, hneighbours.cons_pair hp⟩
    · rintro ⟨hsharing, hneighbours⟩
      obtain ⟨_, hnext, hp⟩ := hneighbours.head hm
      cases hnext
      obtain ⟨hapart, hrest⟩ := (sharingSlotsAreHalves_pair hp).mp hsharing
      exact ⟨⟨hp, hapart⟩, hrest, hneighbours.of_cons_pair hp hapart⟩

/-! ## The other checks -/

/-- WF5. -/
theorem positionOk_iff (m : ByteMapping) : positionOk m = true ↔ (m.wordPosition ≠ .none → m.kind = .temperature) := by
  simp only [positionOk, Bool.or_eq_true, beq_iff_eq]
  tauto

theorem eq_noOutputs_iff (v : Vector Byte 8) : v = noOutputs ↔ ∀ o ∈ v.toList, o = 0 := by
  have hneutral : noOutputs.toList = List.replicate v.toList.length 0 := by simp [noOutputs]
  rw [← Vector.toList_inj, hneutral, List.eq_replicate_iff]
  simp

/-- WF6. -/
theorem neutralOk_iff (m : ByteMapping) :
    neutralOk m = true ↔
      (m.kind ≠ .outputBits → ∀ o ∈ m.bitToOutputIndex.toList, o = 0) ∧ (m.kind ≠ .temperature → m.scale = 0x3FF0000000000000) := by
  rw [← eq_noOutputs_iff]
  simp only [neutralOk, Bool.and_eq_true, Bool.or_eq_true, beq_iff_eq, f64One]
  tauto

/-- WF8. -/
theorem outputsDistinct_iff (m : ByteMapping) :
    outputsDistinct m = true ↔ (m.kind = .outputBits → (m.bitToOutputIndex.toList.filter fun o => o != 0).Nodup) := by
  simp only [outputsDistinct, Bool.or_eq_true, bne_iff_ne, decide_eq_true_eq]
  exact imp_iff_not_or.symm

/-- R184: the checks of a definition are WF2 and WF4 to WF9. -/
theorem definitionOk_iff (d : DeviceDefinition) : definitionOk d = true ↔ WellFormedDefinition d := by
  unfold WellFormedDefinition
  simp only [definitionOk, countOk, namesOk, Bool.and_eq_true, List.all_eq_true, decide_eq_true_eq, beq_iff_eq, nameOk_iff,
    positionOk_iff, neutralOk_iff, slotsApart_iff, outputsDistinct_iff, and_assoc]
  exact Iff.rfl

/-- Settles O34: the checks are those of each definition, of the keys and of BUF_CAP. -/
theorem configurationChecksAreWf1ToWf9 : Obligations.ConfigurationChecksAreWf1ToWf9 := by
  intro c
  simp only [configOk, capOk, keysDistinct, keysMatch, Bool.and_eq_true, List.all_eq_true, decide_eq_true_eq, beq_iff_eq,
    definitionOk_iff]
  constructor
  · rintro ⟨⟨⟨hdistinct, hcodes⟩, hdefs⟩, hcap, hcounts⟩
    exact ⟨hdistinct, hcap, fun e he => ⟨hcodes e he, hcounts e he, hdefs e he⟩⟩
  · rintro ⟨hdistinct, hcap, hentries⟩
    exact ⟨⟨⟨hdistinct, fun e he => let ⟨hcode, _, _⟩ := hentries e he; hcode⟩,
        fun e he => let ⟨_, _, hdef⟩ := hentries e he; hdef⟩,
      hcap, fun e he => let ⟨_, hcount, _⟩ := hentries e he; hcount⟩

end Sys2Proof.Proofs.Registry
end

section
/-! DECODE (42_record_unpacker.md R170 to R173): its checks in order, the keys a checked definition fixes (R185), and the UVR64 record (R196, R198). -/

namespace Sys2Proof.Proofs.Records

open Sys2Proof.Machine Sys2Proof.Laws

/-! ## What DECODE answers, case by case -/

theorem decodeFrame_unknown {reg : Registry} {buf : Memory} {n : U32} {code : Byte} (hn : n ≠ 0)
    (hread : buf.read 0 = some code) (hlookup : regLookup reg code = none) :
    decodeFrame reg buf n = .ok (.unknownDevice (some code)) := by
  rw [decodeFrame, if_neg hn]
  simp [hread, hlookup]

theorem decodeFrame_mismatch {reg : Registry} {buf : Memory} {n : U32} {code : Byte} {d : DeviceDefinition} (hn : n ≠ 0)
    (hread : buf.read 0 = some code) (hlookup : regLookup reg code = some d) (hlen : n.toNat ≠ d.expectedByteCount.toNat) :
    decodeFrame reg buf n = .ok (.lengthMismatch code d.expectedByteCount n) := by
  rw [decodeFrame, if_neg hn]
  simp [hread, hlookup, hlen]

theorem decodeFrame_record {reg : Registry} {buf : Memory} {n : U32} {code : Byte} {d : DeviceDefinition} {r : Record}
    (hn : n ≠ 0) (hread : buf.read 0 = some code) (hlookup : regLookup reg code = some d)
    (hlen : n.toNat = d.expectedByteCount.toNat) (hslots : unpackSlots d buf d.expectedByteCount.toNat 0 [] = .ok r) :
    decodeFrame reg buf n = .ok (.record r) := by
  rw [decodeFrame, if_neg hn]
  simp [hread, hlookup, hlen, hslots]

/-- Settles O46: each case is one answer of DECODE. -/
theorem decodeChecksInOrder : Obligations.DecodeChecksInOrder := fun _ _ _ =>
  ⟨fun hn => if_pos hn, fun _ hn hread => ⟨decodeFrame_unknown hn hread, fun _ => decodeFrame_mismatch hn hread⟩⟩

/-! ## The keys of a checked definition -/

/-- WF8: one slot produces no key twice. -/
theorem slotKeys_nodup {m : ByteMapping} (h : outputsDistinct m = true) : (slotKeys m).Nodup := by
  cases hk : m.kind with
  | deviceIdentity => simp [slotKeys, hk]
  | temperature => simp [slotKeys, hk]
  | outputBits =>
    have hdistinct : (usedOutputs m).Nodup := by simpa [outputsDistinct, hk] using h
    simpa [slotKeys, hk] using hdistinct.map fun _ _ => outputKey_injective

theorem exists_slot_of_mem_definitionKeys {ms : List ByteMapping} {k : Name} (h : k ∈ definitionKeys ms) :
    ∃ m ∈ ms, k ∈ slotKeys m := by
  induction ms using definitionKeys.induct with
  | case1 => cases h
  | case2 m => exact ⟨m, List.mem_singleton_self m, h⟩
  | case3 m m' rest hw ih =>
    rw [definitionKeys, if_pos hw] at h
    obtain hk | hk := List.mem_append.mp h
    · exact ⟨m, by simp, hk⟩
    · obtain ⟨x, hx, hk⟩ := ih hk
      exact ⟨x, List.mem_cons_of_mem _ hx, hk⟩
  | case4 m m' rest hw ih =>
    rw [definitionKeys, if_neg hw] at h
    obtain hk | hk := List.mem_append.mp h
    · exact ⟨m, by simp, hk⟩
    · obtain ⟨x, hx, hk⟩ := ih hk
      exact ⟨x, by simp [hx], hk⟩

/-- A slot apart from later ones has its keys apart from all of theirs. -/
theorem slotKeys_append_nodup {m : ByteMapping} {ms : List ByteMapping} (hout : outputsDistinct m = true)
    (hapart : keysApart m ms = true) (h : (definitionKeys ms).Nodup) : (slotKeys m ++ definitionKeys ms).Nodup := by
  refine List.nodup_append'.mpr ⟨slotKeys_nodup hout, h, fun k hk hk' => ?_⟩
  obtain ⟨x, hx, hkx⟩ := exists_slot_of_mem_definitionKeys hk'
  exact (keysApart_iff m ms).mp hapart k hk x hx hkx

/-- R185: under WF7 and WF8 no key comes twice. -/
theorem definitionKeys_nodup {ms : List ByteMapping} (hapart : slotsApart ms = true)
    (hout : ∀ m ∈ ms, outputsDistinct m = true) : (definitionKeys ms).Nodup := by
  induction ms using slotsApart.induct with
  | case1 => exact List.nodup_nil
  | case2 m => exact slotKeys_nodup (hout m (by simp))
  | case3 m m' rest hw ih =>
    rw [slotsApart, if_pos hw, Bool.and_eq_true] at hapart
    rw [definitionKeys, if_pos hw]
    exact slotKeys_append_nodup (hout m (by simp)) hapart.1 (ih hapart.2 fun x hx => hout x (List.mem_cons_of_mem _ hx))
  | case4 m m' rest hw ih =>
    rw [slotsApart, if_neg hw, Bool.and_eq_true, Bool.and_eq_true] at hapart
    obtain ⟨⟨_, hm⟩, hrest⟩ := hapart
    rw [definitionKeys, if_neg hw]
    exact slotKeys_append_nodup (hout m (by simp)) hm (ih hrest fun x hx => hout x (by simp [hx]))

/-- Settles O47: the keys are those of the definition's slots. -/
theorem wellFormedDefinitionFixesTheKeys : Obligations.WellFormedDefinitionFixesTheKeys := by
  intro c code d hc hlookup
  obtain ⟨hdef, _⟩ := definition_of_lookup hc hlookup
  simp only [definitionOk, countOk, Bool.and_eq_true, beq_iff_eq, List.all_eq_true, decide_eq_true_eq] at hdef
  obtain ⟨⟨⟨⟨⟨⟨⟨hpos, hcount⟩, _⟩, _⟩, _⟩, hapart⟩, hout⟩, _⟩ := hdef
  refine ⟨definitionKeys d.byteMappings, definitionKeys_nodup hapart hout, fun buf n hwf hlen hn hread => ?_⟩
  obtain ⟨r, hslots, hkeys⟩ := unpackSlots_ok d buf d.byteMappings 0 [] rfl
    (fun j hj => read_isSome buf hwf (by omega)) hapart hout (by simp)
  have hn0 : n ≠ 0 := by
    rintro rfl
    simp at hn
    omega
  exact ⟨r, decodeFrame_record hn0 hread hlookup hn (hcount ▸ hslots), hkeys⟩

/-! ## The UVR64 record -/

/-- R196: two slots of `tenthPair` add one temperature to the record. -/
theorem unpackSlots_tenthPair {d : DeviceDefinition} {buf : Memory} {n i : Nat} {lo hi : Byte} {r : Record} (name : Name)
    (habsent : name ∉ keysOf r) (hlow : d.byteMappings[i]? = some (tempSlot .low name f64Tenth))
    (hhigh : d.byteMappings[i + 1]? = some (tempSlot .high name f64Tenth)) (hlo : buf.read i = some lo)
    (hhi : buf.read (i + 1) = some hi) :
    unpackSlots d buf (n + 2) i r
      = unpackSlots d buf n (i + 2) (r ++ [(name, .num (fAdd (scaledByte lo f64Tenth) (highTerm (scaledByte hi f64Tenth))))]) :=
  unpackSlots_lowHigh (m := tempSlot .low name f64Tenth) (m' := tempSlot .high name f64Tenth) hlo hhi hlow hhigh rfl rfl rfl rfl
    rfl habsent

/-- Settles O48: the type name, six pairs of halves and the output bits, slot by slot. -/
theorem uvr64RecordHasElevenKeys : Obligations.Uvr64RecordHasElevenKeys := by
  intro b1 b2 b3 b4 b5 b6 b7 b8 b9 b10 b11 b12 b13
  refine decodeFrame_record (d := uvr64) (by decide) rfl rfl rfl ?_
  refine Eq.trans (unpackSlots_slot (m := identSlot (ascii "devicetype")) rfl rfl rfl) ?_
  refine Eq.trans (unpackSlots_tenthPair (ascii "temp1") (of_decide_eq_true rfl) rfl rfl rfl rfl) ?_
  refine Eq.trans (unpackSlots_tenthPair (ascii "temp2") (of_decide_eq_true rfl) rfl rfl rfl rfl) ?_
  refine Eq.trans (unpackSlots_tenthPair (ascii "temp3") (of_decide_eq_true rfl) rfl rfl rfl rfl) ?_
  refine Eq.trans (unpackSlots_tenthPair (ascii "temp4") (of_decide_eq_true rfl) rfl rfl rfl rfl) ?_
  refine Eq.trans (unpackSlots_tenthPair (ascii "temp5") (of_decide_eq_true rfl) rfl rfl rfl rfl) ?_
  refine Eq.trans (unpackSlots_tenthPair (ascii "temp6") (of_decide_eq_true rfl) rfl rfl rfl rfl) ?_
  exact unpackSlots_slot (m := outbitsSlot (ascii "output") #v[0, 0, 0, 0, 1, 2, 3, 4]) rfl rfl
    (outbitsFrom_fresh _ _ _ 0 _ (by decide) (of_decide_eq_true rfl))

end Sys2Proof.Proofs.Records
end

section
/-! binary64 (00_scope.md R13, 42_record_unpacker.md R177 to R182): the fields of a rounded value, sums in either order, the exact High term, and the values
the spec quotes. -/

namespace Sys2Proof.Proofs.Binary64

open Sys2Proof.Machine

/-! ## The three fields -/

theorem fSign_eq (x : F64) : fSign x = decide (2 ^ 63 ≤ x.toNat) := by
  rw [fSign, ← BitVec.msb_eq_getLsbD_last, BitVec.msb_eq_decide]

theorem fExp_eq (x : F64) : fExp x = x.toNat / 2 ^ 52 % 2048 := by
  simp [fExp, Nat.shiftRight_eq_div_pow]

theorem fFrac_eq (x : F64) : fFrac x = x.toNat % 2 ^ 52 := by
  simp [fFrac]

theorem fFrac_lt (x : F64) : fFrac x < 2 ^ 52 := by
  rw [fFrac_eq]
  exact Nat.mod_lt _ (by decide)

theorem toNat_eq_fields (x : F64) : x.toNat = (fSign x).toNat * 2 ^ 63 + fExp x * 2 ^ 52 + fFrac x := by
  have hx := x.isLt
  rw [fSign_eq, fExp_eq, fFrac_eq]
  by_cases hs : 2 ^ 63 ≤ x.toNat
  · simp only [hs, decide_true, Bool.toNat_true]
    omega
  · simp only [hs, decide_false, Bool.toNat_false]
    omega

/-- A binary64 is its sign, its exponent and its fraction. -/
theorem eq_of_fields {x y : F64} (hs : fSign x = fSign y) (he : fExp x = fExp y) (hf : fFrac x = fFrac y) : x = y := by
  apply BitVec.eq_of_toNat_eq
  rw [toNat_eq_fields x, toNat_eq_fields y, hs, he, hf]

theorem fIsInf_iff (x : F64) : fIsInf x = true ↔ fExp x = 2047 ∧ fFrac x = 0 := by
  simp [fIsInf]

theorem eq_of_fIsInf {x y : F64} (hx : fIsInf x = true) (hy : fIsInf y = true) (hs : fSign x = fSign y) : x = y := by
  obtain ⟨hex, hfx⟩ := (fIsInf_iff x).mp hx
  obtain ⟨hey, hfy⟩ := (fIsInf_iff y).mp hy
  exact eq_of_fields hs (hex.trans hey.symm) (hfx.trans hfy.symm)

/-! ## Sums -/

theorem fAddFinite_comm (x y : F64) : fAddFinite x y = fAddFinite y x := by
  simp only [fAddFinite, Int.add_comm (fInt x), Bool.and_comm (fSign x)]

/-- Settles O49: two infinities of one sign are the same value, and a finite sum is rounded from the same exact one. -/
theorem sumOfHalvesIsOrderIndependent : Obligations.SumOfHalvesIsOrderIndependent := by
  intro x y hx hy hopposite
  cases hix : fIsInf x <;> cases hiy : fIsInf y
  case true.true =>
    have hsign : fSign x = fSign y := by
      by_contra hs
      exact hopposite ⟨hix, hiy, hs⟩
    rw [eq_of_fIsInf hix hiy hsign]
  case false.false => simp [fAdd, hx, hy, hix, hiy, fAddFinite_comm x y]
  case true.false => simp [fAdd, hx, hy, hix, hiy]
  case false.true => simp [fAdd, hx, hy, hix, hiy]

/-! ## Exact rounding -/

theorem toNat_fSignBit_or {m : Nat} (neg : Bool) (h : m < 2 ^ 63) :
    (fSignBit neg ||| BitVec.ofNat 64 m).toNat = neg.toNat * 2 ^ 63 + m := by
  have hm : (BitVec.ofNat 64 m).toNat = m := by
    rw [BitVec.toNat_ofNat]
    omega
  have hneg : (fSignBit neg).toNat = 2 ^ 63 * neg.toNat := by cases neg <;> rfl
  rw [BitVec.toNat_or, hm, hneg, ← Nat.two_pow_add_eq_or_of_lt h, Nat.mul_comm]

/-- The fields of a sign and magnitude bits below those of infinity. -/
theorem fields_fSignBit_or {m : Nat} (neg : Bool) (h : m < 2047 * 2 ^ 52) :
    fSign (fSignBit neg ||| BitVec.ofNat 64 m) = neg ∧ fExp (fSignBit neg ||| BitVec.ofNat 64 m) = m / 2 ^ 52
      ∧ fFrac (fSignBit neg ||| BitVec.ofNat 64 m) = m % 2 ^ 52 := by
  rw [fSign_eq, fExp_eq, fFrac_eq, toNat_fSignBit_or neg (by omega)]
  cases neg
  · simp only [Bool.toNat_false, decide_eq_false_iff_not]
    omega
  · simp only [Bool.toNat_true, decide_eq_true_eq]
    omega

theorem fIsFinite_fInf (neg : Bool) : fIsFinite (fInf neg) = false := by
  cases neg <;> decide

/-- Magnitude bits of `q` counted in units of `2 ^ s` stand for `q * 2 ^ s`, when `q` fills the fraction and its leading bit or `s` is 0. -/
theorem fUnits_fSignBit_or {s q : Nat} (neg : Bool) (hlt : q < 2 ^ 53) (hge : s ≠ 0 → 2 ^ 52 ≤ q)
    (h : s * 2 ^ 52 + q < 2047 * 2 ^ 52) : fUnits (fSignBit neg ||| BitVec.ofNat 64 (s * 2 ^ 52 + q)) = q * 2 ^ s := by
  obtain ⟨_, hexp, hfrac⟩ := fields_fSignBit_or neg h
  rw [fUnits, hexp, hfrac]
  by_cases hq : q < 2 ^ 52
  · obtain rfl : s = 0 := by omega
    rw [if_pos (by omega)]
    omega
  · rw [if_neg (by omega), show (s * 2 ^ 52 + q) / 2 ^ 52 - 1 = s by omega,
      show 2 ^ 52 + (s * 2 ^ 52 + q) % 2 ^ 52 = q by omega]

theorem divNearestEven_mul (q : Nat) {d : Nat} (hd : 0 < d) : divNearestEven (q * d) d = q := by
  have hmod : q * d % d = 0 := Nat.mul_mod_left q d
  rw [divNearestEven, hmod, if_neg (by omega), Nat.mul_div_cancel q hd]

/-- The quotient by the bits a binary64 does not hold fits its 53. -/
theorem quotient_lt {n q : Nat} (h : n = q * 2 ^ (n.log2 - 52)) : q < 2 ^ 53 := by
  have hn : q * 2 ^ (n.log2 - 52) < 2 ^ 53 * 2 ^ (n.log2 - 52) := by
    calc q * 2 ^ (n.log2 - 52) = n := h.symm
      _ < 2 ^ (n.log2 + 1) := Nat.lt_log2_self
      _ ≤ 2 ^ (53 + (n.log2 - 52)) := Nat.pow_le_pow_right (by decide) (by omega)
      _ = 2 ^ 53 * 2 ^ (n.log2 - 52) := Nat.pow_add 2 53 _
  exact Nat.lt_of_mul_lt_mul_right hn

theorem le_quotient {n q : Nat} (h : n = q * 2 ^ (n.log2 - 52)) (hs : n.log2 - 52 ≠ 0) : 2 ^ 52 ≤ q := by
  have hn : n ≠ 0 := by
    rintro rfl
    exact hs (by decide)
  have hle : 2 ^ 52 * 2 ^ (n.log2 - 52) ≤ q * 2 ^ (n.log2 - 52) := by
    calc 2 ^ 52 * 2 ^ (n.log2 - 52) = 2 ^ (52 + (n.log2 - 52)) := (Nat.pow_add 2 52 _).symm
      _ = 2 ^ n.log2 := by rw [show 52 + (n.log2 - 52) = n.log2 by omega]
      _ ≤ n := Nat.log2_self_le hn
      _ = q * 2 ^ (n.log2 - 52) := h
  exact Nat.le_of_mul_le_mul_right hle (Nat.two_pow_pos _)

/-- A whole number of units with no bit below those a binary64 holds is not rounded. -/
theorem fl_exact {neg : Bool} {n k : Nat} (hk : 0 < k) (hdvd : 2 ^ (n.log2 - 52) ∣ n)
    (hfinite : fIsFinite (fl neg (n * k) k) = true) : fSign (fl neg (n * k) k) = neg ∧ fUnits (fl neg (n * k) k) = n := by
  obtain ⟨q, hq⟩ : ∃ q, n = q * 2 ^ (n.log2 - 52) := exists_eq_mul_left_of_dvd hdvd
  have hshift : fShift (n * k) k = n.log2 - 52 := by rw [fShift, Nat.mul_div_cancel n hk]
  have hmag : fMagnitude (n * k) k = (n.log2 - 52) * 2 ^ 52 + q := by
    have hscaled : n * k = q * (k * 2 ^ (n.log2 - 52)) := by
      rw [Nat.mul_left_comm, ← hq, Nat.mul_comm]
    rw [fMagnitude, hshift, hscaled, divNearestEven_mul q (Nat.mul_pos hk (Nat.two_pow_pos _))]
  by_cases hover : fMagnitude (n * k) k < 2047 * 2 ^ 52
  · rw [fl, if_pos hover, hmag]
    rw [hmag] at hover
    exact ⟨(fields_fSignBit_or neg hover).1,
      (fUnits_fSignBit_or neg (quotient_lt hq) (le_quotient hq) hover).trans hq.symm⟩
  · rw [fl, if_neg hover, fIsFinite_fInf] at hfinite
    cases hfinite

/-! ## The High term -/

/-- A finite magnitude is 53 bits and a power of two. -/
theorem exists_significand (x : F64) : ∃ m j : Nat, m < 2 ^ 53 ∧ fUnits x = m * 2 ^ j := by
  have hfrac := fFrac_lt x
  unfold fUnits
  split_ifs
  · exact ⟨fFrac x, 0, by omega, by omega⟩
  · exact ⟨2 ^ 52 + fFrac x, fExp x - 1, by omega, rfl⟩

/-- R179: 256 times a finite magnitude has no bit below those a binary64 holds. -/
theorem weighted_dvd (x : F64) : 2 ^ ((256 * fUnits x).log2 - 52) ∣ 256 * fUnits x := by
  obtain ⟨m, j, hm, hx⟩ := exists_significand x
  have hunits : 256 * fUnits x = m * 2 ^ (j + 8) := by
    rw [hx, Nat.mul_left_comm, Nat.pow_add, Nat.mul_comm 256]
  rw [hunits]
  by_cases hzero : m = 0
  · simp [hzero]
  have hlog : (m * 2 ^ (j + 8)).log2 < 53 + (j + 8) := by
    refine (Nat.log2_lt (by positivity)).mpr ?_
    rw [Nat.pow_add 2 53]
    exact Nat.mul_lt_mul_of_pos_right hm (Nat.two_pow_pos _)
  exact (Nat.pow_dvd_pow 2 (by omega)).trans (Nat.dvd_mul_left _ m)

/-- A product of finite values is rounded once from a whole number of units over the units of 1. -/
theorem fMul_finite {x y : F64} (hx : fIsFinite x = true) (hy : fIsFinite y = true) :
    fMul x y = fl (fSign x != fSign y) (fUnits x * fUnits y) (2 ^ 1074) := by
  have hexpx : fExp x ≠ 2047 := by simpa [fIsFinite] using hx
  have hexpy : fExp y ≠ 2047 := by simpa [fIsFinite] using hy
  have hnan : (fIsNan x || fIsNan y) = false := by simp [fIsNan, hexpx, hexpy]
  have hinf : (fIsInf x || fIsInf y) = false := by simp [fIsInf, hexpx, hexpy]
  rw [fMul, hnan, hinf, if_neg Bool.false_ne_true, if_neg Bool.false_ne_true]

theorem fUnits_f64Weight : fUnits f64Weight = 256 * 2 ^ 1074 := by decide +kernel

/-- R179: the High term is 256 times the value, rounded once; `k` is the units of 1. -/
theorem highTerm_eq_fl {x : F64} (hx : fIsFinite x = true) :
    ∃ k, 0 < k ∧ highTerm x = fl (fSign x) (256 * fUnits x * k) k := by
  refine ⟨2 ^ 1074, Nat.two_pow_pos 1074, ?_⟩
  have hweight : fIsFinite f64Weight = true ∧ fSign f64Weight = false := by decide
  obtain ⟨hfinite, hsign⟩ := hweight
  rw [highTerm, fMul_finite hx hfinite, hsign, Bool.bne_false, fUnits_f64Weight, ← Nat.mul_assoc, Nat.mul_comm (fUnits x)]

/-- Settles O50: the High term is rounded from a number that a binary64 holds. -/
theorem highTermIsExact : Obligations.HighTermIsExact := by
  intro x hx hfinite
  obtain ⟨k, hk, hterm⟩ := highTerm_eq_fl hx
  rw [hterm] at hfinite ⊢
  obtain ⟨hsign, hunits⟩ := fl_exact hk (weighted_dvd x) hfinite
  rw [fInt, fInt, hsign, hunits]
  split_ifs <;> push_cast <;> ring

/-! ## Quoted values -/

/-- Settles O51: each value is evaluated. -/
theorem quotedTemperaturesAgree : Obligations.QuotedTemperaturesAgree :=
  ⟨by decide +kernel, by decide +kernel, by decide +kernel⟩

end Sys2Proof.Proofs.Binary64
end

section
/-! The events of one edge and their order (60_exceptions.md R218, R219): S2 raises the first of them and S3 appends at most one SYNC_LOSS. -/

namespace Sys2Proof.Proofs.EdgeEvents

open Sys2Proof.Machine Sys2Proof.Laws Sys2Proof.Proofs.Edge Sys2Proof.Proofs.WholeEdges

/-- S3 raises at most one event, after those of S2: a SYNC_LOSS with the edge's own time (R136, R139). -/
theorem r120S3_events {s u : State} {level : Bool} {ts : U32} (hi : RegInv s) (h : r120S3 level ts s = .ok u) :
    ∃ loss : List Event, (loss = [] ∨ ∃ which, loss = [.syncLoss which ts]) ∧ u.events = s.events ++ loss := by
  by_cases hs : s.synced = true
  · obtain ⟨_, _, hev⟩ | ⟨_, _, which, hev, _⟩ := r120S3_synced hi hs h
    · exact ⟨[], .inl rfl, by rw [hev, List.append_nil]⟩
    · exact ⟨_, .inr ⟨which, rfl⟩, hev⟩
  · rw [r120S3_offBoundary fun hat => hs hat.1] at h
    cases h
    exact ⟨[], .inl rfl, (List.append_nil _).symm⟩

/-- Settles O23: a marker edge raises its finalization alone; any other raises what the count of S2 does and then what S3 does. -/
theorem edgeEventsKeepTheirOrder : Obligations.EdgeEventsKeepTheirOrder := by
  intro s t level dur ts h
  rw [exec_edge] at h
  obtain ⟨hr, v, hv, rfl⟩ := edgeStep_next h
  by_cases hm : CompletesMarker level dur s
  · obtain ⟨r, _, hmarked⟩ := r120_marker ts hr hm
    cases hmarked.symm.trans hv
    exact .inl ⟨_, isFinalization_finalEvent s.cfg.controllerId r, rfl, hm⟩
  · obtain ⟨u, hu, rfl⟩ := (r120_counted hm).mp hv
    obtain ⟨_, _, hregs⟩ := counted_ready (ts := ts) hr hm
    obtain ⟨loss, hloss, hev⟩ := r120S3_events hregs hu
    exact .inr ⟨hm, loss, hloss, hev⟩

end Sys2Proof.Proofs.EdgeEvents
end

section
/-! The lifecycle of the core (70_reset_and_hazards.md R240, R243 to R245, R255): what RESET and teardown leave, and the phases in which nothing is
accepted. -/

namespace Sys2Proof.Proofs.Lifecycle

open Sys2Proof.Machine Sys2Proof.Laws Sys2Proof.Proofs.Step Sys2Proof.Proofs.Edge Sys2Proof.Proofs.Selected

/-! ## RESET -/

/-- R240, R244: RESET does not look at the registers. -/
theorem execReset_completes {s : State} (hphase : s.phase = .running ∨ s.phase = .configured) (hcfg : configOk s.cfg = true) :
    execReset s = .next { s.resetRegisters with phase := .running, work := Work.idle } := by
  obtain hrun | hconf := hphase
  · exact execReset_running hrun hcfg
  · simp [execReset, hconf, hcfg]

/-- Settles O2: RESET completes, and once more on the state it leaves. -/
theorem resetWritesEveryRegister : Obligations.ResetWritesEveryRegister := by
  intro s hphase hcfg
  have hagain := execReset_completes (s := { s.resetRegisters with phase := .running, work := Work.idle }) (.inl rfl) hcfg
  exact ⟨_, execReset_completes hphase hcfg, rfl, (fsm_unsynced _).mpr ⟨rfl, rfl⟩, hagain⟩

/-! ## Outside operation -/

/-- The phases in which neither an edge nor RESET is accepted, and the refusal of each (R243 to R245). -/
inductive Inoperative : Phase → Refusal → Prop
  | unconfigured : Inoperative .unconfigured .notConfigured
  | refused : Inoperative .refused .configurationRefused
  | tornDown : Inoperative .tornDown .afterTeardown

theorem Inoperative.accept_refused {s : State} {r : Refusal} (h : Inoperative s.phase r) (k : State → Outcome) :
    accept s k = .refused r := by
  generalize hphase : s.phase = p at h
  cases h <;> simp [accept, hphase]

theorem Inoperative.execReset_refused {s : State} {r : Refusal} (h : Inoperative s.phase r) : execReset s = .refused r := by
  generalize hphase : s.phase = p at h
  cases h <;> simp [execReset, hphase]

/-- R244: operation begins with the first RESET. -/
theorem accept_beforeReset {s : State} (hphase : s.phase = .configured) (k : State → Outcome) :
    accept s k = .refused .beforeReset := by
  simp [accept, hphase]

/-- Settles O32: an edge begins with `accept`, and RESET looks at the phase itself. -/
theorem noMoveOutsideOperation : Obligations.NoMoveOutsideOperation := by
  intro s level dur ts
  rw [exec_edge]
  refine ⟨fun hphase => accept_beforeReset hphase _, fun p r hpr hphase => ?_⟩
  have h : Inoperative s.phase r := by
    rw [hphase]
    obtain ⟨rfl, rfl⟩ | ⟨rfl, rfl⟩ | ⟨rfl, rfl⟩ := hpr
    · exact .unconfigured
    · exact .refused
    · exact .tornDown
  exact ⟨h.accept_refused _, h.execReset_refused⟩

/-! ## Teardown -/

theorem teardown_completes {s : State} (hphase : s.phase = .configured ∨ s.phase = .running) :
    teardown s = .next { s.resetRegisters with phase := .tornDown, work := Work.idle } := by
  obtain h | h := hphase <;> simp [teardown, h]

theorem step_teardown {s : State} {rest : List Input} (hsub : s.sub = none) (hin : s.inbox = .teardown :: rest) :
    step s = teardown (taken s rest) :=
  step_of_fetch_done (fetch_of_inbox_cons hsub hin)

/-- Settles O36: the step is `teardown`, which writes the reset values. -/
theorem teardownDiscardsWithoutEvents : Obligations.TeardownDiscardsWithoutEvents := by
  intro s rest hsub hin hphase
  exact ⟨_, (step_teardown hsub hin).trans (teardown_completes (s := taken s rest) hphase),
    rfl, rfl, rfl, rfl, rfl, rfl, rfl, rfl, rfl, rfl, rfl⟩

end Sys2Proof.Proofs.Lifecycle
end

section
/-! Runs of traces (70_reset_and_hazards.md R246, R247): each transaction handed over is one step of the core, which comes to rest again after it. -/

namespace Sys2Proof.Proofs.Runs

open Sys2Proof.Machine Sys2Proof.Laws Sys2Proof.Proofs.Step Sys2Proof.Proofs.Edge Sys2Proof.Proofs.Instructions
  Sys2Proof.Proofs.Soundness Sys2Proof.Proofs.Selected Sys2Proof.Proofs.Assembly Sys2Proof.Proofs.Lifecycle

/-! ## The inputs of a trace -/

/-- The transactions and the inputs that carry them (R80, R82). -/
inductive CarriedBy : Instr → Input → Prop
  | edge (level : Bool) (dur ts : U32) : CarriedBy (edgeInstr level dur ts) (.ev (encodeEv level dur ts))
  | reset : CarriedBy .reset (.ctl 1)

theorem carriedBy_of_inputOf {i : Instr} {x : Input} (h : inputOf i = some x) : CarriedBy i x := by
  cases i with
  | edgeRise dur ts => cases h; exact .edge true dur ts
  | edgeFall dur ts => cases h; exact .edge false dur ts
  | reset => cases h; exact .reset
  | _ => cases h

theorem inputOf_edgeInstr (level : Bool) (dur ts : U32) : inputOf (edgeInstr level dur ts) = some (.ev (encodeEv level dur ts)) := by
  cases level <;> rfl

theorem traceInputs_cons_eq_some {i : Instr} {is : List Instr} {xs : List Input} :
    traceInputs (i :: is) = some xs ↔ ∃ x ys, inputOf i = some x ∧ traceInputs is = some ys ∧ xs = x :: ys := by
  cases hi : inputOf i <;> cases his : traceInputs is <;> simp [traceInputs, hi, his, eq_comm]

/-! ## One transaction -/

/-- How the core stands between two transactions of a run under `c`. -/
structure Resting (c : Config) (s : State) : Prop where
  sound : Sound s
  running : s.phase = .running
  inbox_nil : s.inbox = []
  cfg_eq : s.cfg = c

theorem Resting.ready {c : Config} {s : State} (h : Resting c s) : Ready s :=
  have ⟨_, _, hcfg, _, hregs⟩ := h.sound
  ⟨h.running, hcfg, hregs⟩

theorem Resting.cfg_ok {c : Config} {s : State} (h : Resting c s) : configOk s.cfg = true :=
  have ⟨_, hcfg, _⟩ := h.ready
  hcfg

theorem Resting.sub_none {c : Config} {s : State} (h : Resting c s) : s.sub = none :=
  have ⟨⟨hsub, _⟩, _⟩ := h.sound
  hsub

theorem launchState_resting {c : Config} (hc : configOk c = true) (hcap : c.bufCap < 2 ^ 32 - 1) : Resting c (launchState c) :=
  ⟨⟨⟨rfl, rfl⟩, .inl rfl, hc, hcap, resetRegisters_regInv (launchState c)⟩, rfl, rfl, rfl⟩

/-- A transaction handed over to a core with an empty inbox is what its step runs. -/
theorem step_handOver {i : Instr} {x : Input} {s : State} (hx : inputOf i = some x) (hsub : s.sub = none) (hin : s.inbox = []) :
    step (handOver x s) = exec i (taken s []) := by
  have hfetch : fetch (handOver x s) = fetchInput x (taken s []) :=
    fetch_of_inbox_cons (s := handOver x s) hsub (by rw [handOver_inbox, hin, List.nil_append])
  refine step_of_fetch_run (hfetch.trans ?_)
  obtain ⟨level, dur, ts⟩ | _ := carriedBy_of_inputOf hx
  · exact fetchInput_ev_of_decode _ (congrArg Except.ok (decodeEv_encodeEv level dur ts))
  · rfl

/-- The RESET handed over leaves the launch state, whatever the registers were (R246). -/
theorem step_reset {s : State} (hphase : s.phase = .running ∨ s.phase = .configured) (hcfg : configOk s.cfg = true)
    (hsub : s.sub = none) (hin : s.inbox = []) : step (handOver (.ctl 1) s) = .next (launchState s.cfg) := by
  have hstep : step (handOver (.ctl 1) s) = execReset (taken s []) := step_handOver (i := .reset) rfl hsub hin
  rw [hstep, execReset_completes (s := taken s []) hphase hcfg]
  simp [State.resetRegisters, launchState, State.reset, taken, hsub]

/-- An edge clears the events of the step before, and so does RESET. -/
theorem exec_taken {i : Instr} {x : Input} {s : State} (hx : inputOf i = some x) (hr : Ready s) (hin : s.inbox = []) :
    exec i (taken s []) = exec i s := by
  have htaken : taken s [] = { s with events := [] } := by rw [taken, ← hin]
  rw [htaken]
  obtain ⟨level, dur, ts⟩ | _ := carriedBy_of_inputOf hx
  · rw [edgeInstr, exec_edge, edgeStep_ready level dur ts hr, edgeStep_ready (s := { s with events := [] }) level dur ts hr]
    rfl
  · rfl

/-- In a run every transaction completes, and the core rests again. -/
theorem Resting.step_completes {c : Config} {s : State} {i : Instr} {x : Input} (h : Resting c s) (hx : inputOf i = some x) :
    ∃ t, exec i s = .next t ∧ step (handOver x s) = .next t ∧ Resting c t := by
  have hstep : step (handOver x s) = exec i s :=
    (step_handOver hx h.sub_none h.inbox_nil).trans (exec_taken hx h.ready h.inbox_nil)
  have hnext : ∃ t, exec i s = .next t ∧ t.phase = .running := by
    obtain ⟨level, dur, ts⟩ | _ := carriedBy_of_inputOf hx
    · rw [edgeInstr, exec_edge]
      obtain ⟨t, ht, _, hphase, _⟩ := edgeStep_completes level dur ts h.ready
      exact ⟨t, ht, hphase.trans h.running⟩
    · exact ⟨_, execReset_running h.running h.cfg_ok, rfl⟩
  obtain ⟨t, ht, hphase⟩ := hnext
  have hsound : Sound (handOver x s) := h.sound
  obtain ⟨hsound', hcfg⟩ := everyStepKeepsSoundness _ _ hsound (hstep.trans ht)
  obtain ⟨_, hinbox, _⟩ := noInstructionWritesConfiguration i s t ht
  exact ⟨t, ht, hstep.trans ht, hsound', hphase, hinbox.trans h.inbox_nil, hcfg.trans h.cfg_eq⟩

/-! ## Runs -/

theorem Resting.runFrom_ends {c : Config} {s : State} {trace : List Instr} {xs : List Input} (h : Resting c s)
    (hxs : traceInputs trace = some xs) (es : List Event) : ∃ t es', runFrom xs s es = .ended t es' ∧ Resting c t := by
  induction trace generalizing s xs es with
  | nil =>
    cases hxs
    exact ⟨s, es, rfl, h⟩
  | cons i is ih =>
    obtain ⟨x, ys, hx, hys, rfl⟩ := traceInputs_cons_eq_some.mp hxs
    obtain ⟨t, _, hstep, ht⟩ := h.step_completes hx
    rw [runFrom_cons_next ys es hstep]
    exact ih ht hys _

/-- The events of earlier steps are carried along unread (R247). -/
theorem runFrom_events_append {xs : List Input} {s t : State} {es es' : List Event} (before : List Event)
    (h : runFrom xs s es = .ended t es') : runFrom xs s (before ++ es) = .ended t (before ++ es') := by
  induction xs generalizing s es with
  | nil =>
    cases h
    rfl
  | cons x xs ih =>
    cases hstep : step (handOver x s) with
    | next u =>
      rw [runFrom_cons_next xs _ hstep] at h ⊢
      rw [List.append_assoc]
      exact ih h
    | fault f => simp [runFrom, hstep] at h
    | refused r => simp [runFrom, hstep] at h

theorem Resting.runFrom_edges {c : Config} {s t : State} {edges : List (Bool × U32 × U32)} {es es' : List Event}
    (h : Resting c s) (hedges : runEdges edges s es = some (t, es')) :
    ∃ xs, traceInputs (edges.map fun e => edgeInstr e.1 e.2.1 e.2.2) = some xs ∧ runFrom xs s es = .ended t es' := by
  induction edges generalizing s es with
  | nil =>
    cases hedges
    exact ⟨[], rfl, rfl⟩
  | cons e rest ih =>
    obtain ⟨level, dur, ts⟩ := e
    have hx := inputOf_edgeInstr level dur ts
    obtain ⟨u, hexec, hstep, hu⟩ := h.step_completes hx
    rw [edgeInstr, exec_edge] at hexec
    rw [runEdges_cons_next rest es hexec] at hedges
    obtain ⟨ys, hys, hrun⟩ := ih hu hedges
    exact ⟨_, traceInputs_cons_eq_some.mpr ⟨_, ys, hx, hys, rfl⟩, (runFrom_cons_next ys es hstep).trans hrun⟩

/-- The RESET of a checked configuration raises nothing, so the run goes on from the launch state (R244, R246). -/
theorem runTrace_reset {c : Config} {trace : List Instr} {xs : List Input} (hc : configOk c = true)
    (hxs : traceInputs trace = some xs) : runTrace c (.reset :: trace) = some (runFrom xs (launchState c) []) := by
  have hinputs : traceInputs (.reset :: trace) = some (.ctl 1 :: xs) :=
    traceInputs_cons_eq_some.mpr ⟨_, xs, rfl, hxs, rfl⟩
  have hstep : step (handOver (.ctl 1) (configuredState c)) = .next (launchState c) := step_reset (.inr rfl) hc rfl rfl
  rw [runTrace, hinputs, Option.map_some, runFrom_cons_next xs [] hstep]
  rfl

/-- Only a trace of transactions runs. -/
theorem traceInputs_of_runTrace {c : Config} {trace : List Instr} {r : RunEnd} (h : runTrace c (.reset :: trace) = some r) :
    ∃ xs, traceInputs trace = some xs := by
  obtain ⟨_, hall, _⟩ := Option.map_eq_some_iff.mp h
  obtain ⟨_, xs, _, hxs, _⟩ := traceInputs_cons_eq_some.mp hall
  exact ⟨xs, hxs⟩

/-- R244: a run starts with RESET. -/
theorem runTrace_of_ne_reset (c : Config) {i : Instr} (trace : List Instr) (hi : i ≠ .reset) : runTrace c (i :: trace) = none := by
  unfold runTrace
  split
  next heq =>
    cases heq
    exact absurd rfl hi
  next => rfl

/-- Settles O35: the trace runs from the launch state to a resting one; from there one transaction more is one step, and RESET leads to the launch
state again. -/
theorem runsEndWithEveryStepsEvents : Obligations.RunsEndWithEveryStepsEvents := by
  intro c hc hcap
  have hlaunch := launchState_resting hc hcap
  refine ⟨runTrace_reset (trace := []) hc rfl, fun trace htrace => ?trace, fun edges t es hedges => ?edges,
    fun i trace hi => runTrace_of_ne_reset c trace hi⟩
  case trace =>
    obtain ⟨xs, hxs⟩ := Option.isSome_iff_exists.mp ((traceInputs_isSome_iff trace).mpr htrace)
    obtain ⟨t, es, hrun, ht⟩ := hlaunch.runFrom_ends hxs []
    refine ⟨t, es, (runTrace_reset hc hxs).trans (congrArg some hrun), ht.ready, ht.cfg_eq, fun i hi => ?oneMore,
      fun post u es' hpost => ?resetAmid⟩
    case oneMore =>
      obtain ⟨x, hx⟩ := Option.isSome_iff_exists.mp hi
      obtain ⟨u, hexec, hstep, _⟩ := ht.step_completes hx
      have hlast : traceInputs [i] = some [x] := traceInputs_cons_eq_some.mpr ⟨x, [], hx, rfl, rfl⟩
      refine ⟨u, hexec, ?_⟩
      rw [runTrace_reset hc (traceInputs_append hxs hlast), runFrom_append, hrun]
      exact congrArg some (runFrom_cons_next [] es hstep)
    case resetAmid =>
      obtain ⟨ys, hys⟩ := traceInputs_of_runTrace hpost
      rw [runTrace_reset hc hys] at hpost
      have hstep : step (handOver (.ctl 1) t) = .next (launchState c) := by
        rw [← ht.cfg_eq]
        exact step_reset (.inl ht.running) ht.cfg_ok ht.sub_none ht.inbox_nil
      have htail : traceInputs (.reset :: post) = some (.ctl 1 :: ys) := traceInputs_cons_eq_some.mpr ⟨_, ys, rfl, hys, rfl⟩
      rw [runTrace_reset hc (traceInputs_append hxs htail), runFrom_append, hrun]
      exact congrArg some ((runFrom_cons_next ys es hstep).trans (runFrom_events_append es (Option.some.inj hpost)))
  case edges =>
    obtain ⟨xs, hxs, hrun⟩ := hlaunch.runFrom_edges hedges
    exact (runTrace_reset hc hxs).trans (congrArg some hrun)

end Sys2Proof.Proofs.Runs
end
